-- ==== Sys2Proof/Word.lean ====
section
/-! DEFINITION. The word of the core: every register, capture word, RAW word and CRC_IN word is 32 bits
(00_scope.md R6, 10_state.md R31). -/

namespace Sys2Proof

/-- The width `W = 32` of every register of the window and of every capture word (R6, R31). -/
abbrev Word := BitVec 32

end Sys2Proof
end

