-- ==== Sys2Proof/Config.lean ====
section
/-! DEFINITION. What an instance of the core fixes (00_scope.md R6 to R10) and what the spec leaves free:
the encoder's line (R14, R19), the estimator (R12) and the CAP registers read while their chain shifts (R460).
The free values are opaque constants without a body, so no proof can rest on a value of theirs. -/

namespace Sys2Proof

/-- Which capture register holds the earliest bits (R9). -/
inductive ChainOrder
  | highFirst
  | lowFirst
deriving DecidableEq, Repr

/-- The design parameters of one instance, the ones PARAM reports (R7 to R10, R32). They are arguments of the
model: a state carries the parameters of its instance, and no step and no reset changes them (R452). -/
structure Params where
  /-- NS_MAX, the number of capture registers (R7). -/
  nsMax : Nat
  /-- DELAY_MAX, the depth of the calibration scan in ticks (R8). -/
  delayMax : Nat
  /-- CHAIN_ORDER (R9). -/
  chainOrder : ChainOrder
  /-- SPD_W, the width of the speed value (R10). -/
  spdW : Nat
deriving DecidableEq, Repr

/-- CAP_BITS = 32·NS_MAX, the capture capacity in bits (R7). -/
def Params.capBits (p : Params) : Nat := 32 * p.nsMax

/-- The ranges R7, R8 and R10 give the design parameters. -/
abbrev Params.Legal (p : Params) : Prop :=
  (1 ≤ p.nsMax ∧ p.nsMax ≤ 15) ∧ (1 ≤ p.delayMax ∧ p.delayMax ≤ p.capBits) ∧ (1 ≤ p.spdW ∧ p.spdW ≤ 32)

/-- The instance of 95_test_vectors.md: NS_MAX = 4, DELAY_MAX = 16, HIGH_FIRST, SPD_W = 32.
DESIGN CHOICE (log entry 1): the spec leaves the parameters open, and this is only the instance that
`State.reset` starts. No statement rests on it. -/
def Params.testVectors : Params :=
  { nsMax := 4, delayMax := 16, chainOrder := .highFirst, spdW := 32 }

/-- A value of the estimator's own state type (R12, R62): an opaque pattern on the port `est_s` (R430), held as
the number it encodes. The core never looks inside it. DESIGN CHOICE (log entry 3): EST_W stays open. -/
structure EstState where
  code : Nat
deriving DecidableEq, Repr, Inhabited

namespace Config

/-- EST (R12): from the session's single-turn width, the estimator state, the raw angle and the previous signed
phase error to the new state and the filtered angle. FREE (log entry 3). -/
opaque est : Nat → EstState → Nat → Int → EstState × Nat

/-- SPEEDOF (R12). FREE (log entry 3). -/
opaque speedOf : EstState → Int

/-- EST_INIT (R12). FREE (log entry 3). -/
opaque estInit : EstState

/-- The level of the encoder's SLO line in clk cycle `n`: a free draw, constrained by nothing (R14, R19).
FREE (log entry 4). -/
opaque sloLine : Nat → Bool

/-- What a read of CAP[i] returns in clk cycle `n` while the chain shifts: any value (R68, R460). FREE (log entry 5). -/
opaque capInFlight : Nat → Nat → Word

end Config
end Sys2Proof
end

