-- ==== Sys2Proof/Syntax.lean ====
section
/-! DEFINITION. The seven commands of the core, one constructor per row of spec/opcode_table.json
(30_encoding.md R131). Its operands are the three fields R139 zero-extends. -/

namespace Sys2Proof

/-- A command of the core (R131). -/
inductive Instr
  /-- `NOP` (R210). -/
  | nop
  /-- `INIT` (R204). -/
  | init
  /-- `CALIBRATE` (R230). -/
  | calibrate
  /-- `READ` (R260). -/
  | read
  /-- `LATCH_OFFSET` (R360). -/
  | latchOffset
  /-- `CRC_CHECK <bitlen>, <rcrc>` (R305): BITLEN is a count (R135), RCRC the six received check bits (R134). -/
  | crcCheck (bitLen : Nat) (rcrc : BitVec 6)
  /-- `DECODE <nw>` (R325): NW counts the words of the frame in RAW (R133). -/
  | decode (nw : Nat)
deriving DecidableEq, Repr

end Sys2Proof
end

