-- ==== Sys2Proof/WellFormed.lean ====
section
/-! DEFINITION. Which commands have a command word: an operand fits its field (30_encoding.md R133 to R135). -/

namespace Sys2Proof

/-- Every operand fits its field: BITLEN in 16 bits (R135), NW in 4 bits (R133). -/
abbrev Instr.WellFormed (i : Instr) : Prop :=
  match i with
  | .nop => True
  | .init => True
  | .calibrate => True
  | .read => True
  | .latchOffset => True
  | .crcCheck bitLen _ => bitLen < 2 ^ 16
  | .decode nw => nw < 2 ^ 4

end Sys2Proof
end

