-- ==== Sys2Proof/Decode.lean ====
section
/-! DEFINITION. The command word CMD32 (30_encoding.md R130): its decoder, total on all 32-bit words and
rejecting the illegal ones by name (R137, R138), and the encoder of R130. -/

namespace Sys2Proof

/-- Why a command word is illegal (R137). -/
inductive IllegalWord
  /-- OP is one of the reserved opcodes 0x7 to 0xF (R131). -/
  | reservedOpcode (op : BitVec 4)
  /-- RSV, bits [15:14], is not 0 (R132). -/
  | reservedBits
  /-- A field the opcode does not use is not 0 (R136). -/
  | unusedField
deriving DecidableEq, Repr

/-- OP, bits [3:0] (R130). -/
def opField (w : Word) : BitVec 4 := w.extractLsb' 0 4

/-- NW, bits [7:4] (R133). -/
def nwField (w : Word) : BitVec 4 := w.extractLsb' 4 4

/-- RCRC, bits [13:8] (R134). -/
def rcrcField (w : Word) : BitVec 6 := w.extractLsb' 8 6

/-- RSV, bits [15:14] (R132). -/
def rsvField (w : Word) : BitVec 2 := w.extractLsb' 14 2

/-- BITLEN, bits [31:16] (R135). -/
def bitLenField (w : Word) : BitVec 16 := w.extractLsb' 16 16

/-- The command an opcode stands for, with its operands zero-extended from their fields (R131, R139). -/
def byOpcode (w : Word) : Option Instr :=
  match (opField w).toNat with
  | 0 => some .nop
  | 1 => some .init
  | 2 => some .calibrate
  | 3 => some .read
  | 4 => some .latchOffset
  | 5 => some (.crcCheck (bitLenField w).toNat (rcrcField w))
  | 6 => some (.decode (nwField w).toNat)
  | _ => none

/-- The fields a command does not use are 0 in its word (R136). -/
def unusedFieldsZero (i : Instr) (w : Word) : Bool :=
  match i with
  | .nop => nwField w == 0 && rcrcField w == 0 && bitLenField w == 0
  | .init => nwField w == 0 && rcrcField w == 0 && bitLenField w == 0
  | .calibrate => nwField w == 0 && rcrcField w == 0 && bitLenField w == 0
  | .read => nwField w == 0 && rcrcField w == 0 && bitLenField w == 0
  | .latchOffset => nwField w == 0 && rcrcField w == 0 && bitLenField w == 0
  | .crcCheck _ _ => nwField w == 0
  | .decode _ => rcrcField w == 0 && bitLenField w == 0

/-- The whole decode (R138): read the opcode, then check the zero fields. Every word is one of the seven commands
or illegal (R137). -/
def decodeWord (w : Word) : Except IllegalWord Instr :=
  match byOpcode w with
  | none => .error (.reservedOpcode (opField w))
  | some i =>
    if rsvField w ≠ 0 then .error .reservedBits
    else if unusedFieldsZero i w then .ok i
    else .error .unusedField

/-- `enc(OP, NW, RCRC, BITLEN)` of R130. -/
def enc (op nw : BitVec 4) (rcrc : BitVec 6) (bitLen : BitVec 16) : Word :=
  bitLen ++ 0#2 ++ rcrc ++ nw ++ op

/-- The command word of a well-formed command (R130, R131, R149). -/
def encode (i : Instr) : Word :=
  match i with
  | .nop => enc 0 0 0 0
  | .init => enc 1 0 0 0
  | .calibrate => enc 2 0 0 0
  | .read => enc 3 0 0 0
  | .latchOffset => enc 4 0 0 0
  | .crcCheck bitLen rcrc => enc 5 0 rcrc (BitVec.ofNat 16 bitLen)
  | .decode nw => enc 6 (BitVec.ofNat 4 nw) 0 0

/-- The command word whose low `nbits` bits are those of `w` and whose other bits are 0. -/
def tableWord (nbits w : Nat) : Word := BitVec.ofNat 32 (w % 2 ^ nbits)

/-- The command the decoder reads from the opcode table's numbering of a word's bits. -/
def decodeTableWord (nbits w : Nat) : Option Instr :=
  match decodeWord (tableWord nbits w) with
  | .ok i => some i
  | .error _ => none

/-- A row of spec/opcode_table.json: the words `w` with `w AND mask = bits` are the row's. -/
structure OpcodeRow where
  mnemonic : String
  bits : Word
  mask : Word
deriving DecidableEq, Repr

/-- spec/opcode_table.json, row by row. -/
def opcodeTable : List OpcodeRow :=
  [ { mnemonic := "NOP", bits := 0x00000000, mask := 0xFFFFFFFF },
    { mnemonic := "INIT", bits := 0x00000001, mask := 0xFFFFFFFF },
    { mnemonic := "CALIBRATE", bits := 0x00000002, mask := 0xFFFFFFFF },
    { mnemonic := "READ", bits := 0x00000003, mask := 0xFFFFFFFF },
    { mnemonic := "LATCH_OFFSET", bits := 0x00000004, mask := 0xFFFFFFFF },
    { mnemonic := "CRC_CHECK", bits := 0x00000005, mask := 0x0000C0FF },
    { mnemonic := "DECODE", bits := 0x00000006, mask := 0xFFFFFF0F } ]

/-- The row of spec/opcode_table.json a command belongs to. -/
def Instr.row (i : Instr) : OpcodeRow :=
  match i with
  | .nop => { mnemonic := "NOP", bits := 0x00000000, mask := 0xFFFFFFFF }
  | .init => { mnemonic := "INIT", bits := 0x00000001, mask := 0xFFFFFFFF }
  | .calibrate => { mnemonic := "CALIBRATE", bits := 0x00000002, mask := 0xFFFFFFFF }
  | .read => { mnemonic := "READ", bits := 0x00000003, mask := 0xFFFFFFFF }
  | .latchOffset => { mnemonic := "LATCH_OFFSET", bits := 0x00000004, mask := 0xFFFFFFFF }
  | .crcCheck _ _ => { mnemonic := "CRC_CHECK", bits := 0x00000005, mask := 0x0000C0FF }
  | .decode _ => { mnemonic := "DECODE", bits := 0x00000006, mask := 0xFFFFFF0F }

end Sys2Proof
end

