-- ==== Sys2Proof/Machine/State.lean ====
section
/-! DEFINITION. The state of the core as plain data: every register and internal value of 10_state.md, grouped
as R30 groups the source's data model, the outputs the host sees, and the model's own inputs. -/

namespace Sys2Proof.Machine

/-- STATUS.MODE (R41, R350). -/
inductive TrackerMode
  | uncalibrated
  | calibrated
deriving DecidableEq, Repr

/-- The FSM states (R70). -/
inductive Fsm
  /-- No command. -/
  | idle
  /-- A one-step command, or the first step of any command, is in progress. -/
  | exec
  /-- A calibration trial transaction is running. -/
  | calRun
  /-- A trial's capture is being scanned. -/
  | calEval
  /-- A READ transaction is running. -/
  | frameRun
  /-- A READ capture is being assembled, validated, decoded and tracked. -/
  | frameProc
deriving DecidableEq, Repr

/-- The command result codes of STATUS.ERR (R400). Codes 10 to 15 are never written, so they have no name. -/
inductive ErrCode
  | none
  | noStartPattern
  | frameTooLong
  | badConfig
  | notInitialised
  | notCalibrated
  | sessionFatal
  | illegalCmd
  | noFrame
  | badLen
deriving DecidableEq, Repr

/-- CalibrationState (R30): CAL_DONE (R39), CAL_FAIL (R40), CAL_DELAY (R51), FRAME_LEN (R52). -/
structure Calibration where
  done : Bool
  fail : Bool
  delay : BitVec 16
  flen : BitVec 16
  nsa : BitVec 4
deriving DecidableEq, Repr

/-- DecodedFrame (R30): FRAME_HELD (R42), FCRC_OK (R43), ERR_BIT (R44), WARN_BIT (R45), MT (R53), ST (R54) and the
two check values of FRAME_CRC (R65). -/
structure HeldFrame where
  held : Bool
  crcOk : Bool
  errBit : Bool
  warnBit : Bool
  mt : Word
  st : Word
  rcvCrc : BitVec 6
  calcCrc : BitVec 6
deriving DecidableEq, Repr

/-- OffsetState (R30): MODE (R41), MT_OFF (R55), ST_OFF (R56). -/
structure Offsets where
  mode : TrackerMode
  mt : Word
  st : Word
deriving DecidableEq, Repr

/-- TrackerState (R30): RAWANG (R57), FILT (R58), PHERR (R59), POS (R60), SPEED (R61), ELEC (R63) and the
estimator's own state EST_STATE (R62). -/
structure Tracker where
  rawAng : Word
  filt : Word
  phErr : Word
  pos : BitVec 64
  speed : Word
  elec : Word
  est : EstState
deriving DecidableEq, Repr

/-- CRC_RES, the result of the last CRC_CHECK (R66). -/
structure CrcResult where
  ok : Bool
  calcCrc : BitVec 6
  rcvCrc : BitVec 6
deriving DecidableEq, Repr

/-- The sequencer counters (R73): seq.T, seq.k, seq.NT and cal.trial. -/
structure SeqCounters where
  t : BitVec 16
  k : BitVec 16
  nt : BitVec 4
  trial : BitVec 2
deriving DecidableEq, Repr

/-- The size port of the bus (R432): 8, 16 or 32 bits, or the reserved code 3. -/
inductive AccessSize
  | byte
  | half
  | word
  | reserved
deriving DecidableEq, Repr

/-- A host access as the bus ports carry it (R432): byte offset into the window, size, strobes, write data. -/
structure BusAccess where
  addr : BitVec 9
  size : AccessSize
  we : Bool
  re : Bool
  wdata : Word
deriving DecidableEq, Repr

/-- The bus outputs (R432): read data where the access read, and bus_err. -/
structure BusResponse where
  rdata : Option Word
  err : Bool
deriving DecidableEq, Repr

/-- What happens next in the one total order of host accesses and CORE steps (R106, R415). -/
inductive HostEvent
  /-- The core takes its step. -/
  | turn
  /-- The host makes one access. -/
  | access (a : BusAccess)
  /-- A clk edge with rst_n = 0, and the access the host presents in that cycle, if any (R450). -/
  | resetEdge (presented : Option BusAccess)
deriving DecidableEq, Repr

/-- The state of one instance of the core. -/
structure State where
  /-- PARAM: the design parameters (R32). -/
  param : Params
  /-- CFG0 (R33). -/
  cfg0 : Word
  /-- CFG1 (R34). -/
  cfg1 : Word
  /-- SCFG0 (R67). -/
  scfg0 : Word
  /-- SCFG1 (R67). -/
  scfg1 : Word
  /-- STATUS.INIT_DONE (R38). -/
  initDone : Bool
  /-- STATUS.ERR (R46). -/
  err : ErrCode
  /-- The FSM state, read through STATUS.STATE and STATUS.BUSY (R37, R47, R70). -/
  fsm : Fsm
  /-- STATUS.LAST_OP (R48). -/
  lastOp : BitVec 4
  /-- CUR_CMD (R75). -/
  curCmd : Word
  /-- IRQ_EN [3:0] (R49). -/
  irqEn : BitVec 4
  /-- IRQ_STATUS [3:0] (R50). -/
  irqStatus : BitVec 4
  /-- CalibrationState. -/
  cal : Calibration
  /-- DecodedFrame. -/
  frame : HeldFrame
  /-- OffsetState. -/
  off : Offsets
  /-- TrackerState. -/
  trk : Tracker
  /-- CRC_ERR_CNT (R64). -/
  crcErrCnt : Word
  /-- CRC_RES (R66). -/
  crcRes : CrcResult
  /-- RAW[0], RAW[1], ... (R69). -/
  raw : List Word
  /-- CRC_IN[0], CRC_IN[1], ... (R72). -/
  crcIn : List Word
  /-- The capture chain C as its chain words S[0], S[1], ... (R74). -/
  chain : List Word
  /-- The sequencer counters (R73). -/
  seq : SeqCounters
  /-- The MA output level (R76). -/
  ma : Bool
  /-- Output: the bus's response to the latest access (R432; log entry 9). -/
  lastResp : BusResponse
  /-- Output: pub_valid (R431), 1 when the latest step pulsed it. -/
  pubValid : Bool
  /-- The MODEL's own: the events HOST and the platform bring next (log entry 6). -/
  inbox : List HostEvent
  /-- The MODEL's own: the samples ENC drives next, before its free line (log entry 4). -/
  encBits : List Bool
  /-- The MODEL's own: clk cycles the core's steps have taken (log entry 2). -/
  clk : Nat
deriving DecidableEq, Repr

/-- Why a step could stop with a fault. No error stops the core (R407), so there is none. -/
inductive Fault
deriving DecidableEq, Repr

/-- Why a step could be refused. -/
inductive Refusal
  /-- Raised by an arm of `exec` whose instruction has no meaning yet (safe: the run stops). No arm raises it. -/
  | notModelled (mnemonic : String)
deriving DecidableEq, Repr

/-- CalibrationState after reset and INIT (R78, R79). -/
def Calibration.cleared : Calibration :=
  { done := false, fail := false, delay := 0, flen := 0, nsa := 0 }

/-- DecodedFrame after reset and INIT (R78, R79). -/
def HeldFrame.cleared : HeldFrame :=
  { held := false, crcOk := false, errBit := false, warnBit := false, mt := 0, st := 0, rcvCrc := 0, calcCrc := 0 }

/-- OffsetState after reset and INIT (R78, R79). -/
def Offsets.cleared : Offsets :=
  { mode := .uncalibrated, mt := 0, st := 0 }

/-- TrackerState after reset and INIT: all 0 and EST_INIT (R62, R78, R79). -/
def Tracker.cleared : Tracker :=
  { rawAng := 0, filt := 0, phErr := 0, pos := 0, speed := 0, elec := 0, est := Config.estInit }

/-- The instance with parameters `p` right after reset (R78, R450), no event pending. -/
def State.resetOf (p : Params) : State :=
  { param := p
    cfg0 := 0, cfg1 := 0, scfg0 := 0, scfg1 := 0
    initDone := false, err := .none, fsm := .idle, lastOp := 0, curCmd := 0
    irqEn := 0, irqStatus := 0
    cal := .cleared, frame := .cleared, off := .cleared, trk := .cleared
    crcErrCnt := 0
    crcRes := { ok := false, calcCrc := 0, rcvCrc := 0 }
    raw := List.replicate p.nsMax 0
    crcIn := List.replicate p.nsMax 0
    chain := List.replicate p.nsMax 0
    seq := { t := 0, k := 0, nt := 0, trial := 0 }
    ma := true
    lastResp := { rdata := none, err := false }
    pubValid := false
    inbox := [], encBits := [], clk := 0 }

/-- The machine right after reset: the instance of log entry 1. -/
def State.reset : State := State.resetOf Params.testVectors

end Sys2Proof.Machine
end

