-- ==== Sys2Proof/Machine/Bits.lean ====
section
/-! DEFINITION. The arithmetic primitives of 00_scope.md R16, on exact numbers, narrowed where the spec narrows. -/

namespace Sys2Proof.Machine

/-- `mask_W(v) = v mod 2^W`; 0 for W = 0 (R16). -/
def mask (w v : Nat) : Nat := v % 2 ^ w

/-- `wrapsub_W(a, b) = (a - b) mod 2^W`, computed on integers (R16). -/
def wrapSub (w a b : Nat) : Nat := (((a : Int) - (b : Int)) % (2 ^ w : Nat)).toNat

/-- `tosigned_W(v)`: a W-bit pattern read as two's complement (R16). -/
def toSigned (w v : Nat) : Int :=
  if v.testBit (w - 1) then (v : Int) - (2 ^ w : Nat) else (v : Int)

/-- `zext_32(v)` (R16). -/
def zext32 (v : Nat) : Word := BitVec.ofNat 32 v

/-- `sext_32(v)` of a W-bit pattern `v` (R16). -/
def sext32 (w v : Nat) : Word := BitVec.ofInt 32 (toSigned w v)

/-- The W-bit two's-complement pattern of an integer. -/
def patternOf (w : Nat) (x : Int) : Nat := (x % (2 ^ w : Nat)).toNat

/-- `ceil(a/b)` (R16). -/
def ceilDiv (a b : Nat) : Nat := (a + b - 1) / b

/-- Word `i` of a register array; 0 outside it (R103). -/
def wordAt (ws : List Word) (i : Nat) : Word := ws.getD i 0

end Sys2Proof.Machine
end

