-- ==== Sys2Proof/Machine/Operands.lean ====
section
/-! DEFINITION. What the commands read: the session's configuration fields (10_state.md R67), the legality check
of INIT (41_session.md R205), the frame word (43_receive.md R264) and the CRC_IN bit window (44_crc.md R300). -/

namespace Sys2Proof.Machine

/-- The writable bits of CFG0: MT_W, ST_W and PP (R33). -/
def cfg0Writable : Word := 0x00FF3F3F

/-- MT_W, bits [5:0] of CFG0 and SCFG0 (R33). -/
def mtWidthField (w : Word) : Nat := (w.extractLsb' 0 6).toNat

/-- ST_W, bits [13:8] of CFG0 and SCFG0 (R33). -/
def stWidthField (w : Word) : Nat := (w.extractLsb' 8 6).toNat

/-- PP, bits [23:16] of CFG0 and SCFG0 (R33). -/
def polePairsField (w : Word) : Nat := (w.extractLsb' 16 8).toNat

/-- BAUD_DIV, bits [15:0] of CFG1 and SCFG1 (R34). -/
def baudDivField (w : Word) : Nat := (w.extractLsb' 0 16).toNat

/-- CAL_LEN, bits [31:16] of CFG1 and SCFG1 (R34). -/
def calLenField (w : Word) : Nat := (w.extractLsb' 16 16).toNat

/-- N, the session's multi-turn width (R67). -/
def State.mtWidth (s : State) : Nat := mtWidthField s.scfg0

/-- M, the session's single-turn width (R67). -/
def State.stWidth (s : State) : Nat := stWidthField s.scfg0

/-- PP, the session's pole-pair count (R67). -/
def State.polePairs (s : State) : Nat := polePairsField s.scfg0

/-- BAUD_DIV of the session (R67). -/
def State.baudDiv (s : State) : Nat := baudDivField s.scfg1

/-- CAL_LEN of the session (R67). -/
def State.calLen (s : State) : Nat := calLenField s.scfg1

/-- CAP_BITS of the instance (R7). -/
def State.capBits (s : State) : Nat := s.param.capBits

/-- The fixed ticks of a frame beside delay and widths: ack, start, CDS, error, warning and the 6 check bits
(R13, R236). -/
def frameOverhead : Nat := 3 + 1 + 1 + 6

/-- `legal_config` of R205, on the values CFG0 and CFG1 hold. -/
def legalConfig (p : Params) (cfg0 cfg1 : Word) : Bool :=
  decide (mtWidthField cfg0 ≤ 32) &&
  decide (1 ≤ stWidthField cfg0 ∧ stWidthField cfg0 ≤ 32) &&
  decide (1 ≤ polePairsField cfg0 ∧ polePairsField cfg0 ≤ 255) &&
  decide (p.delayMax ≤ calLenField cfg1 ∧ calLenField cfg1 ≤ p.capBits) &&
  decide (mtWidthField cfg0 + stWidthField cfg0 + frameOverhead ≤ p.capBits)

/-- `frame_word(NW) = {RAW[0], RAW[1], ..., RAW[NW-1]}` as one unsigned value (R145, R264). -/
def frameWord (nw : Nat) (raw : List Word) : Nat :=
  (List.range nw).foldl (fun f j => f * 2 ^ 32 + (wordAt raw j).toNat) 0

/-- `crc_in_bits(L)`: protocol bit t, oldest first, is CRC_IN[t div 32] bit t mod 32 (R146, R300). -/
def crcInBits (crcIn : List Word) (l : Nat) : List Bool :=
  (List.range l).map fun t => (wordAt crcIn (t / 32)).getLsbD (t % 32)

end Sys2Proof.Machine
end

