-- ==== Sys2Proof/Machine/Flags.lean ====
section
/-! DEFINITION. The words the host reads status in: STATUS (10_state.md R36 to R48), IRQ_STATUS and the `irq` line
(R49, R50, 60_exceptions.md R414), and the packed registers FRAME_LEN, FRAME_CRC, CRC_RES and PARAM. -/

namespace Sys2Proof.Machine

/-- IRQ bit 0, DONE (R410). -/
def irqDone : BitVec 4 := 0b0001

/-- IRQ bit 1, ERR (R411). -/
def irqErr : BitVec 4 := 0b0010

/-- IRQ bit 2, CRCFAIL (R412). -/
def irqCrcFail : BitVec 4 := 0b0100

/-- IRQ bit 3, OVR (R413). -/
def irqOvr : BitVec 4 := 0b1000

/-- The events of a completion: DONE always, ERR when the code is not NONE (R202, R410, R411). -/
def irqOfCompletion (code : ErrCode) : BitVec 4 :=
  if code = .none then irqDone else irqDone ||| irqErr

/-- The number of a result code (R400). -/
def ErrCode.code (e : ErrCode) : BitVec 4 :=
  match e with
  | .none => 0
  | .noStartPattern => 1
  | .frameTooLong => 2
  | .badConfig => 3
  | .notInitialised => 4
  | .notCalibrated => 5
  | .sessionFatal => 6
  | .illegalCmd => 7
  | .noFrame => 8
  | .badLen => 9

/-- The number of an FSM state in STATUS.STATE (R47). -/
def Fsm.code (f : Fsm) : BitVec 4 :=
  match f with
  | .idle => 0
  | .exec => 1
  | .calRun => 2
  | .calEval => 3
  | .frameRun => 4
  | .frameProc => 5

/-- STATUS.MODE as a bit (R41). -/
def TrackerMode.bit (m : TrackerMode) : Bool :=
  match m with
  | .uncalibrated => false
  | .calibrated => true

/-- STATUS.BUSY: 1 exactly when the FSM is not in IDLE (R37, R70). -/
def State.busy (s : State) : Bool := s.fsm != .idle

/-- STATUS (R36). -/
def statusWord (s : State) : Word :=
  0#8 ++ s.lastOp ++ s.fsm.code ++ s.err.code ++ 0#3 ++
    BitVec.ofBool s.frame.warnBit ++ BitVec.ofBool s.frame.errBit ++ BitVec.ofBool s.frame.crcOk ++
    BitVec.ofBool s.frame.held ++ BitVec.ofBool s.off.mode.bit ++ BitVec.ofBool s.cal.fail ++
    BitVec.ofBool s.cal.done ++ BitVec.ofBool s.initDone ++ BitVec.ofBool s.busy

/-- PARAM (R32). -/
def paramWord (p : Params) : Word :=
  BitVec.ofNat 16 p.delayMax ++ 0#5 ++ BitVec.ofNat 6 p.spdW ++
    BitVec.ofBool (p.chainOrder == .lowFirst) ++ BitVec.ofNat 4 p.nsMax

/-- FRAME_LEN (R52). -/
def frameLenWord (c : Calibration) : Word := 0#12 ++ c.nsa ++ c.flen

/-- FRAME_CRC (R65). -/
def frameCrcWord (f : HeldFrame) : Word := 0#18 ++ f.calcCrc ++ 0#2 ++ f.rcvCrc

/-- CRC_RES (R66). -/
def crcResWord (r : CrcResult) : Word := 0#10 ++ r.rcvCrc ++ 0#2 ++ r.calcCrc ++ 0#7 ++ BitVec.ofBool r.ok

/-- The `irq` output: some pending source is enabled (R414). -/
def irqOut (s : State) : Bool := s.irqStatus &&& s.irqEn != 0

/-- pub_elec always shows ELEC (R431). -/
def pubElec (s : State) : Word := s.trk.elec

/-- pub_speed always shows SPEED (R431). -/
def pubSpeed (s : State) : Word := s.trk.speed

end Sys2Proof.Machine
end

