-- ==== Sys2Proof/Machine/Ops.lean ====
section
/-! DEFINITION. The operations the commands share: completion, with and without an error (41_session.md R202,
60_exceptions.md R404), the session reset (10_state.md R79), the trigger and the tick of the sequencer
(40_sequencer.md R174 to R176). -/

namespace Sys2Proof.Machine

/-- The outcome of a step of this machine. -/
abbrev StepOutcome := Host.Outcome State Fault Refusal

/-- `finish(code)` (R202): the result code, the completion events, and IDLE. -/
def finish (code : ErrCode) (s : State) : State :=
  { s with
    err := code
    irqStatus := s.irqStatus ||| irqOfCompletion code
    fsm := .idle }

/-- `raise CmdError(code)` (R20, R404): the command's one way to end in an error. The state given is the one from
before the command's writes, so they are discarded; a write the rule lists as made before the raise is already in it. -/
def raiseError (code : ErrCode) (s : State) : StepOutcome := .next (finish code s)

/-- `complete()` (R20, R202): the command's writes and its completion take effect together (R17). -/
def complete (s : State) : StepOutcome := .next (finish .none s)

/-- The host's acknowledgement of an interrupt: a 1 written to a pending bit clears it (R50, R416). -/
def ackIrq (ones : BitVec 4) (s : State) : State :=
  { s with irqStatus := s.irqStatus &&& ~~~ones }

/-- An accepted CMD write (R200): the word, its opcode, and EXEC. -/
def acceptCmd (w : Word) (s : State) : State :=
  { s with
    curCmd := w
    lastOp := opField w
    fsm := .exec }

/-- `session_reset()` (R79). -/
def sessionReset (s : State) : State :=
  { s with
    cal := .cleared
    frame := .cleared
    off := .cleared
    trk := .cleared
    crcErrCnt := 0 }

/-- One shift of the chain words S[0], S[1], ... by one bit, `b` entering at the bottom: C shifts left and its top
bit falls off (R174). -/
def shiftIn (b : Bool) (ws : List Word) : List Word :=
  match ws with
  | [] => []
  | w :: rest => (w <<< 1 ||| (BitVec.ofBool b).setWidth 32) :: shiftIn w.msb rest

/-- Bit `j` of the chain C: bit j mod 32 of S[j div 32] (R74). -/
def chainBit (ws : List Word) (j : Nat) : Bool := (wordAt ws (j / 32)).getLsbD (j % 32)

/-- The chain C as one number, `{S[NS_MAX-1], ..., S[1], S[0]}` (R74). -/
def chainValue (ws : List Word) : Nat :=
  match ws with
  | [] => 0
  | w :: rest => w.toNat + 2 ^ 32 * chainValue rest

/-- `start_transaction(T)` (R175). -/
def startTransaction (t : BitVec 16) (s : State) : State :=
  { s with
    chain := List.replicate s.param.nsMax 0
    seq := { s.seq with t := t, k := 0, nt := BitVec.ofNat 4 (ceilDiv t.toNat 32) } }

/-- The clk cycles one tick lasts (R171). -/
def tickCycles (baudDiv : Nat) : Nat := 2 * (baudDiv + 1)

/-- MA in clk cycle `j` of a tick, from 0: low in the first half, high in the second (R173). -/
def maInTick (baudDiv j : Nat) : Bool := decide (baudDiv + 1 ≤ j)

/-- `sample()`: the SLO level at the tick's sampling instant, the last clk cycle of the tick, a draw of ENC
(R19, R173). ENC's pending samples come first, then its free line (log entry 4). -/
def sample (s : State) : Bool := s.encBits.headD (Config.sloLine s.clk)

/-- `tick()` (R174), with MA at its level in the tick's last clk cycle (R173). -/
def tick (s : State) : State :=
  if s.seq.k < s.seq.t then
    { s with
      chain := shiftIn (sample s) s.chain
      seq := { s.seq with k := s.seq.k + 1 }
      encBits := s.encBits.tail
      ma := maInTick s.baudDiv (tickCycles s.baudDiv - 1) }
  else s

/-- One step of a running transaction: a tick, and the caller's evaluation state once seq.k reaches seq.T
(R176, R230, R260). -/
def runTransaction (after : Fsm) (s : State) : State :=
  let s' := tick s
  if s'.seq.k = s'.seq.t then { s' with fsm := after } else s'

end Sys2Proof.Machine
end

