-- ==== Sys2Proof/Machine/Session.lean ====
section
/-! DEFINITION. NOP, INIT and the illegal words (41_session.md R204 to R211). -/

namespace Sys2Proof.Machine

/-- NOP does nothing but complete (R210). -/
def execNop (s : State) : StepOutcome := complete s

/-- The writes of a successful INIT (R204, R207). -/
def openSession (s : State) : State :=
  { sessionReset s with
    scfg0 := s.cfg0
    scfg1 := s.cfg1
    initDone := true }

/-- INIT (R204): BAD_CONFIG changes nothing but the completion writes (R206). -/
def execInit (s : State) : StepOutcome :=
  if legalConfig s.param s.cfg0 s.cfg1 then complete (openSession s)
  else raiseError .badConfig s

/-- An illegal word completes with ILLEGAL_CMD and no other effect (R137, R211). -/
def illegalWord (s : State) : StepOutcome := raiseError .illegalCmd s

end Sys2Proof.Machine
end

