-- ==== Sys2Proof/Machine/Crc.lean ====
section
/-! DEFINITION. The CRC-6 validator and CRC_CHECK (44_crc.md R290 to R306). -/

namespace Sys2Proof.Machine

/-- One bit through the running register (R291): generator x^6 + x + 1, MSB first. -/
def crcStep (c : BitVec 6) (b : Bool) : BitVec 6 :=
  let fb := c.msb ^^ b
  if fb then (c <<< 1) ^^^ 0b000011 else c <<< 1

/-- `crc6_reg(b, L)`: the register after the bits, oldest first, from 0 (R291). -/
def crc6Reg (bits : List Bool) : BitVec 6 := bits.foldl crcStep 0

/-- `crc6(b, L)`: the inverted register (R292). -/
def crc6 (bits : List Bool) : BitVec 6 := ~~~crc6Reg bits

/-- `validate(b, L, rcv)`: no bits are trivially consistent (R294). -/
def validate (bits : List Bool) (rcv : BitVec 6) : Bool :=
  if bits.length = 0 then true else crc6 bits == rcv

/-- `bitrev32`: bit j goes to bit 31 - j (R300). -/
def bitrev32 (w : Word) : Word := BitVec.ofFnLE fun j : Fin 32 => w.getLsbD (31 - j)

/-- The `n` low bits of a word, emitted from bit n-1 down (R300). -/
def emitDown (n : Nat) (v : Word) : List Bool := (List.range n).map fun j => v.getLsbD (n - 1 - j)

/-- The word form of `crc_in_bits(L)` (R300, R301): full words reversed, the last word reversed and right-aligned by
32 - r. `crcInBits` is the spec's other form of the same sequence. -/
def crcInBitsByWords (crcIn : List Word) (l : Nat) : List Bool :=
  ((List.range (l / 32)).flatMap fun k => emitDown 32 (bitrev32 (wordAt crcIn k))) ++
    (if l % 32 = 0 then []
     else emitDown (l % 32) (bitrev32 (wordAt crcIn (l / 32)) >>> (32 - l % 32)))

/-- The writes of CRC_CHECK (R305). -/
def storeCrcResult (l : Nat) (rcv : BitVec 6) (s : State) : State :=
  let bits := crcInBits s.crcIn l
  { s with crcRes := { ok := validate bits rcv, calcCrc := crc6 bits, rcvCrc := rcv } }

/-- CRC_CHECK (R305): BAD_LEN above CAP_BITS, else the verdict; a mismatch is no error. -/
def execCrcCheck (bitLen : Nat) (rcrc : BitVec 6) (s : State) : StepOutcome :=
  if bitLen > s.capBits then raiseError .badLen s
  else complete (storeCrcResult bitLen rcrc s)

end Sys2Proof.Machine
end

