-- ==== Sys2Proof/Machine/Extract.lean ====
section
/-! DEFINITION. Frame validation, the position-word extractor and DECODE (44_crc.md R295, 45_decode.md R320 to
R326). -/

namespace Sys2Proof.Machine

/-- The payload of F, oldest bit first: b[t] = F[N+M+7-t] for t < N+M+2 (R144, R295). -/
def payloadBits (n m f : Nat) : List Bool :=
  (List.range (n + m + 2)).map fun t => f.testBit (n + m + 7 - t)

/-- `validate_frame(F)` (R295): both check values and the verdict of the held frame. -/
def validateFrame (f : Nat) (s : State) : State :=
  let rcv := BitVec.ofNat 6 f
  let check := crc6 (payloadBits s.mtWidth s.stWidth f)
  { s with frame := { s.frame with rcvCrc := rcv, calcCrc := check, crcOk := check == rcv } }

/-- `decode_frame(F)` (R321): the fields taken from bit 0 upward, each masked to its width (R322). -/
def decodeFrame (f : Nat) (s : State) : State :=
  let x := f >>> 6
  let warn := x.testBit 0
  let x := x >>> 1
  let err := x.testBit 0
  let x := x >>> 1
  let st := mask s.stWidth x
  let x := x >>> s.stWidth
  let mt := mask s.mtWidth x
  { s with
    frame := { s.frame with mt := zext32 mt, st := zext32 st, errBit := err, warnBit := warn, held := true } }

/-- DECODE (R325): the preconditions in the order of R405, then RAW[0..NW-1] validated and decoded. -/
def execDecode (nw : Nat) (s : State) : StepOutcome :=
  if s.initDone = false then raiseError .notInitialised s
  else if nw = 0 ∨ nw > s.param.nsMax ∨ 32 * nw < s.mtWidth + s.stWidth + 8 then raiseError .badLen s
  else
    let f := frameWord nw s.raw
    complete (decodeFrame f (validateFrame f s))

end Sys2Proof.Machine
end

