-- ==== Sys2Proof/Machine/Tracker.lean ====
section
/-! DEFINITION. The angle tracking state: the tracker update, publishing and LATCH_OFFSET (46_tracker.md R350 to
R367). -/

namespace Sys2Proof.Machine

/-- An estimator: the functions EST and SPEEDOF of R12. -/
structure Estimator where
  est : Nat → EstState → Nat → Int → EstState × Nat
  speedOf : EstState → Int

/-- The instance's estimator, a parameter nothing is assumed of (R12, R430; log entry 3). -/
def estimator : Estimator := { est := Config.est, speedOf := Config.speedOf }

/-- Step 1, the raw angle (R352): what `est_raw` carries (R430). -/
def rawAngle (s : State) : Nat := wrapSub s.stWidth s.frame.st.toNat s.off.st.toNat

/-- The previous phase error (R351): what `est_e` carries (R430). -/
def prevPhaseError (s : State) : Int := toSigned s.stWidth (mask s.stWidth s.trk.phErr.toNat)

/-- Step 2, the estimator's answer: the new state and the M bits of `est_filt` (R353, R430). -/
def estimate (e : Estimator) (s : State) : EstState × Nat :=
  let (est2, filt) := e.est s.stWidth s.trk.est (rawAngle s) (prevPhaseError s)
  (est2, mask s.stWidth filt)

/-- Step 5, the absolute position (R356). -/
def position (s : State) : Nat :=
  wrapSub s.mtWidth s.frame.mt.toNat s.off.mt.toNat * 2 ^ s.stWidth + rawAngle s

/-- `tracker_update()` (R351 to R358) with a given estimator, publishing included. -/
def trackerUpdateWith (e : Estimator) (s : State) : State :=
  let raw := rawAngle s
  let (est2, filt) := estimate e s
  { s with
    trk := {
      rawAng := zext32 raw
      filt := zext32 filt
      phErr := sext32 s.stWidth (wrapSub s.stWidth raw filt)
      pos := BitVec.ofNat 64 (position s)
      speed := sext32 s.param.spdW (patternOf s.param.spdW (e.speedOf est2))
      elec := zext32 (mask s.stWidth (filt * s.polePairs))
      est := est2 }
    pubValid := true }

/-- `tracker_update()` with the instance's estimator. -/
def trackerUpdate (s : State) : State := trackerUpdateWith estimator s

/-- The writes of LATCH_OFFSET (R360, R362). -/
def latchOffsets (s : State) : State :=
  { s with off := { mode := .calibrated, mt := s.frame.mt, st := s.frame.st } }

/-- LATCH_OFFSET (R360, R361): it needs a held frame whose CRC matched. -/
def execLatchOffset (s : State) : StepOutcome :=
  if s.initDone = false then raiseError .notInitialised s
  else if s.frame.held = false ∨ s.frame.crcOk = false then raiseError .noFrame s
  else complete (latchOffsets s)

end Sys2Proof.Machine
end

