-- ==== Sys2Proof/Machine/Receive.lean ====
section
/-! DEFINITION. READ: its EXEC step, its transaction steps, assembly and the processing of a captured frame
(43_receive.md R260 to R268). -/

namespace Sys2Proof.Machine

/-- READ, the EXEC step (R260, R261): the preconditions in the order of R405, then one transaction. -/
def execRead (s : State) : StepOutcome :=
  if s.initDone = false then raiseError .notInitialised s
  else if s.cal.fail = true then raiseError .sessionFatal s
  else if s.cal.done = false then raiseError .notCalibrated s
  else .next { startTransaction s.cal.flen s with fsm := .frameRun }

/-- FRAME_RUN, one tick (R260). -/
def frameRunStep (s : State) : State := runTransaction .frameProc s

/-- `assemble()` (R263): the chain words in descending order into RAW, and 0 above the frame. -/
def assemble (s : State) : State :=
  let ns := s.cal.nsa.toNat
  { s with raw := (List.range s.param.nsMax).map fun j => if j < ns then wordAt s.chain (ns - 1 - j) else 0 }

/-- A CRC mismatch is counted and reported, and nothing else (R260, R266). -/
def countCrcFailure (s : State) : State :=
  { s with
    crcErrCnt := s.crcErrCnt + 1
    irqStatus := s.irqStatus ||| irqCrcFail }

/-- FRAME_PROC up to the verdict: assemble, validate, decode (R260). -/
def receiveFrame (s : State) : State :=
  let s1 := assemble s
  let f := frameWord s1.cal.nsa.toNat s1.raw
  decodeFrame f (validateFrame f s1)

/-- FRAME_PROC (R260) with a given estimator: the tracker runs only when the CRC matched (R359). -/
def frameProcWith (e : Estimator) (s : State) : State :=
  let s2 := receiveFrame s
  finish .none (if s2.frame.crcOk then trackerUpdateWith e s2 else countCrcFailure s2)

/-- FRAME_PROC with the instance's estimator. -/
def frameProcStep (s : State) : State := frameProcWith estimator s

end Sys2Proof.Machine
end

