-- ==== Sys2Proof/Machine/Bus.lean ====
section
/-! DEFINITION. The register window (20_memory.md R100 to R108), host accesses on the bus (60_exceptions.md R432)
and the reset edge (70_reset_and_hazards.md R450, R451). -/

namespace Sys2Proof.Machine

/-- The registers of the window (R101). -/
inductive WinReg
  | param
  | cfg0
  | cfg1
  | cmd
  | status
  | irqEn
  | irqStatus
  | calDelay
  | frameLen
  | mt
  | st
  | mtOff
  | stOff
  | rawAng
  | filt
  | phErr
  | posLo
  | posHi
  | speed
  | elec
  | crcErrCnt
  | frameCrc
  | crcRes
  | scfg0
  | scfg1
  | cap (i : Nat)
  | raw (i : Nat)
  | crcIn (i : Nat)
  /-- An offset R101 does not assign: it reads 0 and ignores writes (R103). -/
  | unassigned
deriving DecidableEq, Repr

/-- The registers below the arrays, in the order of their offsets 0x000, 0x004, ... (R101). -/
def scalarRegs : List WinReg :=
  [ .param, .cfg0, .cfg1, .cmd, .status, .irqEn, .irqStatus, .calDelay, .frameLen, .mt, .st, .mtOff, .stOff,
    .rawAng, .filt, .phErr, .posLo, .posHi, .speed, .elec, .crcErrCnt, .frameCrc, .crcRes, .scfg0, .scfg1 ]

/-- The register at an aligned byte offset (R101, R103, R432). -/
def regAt (nsMax off : Nat) : WinReg :=
  if off < 0x080 then scalarRegs.getD (off / 4) .unassigned
  else if off < 0x0C0 then
    if (off - 0x080) / 4 < nsMax then .cap ((off - 0x080) / 4) else .unassigned
  else if off < 0x100 then
    if (off - 0x0C0) / 4 < nsMax then .raw ((off - 0x0C0) / 4) else .unassigned
  else if (off - 0x100) / 4 < nsMax then .crcIn ((off - 0x100) / 4)
  else .unassigned

/-- The chain word CAP[i] shows (R178). -/
def capView (p : Params) (nt : Nat) (chain : List Word) (i : Nat) : Word :=
  match p.chainOrder with
  | .highFirst => wordAt chain i
  | .lowFirst => if i < nt then wordAt chain (nt - 1 - i) else wordAt chain i

/-- A transaction is running, so its chain is shifting (R68, R460). -/
def State.capturing (s : State) : Bool := s.fsm == .calRun || s.fsm == .frameRun

/-- The value of a register (R31 to R72). Reads have no side effects (R107); a CAP read while the chain shifts
returns any value (R460; log entry 5). -/
def readReg (r : WinReg) (s : State) : Word :=
  match r with
  | .param => paramWord s.param
  | .cfg0 => s.cfg0
  | .cfg1 => s.cfg1
  | .cmd => 0
  | .status => statusWord s
  | .irqEn => s.irqEn.setWidth 32
  | .irqStatus => s.irqStatus.setWidth 32
  | .calDelay => s.cal.delay.setWidth 32
  | .frameLen => frameLenWord s.cal
  | .mt => s.frame.mt
  | .st => s.frame.st
  | .mtOff => s.off.mt
  | .stOff => s.off.st
  | .rawAng => s.trk.rawAng
  | .filt => s.trk.filt
  | .phErr => s.trk.phErr
  | .posLo => s.trk.pos.extractLsb' 0 32
  | .posHi => s.trk.pos.extractLsb' 32 32
  | .speed => s.trk.speed
  | .elec => s.trk.elec
  | .crcErrCnt => s.crcErrCnt
  | .frameCrc => frameCrcWord s.frame
  | .crcRes => crcResWord s.crcRes
  | .scfg0 => s.scfg0
  | .scfg1 => s.scfg1
  | .cap i => if s.capturing then Config.capInFlight i s.clk else capView s.param s.seq.nt.toNat s.chain i
  | .raw i => wordAt s.raw i
  | .crcIn i => wordAt s.crcIn i
  | .unassigned => 0

/-- What a 32-bit read at an aligned byte offset returns (R104). -/
def readOffset (off : Nat) (s : State) : Word := readReg (regAt s.param.nsMax off) s

/-- A CMD write (R200): accepted in IDLE, else dropped with OVR. -/
def writeCmd (w : Word) (s : State) : State :=
  if s.fsm = .idle then acceptCmd w s
  else { s with irqStatus := s.irqStatus ||| irqOvr }

/-- A host write of a register (R103, R104, R108). Writes to read-only registers and to unassigned offsets are
ignored, and so are writes to reserved bits; a RAW write while BUSY is ignored (R69). -/
def writeReg (r : WinReg) (v : Word) (s : State) : State :=
  match r with
  | .cfg0 => { s with cfg0 := v &&& cfg0Writable }
  | .cfg1 => { s with cfg1 := v }
  | .cmd => writeCmd v s
  | .irqEn => { s with irqEn := v.extractLsb' 0 4 }
  | .irqStatus => ackIrq (v.extractLsb' 0 4) s
  | .raw i => if s.busy then s else { s with raw := s.raw.set i v }
  | .crcIn i => { s with crcIn := s.crcIn.set i v }
  | .param => s
  | .status => s
  | .calDelay => s
  | .frameLen => s
  | .mt => s
  | .st => s
  | .mtOff => s
  | .stOff => s
  | .rawAng => s
  | .filt => s
  | .phErr => s
  | .posLo => s
  | .posHi => s
  | .speed => s
  | .elec => s
  | .crcErrCnt => s
  | .frameCrc => s
  | .crcRes => s
  | .scfg0 => s
  | .scfg1 => s
  | .cap _ => s
  | .unassigned => s

/-- The access gets bus_err: both strobes at once, or a size or an alignment the window does not support
(R104, R105, R432). -/
def BusAccess.refusedByBus (a : BusAccess) : Bool :=
  (a.we && a.re) || ((a.we || a.re) && (a.size != .word || a.addr.toNat % 4 != 0))

/-- The bus's response to an access that gets bus_err: a read returns 0 (R105). -/
def refusedResponse (a : BusAccess) : BusResponse :=
  { rdata := if a.re then some 0 else none, err := true }

/-- One host access (R104 to R108, R432). With neither strobe there is no access. -/
def busAccess (a : BusAccess) (s : State) : State :=
  if a.refusedByBus then { s with lastResp := refusedResponse a }
  else if a.we then
    { writeReg (regAt s.param.nsMax a.addr.toNat) a.wdata s with lastResp := { rdata := none, err := false } }
  else if a.re then
    { s with lastResp := { rdata := some (readOffset a.addr.toNat s), err := false } }
  else { s with lastResp := { rdata := none, err := false } }

/-- The bus's response while rst_n = 0: a read returns 0, without bus_err (R450). -/
def resetResponse (presented : Option BusAccess) : BusResponse :=
  { rdata := if presented.any (·.re) then some 0 else none, err := false }

/-- A clk edge with rst_n = 0 (R450 to R452): every register and internal value takes its reset value, the design
parameters stay, and the access presented is ignored. ENC, HOST and the passing of time are not the core's to reset. -/
def resetEdge (presented : Option BusAccess) (s : State) : State :=
  { State.resetOf s.param with
    lastResp := resetResponse presented
    inbox := s.inbox
    encBits := s.encBits
    clk := s.clk + 1 }

end Sys2Proof.Machine
end

