-- ==== Sys2Proof/Machine/Calibrate.lean ====
section
/-! DEFINITION. CALIBRATE: its EXEC step, its transaction steps, and the judgement of a trial (42_calibrate.md R230
to R242). -/

namespace Sys2Proof.Machine

/-- The calibration writes of `cal_fail` (R230, R237), which the raise keeps. -/
def markCalFailed (s : State) : State :=
  { s with cal := { s.cal with done := false, fail := true } }

/-- CALIBRATE, the EXEC step (R230): the preconditions in the order of R405, then the first trial. -/
def execCalibrate (s : State) : StepOutcome :=
  if s.initDone = false then raiseError .notInitialised s
  else if s.cal.fail = true then raiseError .sessionFatal s
  else
    let s' := startTransaction (BitVec.ofNat 16 s.calLen) s
    .next { s' with seq := { s'.seq with trial := 1 }, fsm := .calRun }

/-- CAL_RUN, one tick (R230). -/
def calRunStep (s : State) : State := runTransaction .calEval s

/-- `scan_delay(C, L)` (R233): the index of the first sample that is 0, among the first DELAY_MAX. -/
def scanDelay (delayMax l : Nat) (chain : List Word) : Option Nat :=
  (List.range delayMax).find? fun i => !chainBit chain (l - 1 - i)

/-- The frame length for a delay of `d` ticks (R236). -/
def frameLength (d n m : Nat) : Nat := d + 3 + n + m + 1 + 1 + 6

/-- The writes of a successful calibration (R230, R235, R236). -/
def storeCalibration (d : Nat) (s : State) : State :=
  let fl := frameLength d s.mtWidth s.stWidth
  { s with
    cal := { s.cal with
      delay := BitVec.ofNat 16 d
      flen := BitVec.ofNat 16 fl
      nsa := BitVec.ofNat 4 (ceilDiv fl 32)
      done := true } }

/-- CAL_EVAL (R230): judge the trial alone (R234); success, a second trial, or a failure fatal for the session
(R237). -/
def calEvalStep (s : State) : State :=
  match scanDelay s.param.delayMax s.calLen s.chain with
  | some d =>
    if frameLength d s.mtWidth s.stWidth > s.capBits then finish .frameTooLong (markCalFailed s)
    else finish .none (storeCalibration d s)
  | none =>
    if s.seq.trial = 1 then
      let s' := startTransaction (BitVec.ofNat 16 s.calLen) s
      { s' with seq := { s'.seq with trial := 2 }, fsm := .calRun }
    else finish .noStartPattern (markCalFailed s)

end Sys2Proof.Machine
end

