-- ==== Sys2Proof/Machine/Dispatch.lean ====
section
/-! DEFINITION. The meaning of each command in its EXEC step (41_session.md R201). -/

namespace Sys2Proof.Machine

def exec (i : Instr) (s : State) : Host.Outcome State Fault Refusal :=
  match i with
  | .nop => Sys2Proof.Machine.execNop s
  | .init => Sys2Proof.Machine.execInit s
  | .calibrate => Sys2Proof.Machine.execCalibrate s
  | .read => Sys2Proof.Machine.execRead s
  | .latchOffset => Sys2Proof.Machine.execLatchOffset s
  | .crcCheck bitLen rcrc => Sys2Proof.Machine.execCrcCheck bitLen rcrc s
  | .decode nw => Sys2Proof.Machine.execDecode nw s

end Sys2Proof.Machine
end

