-- ==== Sys2Proof/Machine/Engine.lean ====
section
/-! DEFINITION. The command engine: one CORE step in each FSM state (00_scope.md R15, 10_state.md R70), its clk
cycles (70_reset_and_hazards.md R470), and one event of the host. -/

namespace Sys2Proof.Machine

/-- The clk cycles of the next CORE step: a tick's in CAL_RUN and FRAME_RUN, else 1 (R171, R470). -/
def stepCycles (s : State) : Nat :=
  if s.capturing then tickCycles s.baudDiv else 1

/-- What every CORE step does beside its own work: its clk cycles pass, and pub_valid is 0 unless the step pulses it
(R431). -/
def beginTurn (s : State) : State :=
  { s with clk := s.clk + stepCycles s, pubValid := false }

/-- The EXEC step (R201): decode CUR_CMD and run the command's first step. -/
def execTurn (s : State) : StepOutcome :=
  match decodeWord s.curCmd with
  | .ok i => exec i s
  | .error _ => illegalWord s

/-- One CORE step (R15, R70). In IDLE nothing changes. -/
def coreTurn (s : State) : StepOutcome :=
  match s.fsm with
  | .idle => .next (beginTurn s)
  | .exec => execTurn (beginTurn s)
  | .calRun => .next (calRunStep (beginTurn s))
  | .calEval => .next (calEvalStep (beginTurn s))
  | .frameRun => .next (frameRunStep (beginTurn s))
  | .frameProc => .next (frameProcStep (beginTurn s))

/-- A host access as a step of its own: it falls between two CORE steps, so pub_valid's cycle is over (R431). -/
def accessTurn (a : BusAccess) (s : State) : StepOutcome :=
  .next (busAccess a { s with pubValid := false })

/-- The next event of the total order (R415): the pending one, or a CORE step when none is pending. -/
def nextEvent (s : State) : StepOutcome :=
  match s.inbox with
  | [] => coreTurn s
  | .turn :: rest => coreTurn { s with inbox := rest }
  | .access a :: rest => accessTurn a { s with inbox := rest }
  | .resetEdge presented :: rest => .next (resetEdge presented { s with inbox := rest })

/-- The state in which the very next event is the EXEC step of the command word `w`: an accepted CMD write (R200)
with the core's turn next (log entry 6). -/
def loadCommand (w : Word) (s : State) : State :=
  { acceptCmd w s with inbox := .turn :: s.inbox }

end Sys2Proof.Machine
end

