-- ==== Sys2Proof/Machine/Step.lean ====
section
/-! DEFINITION. One step of the machine (00_scope.md R15, 60_exceptions.md R415), and the placing of a command
word where the next step fetches it. -/

namespace Sys2Proof.Machine

/-- One step: a pending event of the host or the platform, or a CORE step. -/
def step (s : State) : Host.Outcome State Fault Refusal := nextEvent s

/-- `s` with the command word of the opcode table's bits `w` where the next step fetches it: CUR_CMD, accepted as a
CMD write accepts it (R200, R201; log entry 6). -/
def State.withFetchWord (s : State) (nbits w : Nat) : State := loadCommand (tableWord nbits w) s

end Sys2Proof.Machine
end

