-- ==== Sys2Proof/Safety.lean ====
section
/-! DEFINITION. What every state of the core keeps, and what a safe run is, in the words claims use. -/

namespace Sys2Proof.Machine

/-- The arrays have one entry for each of the NS_MAX registers (R68, R69, R72, R74). -/
abbrev BuffersOk (s : State) : Prop :=
  s.raw.length = s.param.nsMax ∧ s.crcIn.length = s.param.nsMax ∧ s.chain.length = s.param.nsMax

/-- Reserved bits read 0 (R33), and a session holds a legal configuration (R67, R205). -/
abbrev ConfigOk (s : State) : Prop :=
  s.cfg0 &&& ~~~cfg0Writable = 0 ∧ s.scfg0 &&& ~~~cfg0Writable = 0 ∧
    (s.initDone = true → legalConfig s.param s.scfg0 s.scfg1 = true)

/-- Before the first successful INIT the session's state is as reset leaves it (R38, R207). -/
abbrev NoSessionOk (s : State) : Prop :=
  s.initDone = false →
    s.scfg0 = 0 ∧ s.scfg1 = 0 ∧ s.cal = .cleared ∧ s.frame = .cleared ∧ s.off = .cleared ∧ s.trk = .cleared ∧
      s.crcErrCnt = 0

/-- A session is never both calibrated and fatal (R237), and a valid calibration holds the frame length of R236. -/
abbrev CalibrationOk (s : State) : Prop :=
  (s.cal.fail = true → s.cal.done = false) ∧
    (s.cal.done = true →
      s.cal.delay.toNat < s.param.delayMax ∧
      s.cal.flen.toNat = s.cal.delay.toNat + s.mtWidth + s.stWidth + 11 ∧
      s.cal.flen.toNat ≤ s.capBits ∧
      s.cal.nsa.toNat = ceilDiv s.cal.flen.toNat 32)

/-- The decoded fields are within their widths (R322), and are clear while no frame is held (R42). -/
abbrev FrameOk (s : State) : Prop :=
  s.frame.mt.toNat < 2 ^ s.mtWidth ∧ s.frame.st.toNat < 2 ^ s.stWidth ∧
    (s.frame.held = false → s.frame = .cleared)

/-- The offsets are within their widths (R55, R56), and are 0 in Uncalibrated mode (R350). -/
abbrev OffsetsOk (s : State) : Prop :=
  s.off.mt.toNat < 2 ^ s.mtWidth ∧ s.off.st.toNat < 2 ^ s.stWidth ∧
    (s.off.mode = .uncalibrated → s.off = .cleared)

/-- The tracker registers are within their widths (R57 to R61, R63). -/
abbrev TrackerOk (s : State) : Prop :=
  s.trk.rawAng.toNat < 2 ^ s.stWidth ∧ s.trk.filt.toNat < 2 ^ s.stWidth ∧ s.trk.elec.toNat < 2 ^ s.stWidth ∧
    s.trk.pos.toNat < 2 ^ (s.mtWidth + s.stWidth) ∧
    s.trk.phErr = sext32 s.stWidth (mask s.stWidth s.trk.phErr.toNat) ∧
    s.trk.speed = sext32 s.param.spdW (mask s.param.spdW s.trk.speed.toNat)

/-- The sequencer (R73 to R76, R177, R179): the transaction fits the chain, the chain is 0 above the samples taken,
ticks remain exactly while a transaction runs, and MA idles high between ticks. -/
abbrev SequencerOk (s : State) : Prop :=
  s.seq.t.toNat ≤ s.capBits ∧ s.seq.nt.toNat = ceilDiv s.seq.t.toNat 32 ∧
    chainValue s.chain < 2 ^ s.seq.k.toNat ∧
    (if s.capturing then s.seq.k < s.seq.t else s.seq.k = s.seq.t) ∧
    s.ma = true

/-- The word accepted last and its opcode agree (R48, R75). -/
abbrev CommandOk (s : State) : Prop := s.lastOp = opField s.curCmd

/-- What holds while CALIBRATE runs its trials (R230). -/
abbrev CalibratingOk (s : State) : Prop :=
  s.fsm = .calRun ∨ s.fsm = .calEval →
    s.initDone = true ∧ s.cal.fail = false ∧ s.seq.t.toNat = s.calLen ∧
      (s.seq.trial = 1 ∨ s.seq.trial = 2) ∧ s.curCmd = encode .calibrate

/-- What holds while READ receives its frame (R260). -/
abbrev ReceivingOk (s : State) : Prop :=
  s.fsm = .frameRun ∨ s.fsm = .frameProc →
    s.initDone = true ∧ s.cal.done = true ∧ s.seq.t = s.cal.flen ∧ s.curCmd = encode .read

/-- The invariant of the core: what every state from reset on keeps, whatever host, encoder and estimator do. -/
abbrev Inv (s : State) : Prop :=
  s.param.Legal ∧ BuffersOk s ∧ ConfigOk s ∧ NoSessionOk s ∧ CalibrationOk s ∧ FrameOk s ∧ OffsetsOk s ∧
    TrackerOk s ∧ SequencerOk s ∧ CommandOk s ∧ CalibratingOk s ∧ ReceivingOk s

/-- A run that no step stops (R407). -/
def NeverStops (s : State) : Prop := ∀ k : Nat, ∃ t : State, core.run k s = .next t

/-- The core takes its own step next: no event is pending, or the pending one is its turn. `s'` is `s` with that
turn taken off the list. -/
def CoreTurnNext (s s' : State) : Prop :=
  (s.inbox = [] ∧ s' = s) ∨ ∃ rest, s.inbox = .turn :: rest ∧ s' = { s with inbox := rest }

/-- The next event is a clk edge with rst_n = 0 (R450). -/
def ResetNext (s : State) : Prop := ∃ presented rest, s.inbox = .resetEdge presented :: rest

/-- The next step is a CORE step in the FSM state `f`. -/
def CoreTurnIn (f : Fsm) (s : State) : Prop := (∃ s', CoreTurnNext s s') ∧ s.fsm = f

/-- The next step is the EXEC step of the command `i` (R201). -/
def RunsCommand (i : Instr) (s : State) : Prop := CoreTurnIn .exec s ∧ decodeWord s.curCmd = .ok i

/-- A 32-bit host write of `v` at byte offset `off`: `MemWrite(off, 4, v)` (R18). -/
def hostWrite (off : Nat) (v : Word) : BusAccess :=
  { addr := BitVec.ofNat 9 off, size := .word, we := true, re := false, wdata := v }

/-- The error completion of R404 with the code `e`: the code, DONE and ERR pending, IDLE, and nothing else. -/
def ErrorCompletion (e : ErrCode) (s : State) : State :=
  { s with err := e, irqStatus := s.irqStatus ||| 0b0011, fsm := .idle }

/-- The fields of a command word that make it illegal (R132, R136, R137). -/
def IllegalFields (w : Word) : Prop :=
  7 ≤ (w.extractLsb' 0 4).toNat ∨ w.extractLsb' 14 2 ≠ 0 ∨
    ((w.extractLsb' 0 4).toNat ≤ 4 ∧
      (w.extractLsb' 4 4 ≠ 0 ∨ w.extractLsb' 8 6 ≠ 0 ∨ w.extractLsb' 16 16 ≠ 0)) ∨
    ((w.extractLsb' 0 4).toNat = 5 ∧ w.extractLsb' 4 4 ≠ 0) ∨
    ((w.extractLsb' 0 4).toNat = 6 ∧ (w.extractLsb' 8 6 ≠ 0 ∨ w.extractLsb' 16 16 ≠ 0))

/-- CFG0 and CFG1 hold a configuration R205 calls legal. -/
def LegalPending (s : State) : Prop :=
  (s.cfg0.extractLsb' 0 6).toNat ≤ 32 ∧
    1 ≤ (s.cfg0.extractLsb' 8 6).toNat ∧ (s.cfg0.extractLsb' 8 6).toNat ≤ 32 ∧
    1 ≤ (s.cfg0.extractLsb' 16 8).toNat ∧ (s.cfg0.extractLsb' 16 8).toNat ≤ 255 ∧
    s.param.delayMax ≤ (s.cfg1.extractLsb' 16 16).toNat ∧ (s.cfg1.extractLsb' 16 16).toNat ≤ 32 * s.param.nsMax ∧
    (s.cfg0.extractLsb' 0 6).toNat + (s.cfg0.extractLsb' 8 6).toNat + 11 ≤ 32 * s.param.nsMax

/-- `fr` holds the fields of the frame word `f` for the widths `n` and `m`, in the layout of R143, its check value
over the payload of R144, and the verdict of R295. -/
def HoldsFrame (n m f : Nat) (fr : HeldFrame) : Prop :=
  fr.held = true ∧ fr.warnBit = f.testBit 6 ∧ fr.errBit = f.testBit 7 ∧
    (∀ i < 32, fr.st.getLsbD i = (decide (i < m) && f.testBit (8 + i))) ∧
    (∀ i < 32, fr.mt.getLsbD i = (decide (i < n) && f.testBit (m + 8 + i))) ∧
    (∀ i < 6, fr.rcvCrc.getLsbD i = f.testBit i) ∧
    fr.calcCrc = ~~~crc6Reg ((List.range (n + m + 2)).map fun t => f.testBit (n + m + 7 - t)) ∧
    fr.crcOk = (fr.calcCrc == fr.rcvCrc)

/-- CAP shows the capture of a transaction that took the samples `samples`: R177's placing of the samples in the chain,
seen through R178's numbering and read in the window (R68). -/
def CapShows (samples : List Bool) (s : State) : Prop :=
  let t := samples.length
  let nt := (t + 31) / 32
  ∀ i < s.param.nsMax, ∀ b < 32,
    let word := match s.param.chainOrder with
      | .highFirst => i
      | .lowFirst => if i < nt then nt - 1 - i else i
    (readOffset (0x080 + 4 * i) s).getLsbD b =
      (decide (32 * word + b < t) && samples.getD (t - 1 - (32 * word + b)) false)

/-- The values R78 and R450 list, PARAM apart: every register of the window reads 0, the core is in IDLE, the internal
values and the outputs are as after reset. -/
def HasResetValues (s : State) : Prop :=
  (∀ off < 0x200, off % 4 = 0 → off ≠ 0 → readOffset off s = 0) ∧
    s.fsm = .idle ∧ s.ma = true ∧ s.curCmd = 0 ∧ s.trk.est = Config.estInit ∧ chainValue s.chain = 0 ∧
    s.seq = { t := 0, k := 0, nt := 0, trial := 0 } ∧
    irqOut s = false ∧ s.pubValid = false ∧ s.lastResp.err = false

/-- The tracker registers an update makes of the decoded fields `mt` and `st` in the state `s` (R351 to R357), with
the instance's estimator. -/
def TracksFrame (s : State) (mt st : Word) (u : Tracker) : Prop :=
  let m := s.stWidth
  let raw : Int := ((st.toNat : Int) - s.off.st.toNat) % (2 ^ m : Nat)
  let ep : Int := toSigned m (s.trk.phErr.toNat % 2 ^ m)
  let answer := Config.est m s.trk.est raw.toNat ep
  let filt : Nat := answer.2 % 2 ^ m
  let turns : Int := ((mt.toNat : Int) - s.off.mt.toNat) % (2 ^ s.mtWidth : Nat)
  u.rawAng = BitVec.ofNat 32 raw.toNat ∧
    u.filt = BitVec.ofNat 32 filt ∧
    u.phErr = BitVec.ofInt 32 (toSigned m ((raw - filt) % (2 ^ m : Nat)).toNat) ∧
    u.speed = BitVec.ofInt 32 (toSigned s.param.spdW (Config.speedOf answer.1 % (2 ^ s.param.spdW : Nat)).toNat) ∧
    u.pos = BitVec.ofNat 64 (turns.toNat * 2 ^ m + raw.toNat) ∧
    u.elec = BitVec.ofNat 32 (filt * s.polePairs % 2 ^ m) ∧
    u.est = answer.1

end Sys2Proof.Machine
end

