-- ==== Sys2Proof/Certificates/Slice0/Obligations.lean ====
section
/-! DEFINITION. The statements about the core, for the provers. Each docstring names the rules it rests on; `stated`
and `derived` are told apart in OBLIGATIONS.json. -/

open Sys2Proof Sys2Proof.Machine

/-! ## Encoding -/

/-- Every well-formed command is read back from its own word, with every operand (R130, R131, R139). -/
def Obligations.DecodeOfEncodeIsIdentity : Prop :=
  ∀ i : Instr, i.WellFormed → decodeWord (encode i) = .ok i

/-- A word the decoder accepts is the word of exactly one command, a well-formed one (R138). -/
def Obligations.EncodeOfDecodeIsIdentity : Prop :=
  ∀ (w : Word) (i : Instr), decodeWord w = .ok i → i.WellFormed ∧ encode i = w

/-- The decoder rejects a word exactly when its opcode is reserved, RSV is not 0, or a field its opcode does not use
is not 0 (R132, R136). -/
def Obligations.DecoderRejectsExactlyIllegalFields : Prop :=
  ∀ w : Word, (∃ e, decodeWord w = .error e) ↔ IllegalFields w

/-- The decoder accepts exactly the words of the opcode table's rows, each as its row's command. -/
def Obligations.DecoderAcceptsExactlyTheOpcodeTable : Prop :=
  ∀ w : Word,
    (∀ i, decodeWord w = .ok i → i.row ∈ opcodeTable ∧ w &&& i.row.mask = i.row.bits) ∧
    (∀ row ∈ opcodeTable, w &&& row.mask = row.bits → ∃ i, decodeWord w = .ok i ∧ i.row = row)

/-- The worked encodings of R149, both ways, and its three illegal words. -/
def Obligations.WorkedEncodingsDecode : Prop :=
  encode .nop = 0x00000000 ∧ encode .init = 0x00000001 ∧ encode .calibrate = 0x00000002 ∧
  encode .read = 0x00000003 ∧ encode .latchOffset = 0x00000004 ∧ encode (.crcCheck 30 0x3D) = 0x001E3D05 ∧
  encode (.crcCheck 0 0x15) = 0x00001505 ∧ encode (.decode 2) = 0x00000026 ∧
  decodeWord 0x00000000 = .ok .nop ∧ decodeWord 0x00000001 = .ok .init ∧
  decodeWord 0x00000002 = .ok .calibrate ∧ decodeWord 0x00000003 = .ok .read ∧
  decodeWord 0x00000004 = .ok .latchOffset ∧ decodeWord 0x001E3D05 = .ok (.crcCheck 30 0x3D) ∧
  decodeWord 0x00001505 = .ok (.crcCheck 0 0x15) ∧ decodeWord 0x00000026 = .ok (.decode 2) ∧
  decodeWord 0x00000013 = .error .unusedField ∧ decodeWord 0x00004005 = .error .reservedBits ∧
  decodeWord 0x00000007 = .error (.reservedOpcode 7)

/-! ## The step -/

/-- In EXEC a core step is the decoded command's meaning, after one clk cycle has passed and pub_valid has fallen
(R201, R470; the model's clk counter is log entry 2's). -/
def Obligations.StepRunsTheDecodedCommand : Prop :=
  ∀ (s s' : State) (i : Instr), CoreTurnNext s s' → s.fsm = .exec → decodeWord s.curCmd = .ok i →
    step s = exec i { s' with clk := s'.clk + 1, pubValid := false }

/-- A command word placed where the next step fetches it is run by that step, from the state an accepted CMD write
leaves (R200, R201; log entries 6 and 2). -/
def Obligations.PlacedWordRunsNext : Prop :=
  ∀ (s : State) (nbits w : Nat) (i : Instr), decodeTableWord nbits w = some i →
    step (s.withFetchWord nbits w) =
      exec i { s with
        curCmd := BitVec.ofNat 32 (w % 2 ^ nbits)
        lastOp := (BitVec.ofNat 32 (w % 2 ^ nbits)).extractLsb' 0 4
        fsm := .exec
        clk := s.clk + 1
        pubValid := false }

/-- No error stops the core: no run from any state ends in a fault or a refusal (R407). -/
def Obligations.NoRunEverStops : Prop :=
  ∀ s : State, NeverStops s

/-- An illegal word written to CMD in IDLE is accepted, and the next core step completes it with ILLEGAL_CMD and no
other effect, in every session state (R137, R200, R211). That the write answers no read data is the model's choice (log
entry 9), CUR_CMD keeps the word by log entry 11, and the clk counter is the model's own (log entry 2). -/
def Obligations.IllegalWordCompletesWithoutEffect : Prop :=
  ∀ (s : State) (w : Word) (rest : List HostEvent), s.fsm = .idle → IllegalFields w →
    s.inbox = .access (hostWrite 0x00C w) :: .turn :: rest →
    ∃ t u : State, step s = .next t ∧ t.busy = true ∧ t.lastOp = w.extractLsb' 0 4 ∧ step t = .next u ∧
      u = { s with
        curCmd := w
        lastOp := w.extractLsb' 0 4
        err := .illegalCmd
        irqStatus := s.irqStatus ||| 0b0011
        lastResp := { rdata := none, err := false }
        pubValid := false
        inbox := rest
        clk := s.clk + 1 }

/-! ## Results of the commands -/

/-- NOP completes, and changes nothing else (R210, R202). -/
def Obligations.NopOnlyCompletes : Prop :=
  ∀ s : State, exec .nop s = .next { s with err := .none, irqStatus := s.irqStatus ||| 0b0001, fsm := .idle }

/-- INIT with a legal pending configuration latches it and resets the session, and leaves the rest (R204, R205, R207,
R79). EST_STATE goes to EST_INIT. -/
def Obligations.InitOpensSession : Prop :=
  ∀ s : State, LegalPending s →
    exec .init s = .next { s with
      scfg0 := s.cfg0
      scfg1 := s.cfg1
      initDone := true
      cal := { done := false, fail := false, delay := 0, flen := 0, nsa := 0 }
      frame := { held := false, crcOk := false, errBit := false, warnBit := false, mt := 0, st := 0,
                 rcvCrc := 0, calcCrc := 0 }
      off := { mode := .uncalibrated, mt := 0, st := 0 }
      trk := { rawAng := 0, filt := 0, phErr := 0, pos := 0, speed := 0, elec := 0, est := Config.estInit }
      crcErrCnt := 0
      err := .none
      irqStatus := s.irqStatus ||| 0b0001
      fsm := .idle }

/-- INIT with any other pending configuration completes with BAD_CONFIG and changes nothing else (R205, R206). -/
def Obligations.InitRejectsIllegalConfig : Prop :=
  ∀ s : State, ¬ LegalPending s → exec .init s = .next (ErrorCompletion .badConfig s)

/-- CALIBRATE in a live, non-fatal session clears the chain and starts the first trial of CAL_LEN ticks (R230,
R175). -/
def Obligations.CalibrateStartsFirstTrial : Prop :=
  ∀ s : State, s.initDone = true → s.cal.fail = false →
    exec .calibrate s = .next { s with
      chain := List.replicate s.param.nsMax 0
      seq := { t := s.scfg1.extractLsb' 16 16, k := 0,
               nt := BitVec.ofNat 4 (((s.scfg1.extractLsb' 16 16).toNat + 31) / 32), trial := 1 }
      fsm := .calRun }

/-- READ in a calibrated session clears the chain and starts one transaction of FLEN ticks (R260, R175). -/
def Obligations.ReadStartsOneTransaction : Prop :=
  ∀ s : State, s.initDone = true → s.cal.fail = false → s.cal.done = true →
    exec .read s = .next { s with
      chain := List.replicate s.param.nsMax 0
      seq := { t := s.cal.flen, k := 0, nt := BitVec.ofNat 4 ((s.cal.flen.toNat + 31) / 32), trial := s.seq.trial }
      fsm := .frameRun }

/-- LATCH_OFFSET with a held frame whose CRC matched copies its fields into the offsets, sets MODE, and leaves the
tracker and the frame (R360 to R363). -/
def Obligations.LatchOffsetCopiesHeldFrame : Prop :=
  ∀ s : State, s.initDone = true → s.frame.held = true → s.frame.crcOk = true →
    exec .latchOffset s = .next { s with
      off := { mode := .calibrated, mt := s.frame.mt, st := s.frame.st }
      err := .none
      irqStatus := s.irqStatus ||| 0b0001
      fsm := .idle }

/-- CRC_CHECK of at most CAP_BITS bits stores the check value of the CRC_IN window, the operand and the verdict, and
changes nothing else; no session is needed (R305, R306). -/
def Obligations.CrcCheckStoresVerdict : Prop :=
  ∀ (s : State) (l : Nat) (rcrc : BitVec 6), l ≤ 32 * s.param.nsMax →
    let bits := (List.range l).map fun t => (s.crcIn.getD (t / 32) 0).getLsbD (t % 32)
    let check := crc6Reg bits ^^^ 0x3F
    exec (.crcCheck l rcrc) s = .next { s with
      crcRes := { ok := decide (l = 0) || check == rcrc, calcCrc := check, rcvCrc := rcrc }
      err := .none
      irqStatus := s.irqStatus ||| 0b0001
      fsm := .idle }

/-- DECODE of a frame that fits its words writes the frame's fields and check values from RAW, and changes nothing
else: no tracker register, no offset, no counter, no publication (R325, R321, R143, R295). -/
def Obligations.DecodeWritesHeldFrame : Prop :=
  ∀ (s : State) (nw : Nat), s.initDone = true → 1 ≤ nw → nw ≤ s.param.nsMax →
    s.mtWidth + s.stWidth + 8 ≤ 32 * nw →
    ∃ fr : HeldFrame, HoldsFrame s.mtWidth s.stWidth (frameWord nw s.raw) fr ∧
      exec (.decode nw) s = .next { s with
        frame := fr
        err := .none
        irqStatus := s.irqStatus ||| 0b0001
        fsm := .idle }

/-- A command that meets an error reports the first in the order of R405, with the completion of R404 and no other
effect. -/
def Obligations.CommandsReportFirstError : Prop :=
  ∀ (s : State) (l nw : Nat) (rcrc : BitVec 6),
    (s.initDone = false →
      exec .calibrate s = .next (ErrorCompletion .notInitialised s) ∧
      exec .read s = .next (ErrorCompletion .notInitialised s) ∧
      exec .latchOffset s = .next (ErrorCompletion .notInitialised s) ∧
      exec (.decode nw) s = .next (ErrorCompletion .notInitialised s)) ∧
    (s.initDone = true → s.cal.fail = true →
      exec .calibrate s = .next (ErrorCompletion .sessionFatal s) ∧
      exec .read s = .next (ErrorCompletion .sessionFatal s)) ∧
    (s.initDone = true → s.cal.fail = false → s.cal.done = false →
      exec .read s = .next (ErrorCompletion .notCalibrated s)) ∧
    (s.initDone = true → s.frame.held = false ∨ s.frame.crcOk = false →
      exec .latchOffset s = .next (ErrorCompletion .noFrame s)) ∧
    (32 * s.param.nsMax < l → exec (.crcCheck l rcrc) s = .next (ErrorCompletion .badLen s)) ∧
    (s.initDone = true → nw = 0 ∨ s.param.nsMax < nw ∨ 32 * nw < s.mtWidth + s.stWidth + 8 →
      exec (.decode nw) s = .next (ErrorCompletion .badLen s))

/-! ## The sequencer -/

/-- The chain of words is the shift register of R174: each tick doubles it, adds the sample, and drops what exceeds
CAP_BITS. -/
def Obligations.ChainShiftsAsOneRegister : Prop :=
  ∀ (b : Bool) (ws : List Word),
    chainValue (shiftIn b ws) = (2 * chainValue ws + (if b then 1 else 0)) % 2 ^ (32 * ws.length)

/-- One step of a running transaction takes one sample and 2·(BAUD_DIV+1) clk cycles, leaves MA high, and hands over to
the evaluation state when seq.k reaches seq.T; it changes nothing else (R171, R174, R176). The clk counter and the list
of samples are the model's own (log entries 2 and 4). -/
def Obligations.RunningTransactionTakesOneSample : Prop :=
  ∀ s s' : State, CoreTurnNext s s' → s.fsm = .calRun ∨ s.fsm = .frameRun → s.seq.k < s.seq.t →
    step s = .next { s' with
      chain := shiftIn (s.encBits.headD (Config.sloLine (s.clk + 2 * (s.baudDiv + 1)))) s.chain
      seq := { s.seq with k := s.seq.k + 1 }
      encBits := s.encBits.tail
      ma := true
      fsm := if s.seq.k + 1 = s.seq.t then (if s.fsm = .calRun then .calEval else .frameProc) else s.fsm
      clk := s.clk + 2 * (s.baudDiv + 1)
      pubValid := false }

/-- After a whole transaction of T ticks the chain holds sample k at bit T-1-k and 0 above, for every sequence of
samples; the run takes T ticks of 2·(BAUD_DIV+1) clk cycles and changes nothing else (R171, R176, R177, R179). The clk
counter and the list of samples are the model's own (log entries 2 and 4). -/
def Obligations.TransactionCapturesEverySample : Prop :=
  ∀ (s : State) (samples rest : List Bool), s.inbox = [] → s.fsm = .calRun ∨ s.fsm = .frameRun → s.seq.k = 0 →
    s.chain = List.replicate s.param.nsMax 0 → samples.length = s.seq.t.toNat → 1 ≤ s.seq.t.toNat →
    s.seq.t.toNat ≤ 32 * s.param.nsMax → s.encBits = samples ++ rest →
    ∃ ws : List Word,
      core.run s.seq.t.toNat s = .next { s with
        chain := ws
        seq := { s.seq with k := s.seq.t }
        encBits := rest
        ma := true
        fsm := if s.fsm = .calRun then .calEval else .frameProc
        clk := s.clk + s.seq.t.toNat * (2 * (s.baudDiv + 1))
        pubValid := false } ∧
      ws.length = s.param.nsMax ∧
      ∀ j, chainBit ws j = (decide (j < s.seq.t.toNat) && samples.getD (s.seq.t.toNat - 1 - j) false)

/-! ## CALIBRATE -/

/-- CAL_EVAL judges the trial alone (R230, R233, R234, R236, R237): a 0 among the first DELAY_MAX samples ends the
calibration, well or with FRAME_TOO_LONG; none starts the second trial or ends it with NO_START_PATTERN. The clk
counter is the model's own (log entry 2). -/
def Obligations.CalEvalJudgesTheTrial : Prop :=
  ∀ s s' : State, CoreTurnNext s s' → s.fsm = .calEval →
    let bit := fun i => chainBit s.chain (s.calLen - 1 - i)
    let begun := { s' with clk := s.clk + 1, pubValid := false }
    (∀ d, d < s.param.delayMax → (∀ i < d, bit i = true) → bit d = false →
      let fl := d + s.mtWidth + s.stWidth + 11
      (fl ≤ 32 * s.param.nsMax →
        step s = .next { begun with
          cal := { done := true, fail := s.cal.fail, delay := BitVec.ofNat 16 d, flen := BitVec.ofNat 16 fl,
                   nsa := BitVec.ofNat 4 ((fl + 31) / 32) }
          err := .none
          irqStatus := s.irqStatus ||| 0b0001
          fsm := .idle }) ∧
      (32 * s.param.nsMax < fl →
        step s = .next (ErrorCompletion .frameTooLong
          { begun with cal := { s.cal with done := false, fail := true } }))) ∧
    ((∀ i < s.param.delayMax, bit i = true) →
      (s.seq.trial = 1 →
        step s = .next { begun with
          chain := List.replicate s.param.nsMax 0
          seq := { t := s.scfg1.extractLsb' 16 16, k := 0, nt := BitVec.ofNat 4 ((s.calLen + 31) / 32), trial := 2 }
          fsm := .calRun }) ∧
      (s.seq.trial ≠ 1 →
        step s = .next (ErrorCompletion .noStartPattern
          { begun with cal := { s.cal with done := false, fail := true } })))

/-- A whole CALIBRATE, run on any samples whose first trial begins with d set bits and a 0, discovers the delay d and
programs FLEN = d + N + M + 11, in the clk cycles of R470; CAP holds its capture (R240), and it changes no frame,
offset, tracker, RAW or counter (R230 to R236, R239, R470). The clk counter and the list of samples are the model's own
(log entries 2 and 4). -/
def Obligations.CalibrateDiscoversTheDelay : Prop :=
  ∀ (s : State) (d : Nat) (samples rest : List Bool), Inv s → s.inbox = [] → s.fsm = .exec →
    s.curCmd = encode .calibrate → s.initDone = true → s.cal.fail = false →
    s.encBits = samples ++ rest → samples.length = s.calLen → d < s.param.delayMax →
    (∀ i < d, samples.getD i false = true) → samples.getD d true = false →
    d + s.mtWidth + s.stWidth + 11 ≤ 32 * s.param.nsMax →
    ∃ t : State, core.run (s.calLen + 2) s = .next t ∧
      t.cal.delay.toNat = d ∧ t.cal.flen.toNat = d + s.mtWidth + s.stWidth + 11 ∧
      t.cal.nsa.toNat = (d + s.mtWidth + s.stWidth + 11 + 31) / 32 ∧ t.cal.done = true ∧ t.cal.fail = false ∧
      CapShows samples t ∧ t.seq.t.toNat = s.calLen ∧ t.seq.k = t.seq.t ∧
      t.seq.nt.toNat = (s.calLen + 31) / 32 ∧ t.seq.trial = 1 ∧
      t = { s with
        cal := t.cal, chain := t.chain, seq := t.seq
        err := .none
        irqStatus := s.irqStatus ||| 0b0001
        fsm := .idle
        encBits := rest
        ma := true
        pubValid := false
        clk := s.clk + (1 + 2 * (s.baudDiv + 1) * s.calLen + 1) }

/-- A line that stays at 1 for the first DELAY_MAX samples of both trials fails CALIBRATE with NO_START_PATTERN after
two trials; CAP holds the capture of the second (R240), and the session is fatal (R234, R237, R242, R470). The clk
counter and the list of samples are the model's own (log entries 2 and 4). -/
def Obligations.NoStartPatternFailsAfterTwoTrials : Prop :=
  ∀ (s : State) (first second rest : List Bool), Inv s → s.inbox = [] → s.fsm = .exec →
    s.curCmd = encode .calibrate → s.initDone = true → s.cal.fail = false →
    s.encBits = first ++ second ++ rest → first.length = s.calLen → second.length = s.calLen →
    (∀ i < s.param.delayMax, first.getD i false = true) → (∀ i < s.param.delayMax, second.getD i false = true) →
    ∃ t : State, core.run (1 + 2 * (s.calLen + 1)) s = .next t ∧
      CapShows second t ∧ t.seq.t.toNat = s.calLen ∧ t.seq.k = t.seq.t ∧
      t.seq.nt.toNat = (s.calLen + 31) / 32 ∧ t.seq.trial = 2 ∧
      t = { s with
        cal := { s.cal with done := false, fail := true }, chain := t.chain, seq := t.seq
        err := .noStartPattern
        irqStatus := s.irqStatus ||| 0b0011
        fsm := .idle
        encBits := rest
        ma := true
        pubValid := false
        clk := s.clk + (1 + 2 * (2 * (s.baudDiv + 1) * s.calLen + 1)) }

/-! ## Frames -/

/-- F is RAW, most significant word first (R145). -/
def Obligations.FrameWordIsRawMsbFirst : Prop :=
  ∀ (nw : Nat) (raw : List Word),
    frameWord nw raw < 2 ^ (32 * nw) ∧
    ∀ j < 32 * nw, (frameWord nw raw).testBit j = (raw.getD (nw - 1 - j / 32) 0).getLsbD (j % 32)

/-- Assembly makes F the low 32·NSA bits of the chain, and clears RAW above the frame (R263, R264). -/
def Obligations.AssemblyMakesFrameOfChain : Prop :=
  ∀ s : State, s.chain.length = s.param.nsMax → s.cal.nsa.toNat ≤ s.param.nsMax →
    (assemble s).raw.length = s.param.nsMax ∧
    frameWord s.cal.nsa.toNat (assemble s).raw = chainValue s.chain % 2 ^ (32 * s.cal.nsa.toNat) ∧
    ∀ j, s.cal.nsa.toNat ≤ j → (assemble s).raw.getD j 0 = 0

/-- While no transaction runs, CAP[i] reads S[i] in HIGH_FIRST, and in LOW_FIRST S[NT-1-i] below seq.NT and S[i] from
there up (R178). RAW comes out the same whichever way: it is CAP downward from NSA-1 in HIGH_FIRST and CAP upward from 0
in LOW_FIRST (R263). -/
def Obligations.AssemblyUndoesTheNumbering : Prop :=
  (∀ (s : State) (i : Nat), s.fsm ≠ .calRun → s.fsm ≠ .frameRun → s.param.nsMax ≤ 15 → i < s.param.nsMax →
    readOffset (0x080 + 4 * i) s =
      (match s.param.chainOrder with
       | .highFirst => s.chain.getD i 0
       | .lowFirst =>
         if i < s.seq.nt.toNat then s.chain.getD (s.seq.nt.toNat - 1 - i) 0 else s.chain.getD i 0)) ∧
  ∀ (s : State) (j : Nat), s.capturing = false → s.seq.nt = s.cal.nsa → s.cal.nsa.toNat ≤ s.param.nsMax →
    j < s.cal.nsa.toNat →
    (assemble s).raw.getD j 0 =
      (match s.param.chainOrder with
       | .highFirst => readReg (.cap (s.cal.nsa.toNat - 1 - j)) s
       | .lowFirst => readReg (.cap j) s)

/-- The decoder recovers every field packed in the layout of R143, whatever the check field and the bits above the
frame are (R321, R322, R324). -/
def Obligations.DecoderRecoversPackedFields : Prop :=
  ∀ (s : State) (above mt st crc : Nat) (e w : Bool), s.mtWidth ≤ 32 → s.stWidth ≤ 32 →
    mt < 2 ^ s.mtWidth → st < 2 ^ s.stWidth → crc < 2 ^ 6 →
    let f := ((((above * 2 ^ s.mtWidth + mt) * 2 ^ s.stWidth + st) * 2 + e.toNat) * 2 + w.toNat) * 2 ^ 6 + crc
    (decodeFrame f s).frame.mt = BitVec.ofNat 32 mt ∧ (decodeFrame f s).frame.st = BitVec.ofNat 32 st ∧
      (decodeFrame f s).frame.errBit = e ∧ (decodeFrame f s).frame.warnBit = w ∧
      (decodeFrame f s).frame.held = true

/-- Verdict, check values and fields depend on no bit of F above F[N+M+7] (R296, R323). -/
def Obligations.UpperFrameBitsNeverMatter : Prop :=
  ∀ (s : State) (f g : Nat), f % 2 ^ (s.mtWidth + s.stWidth + 8) = g % 2 ^ (s.mtWidth + s.stWidth + 8) →
    decodeFrame f (validateFrame f s) = decodeFrame g (validateFrame g s)

/-- FRAME_PROC on a frame whose check value does not match writes RAW and the held frame, counts the failure and sets
DONE and CRCFAIL; tracker, estimator state and offsets stay, nothing is published, and ERR is NONE (R260, R266,
R267). The clk counter is the model's own (log entry 2). -/
def Obligations.CrcMismatchSkipsTheTracker : Prop :=
  ∀ s s' : State, CoreTurnNext s s' → s.fsm = .frameProc → s.chain.length = s.param.nsMax →
    s.cal.nsa.toNat ≤ s.param.nsMax → ∀ f : Nat, f = chainValue s.chain % 2 ^ (32 * s.cal.nsa.toNat) →
    crc6Reg ((List.range (s.mtWidth + s.stWidth + 2)).map fun t => f.testBit (s.mtWidth + s.stWidth + 7 - t)) ^^^ 0x3F
      ≠ BitVec.ofNat 6 f →
    ∃ fr : HeldFrame, HoldsFrame s.mtWidth s.stWidth f fr ∧ fr.crcOk = false ∧
      step s = .next { s' with
        raw := (assemble s).raw
        frame := fr
        crcErrCnt := s.crcErrCnt + 1
        irqStatus := s.irqStatus ||| 0b0101
        err := .none
        fsm := .idle
        clk := s.clk + 1
        pubValid := false }

/-- FRAME_PROC on a frame whose check value matches writes RAW, the held frame and the tracker registers of R351 to
R357, calls the estimator once, and publishes; offsets and the failure count stay (R260, R351 to R359). The estimator is
free (log entry 3), and the clk counter is the model's own (log entry 2). -/
def Obligations.GoodFrameUpdatesTheTracker : Prop :=
  ∀ s s' : State, CoreTurnNext s s' → s.fsm = .frameProc → s.chain.length = s.param.nsMax →
    s.cal.nsa.toNat ≤ s.param.nsMax → ∀ f : Nat, f = chainValue s.chain % 2 ^ (32 * s.cal.nsa.toNat) →
    crc6Reg ((List.range (s.mtWidth + s.stWidth + 2)).map fun t => f.testBit (s.mtWidth + s.stWidth + 7 - t)) ^^^ 0x3F
      = BitVec.ofNat 6 f →
    ∃ (fr : HeldFrame) (u : Tracker), HoldsFrame s.mtWidth s.stWidth f fr ∧ fr.crcOk = true ∧
      TracksFrame s fr.mt fr.st u ∧
      step s = .next { s' with
        raw := (assemble s).raw
        frame := fr
        trk := u
        irqStatus := s.irqStatus ||| 0b0001
        err := .none
        fsm := .idle
        clk := s.clk + 1
        pubValid := true }

/-- A whole READ, run on any FLEN samples, puts each field of the wire format of R140 into its register, MSB received
first: multi-turn, single-turn, error, warning and the received check value; it completes with NONE in the clk cycles
of R470. CAP holds its capture, RAW what assembly makes of it, and the sequencer its FLEN ticks. No state changes but
these, the tracker, CRC_ERR_CNT and the completion: the offsets, the calibration and the configuration stay (R140, R177,
R178, R260, R263, R264, R265, R470). The clk counter, the list of samples and the free estimator are the model's
own (log entries 2, 4 and 3). -/
def Obligations.ReadDecodesTheWireFrame : Prop :=
  ∀ (s : State) (samples rest : List Bool), Inv s → s.inbox = [] → s.fsm = .exec → s.curCmd = encode .read →
    s.initDone = true → s.cal.done = true → s.encBits = samples ++ rest → samples.length = s.cal.flen.toNat →
    let d := s.cal.delay.toNat
    let n := s.mtWidth
    let m := s.stWidth
    let bit := fun k => samples.getD k false
    ∃ t : State, core.run (s.cal.flen.toNat + 2) s = .next t ∧
      (∀ i < 32, t.frame.mt.getLsbD i = (decide (i < n) && bit (d + n + 2 - i))) ∧
      (∀ i < 32, t.frame.st.getLsbD i = (decide (i < m) && bit (d + n + m + 2 - i))) ∧
      t.frame.errBit = bit (d + n + m + 3) ∧ t.frame.warnBit = bit (d + n + m + 4) ∧
      (∀ i < 6, t.frame.rcvCrc.getLsbD i = bit (d + n + m + 10 - i)) ∧
      t.frame.calcCrc = crc6Reg ((samples.drop (d + 3)).take (n + m + 2)) ^^^ 0x3F ∧
      t.frame.crcOk = (t.frame.calcCrc == t.frame.rcvCrc) ∧ t.frame.held = true ∧
      CapShows samples t ∧ t.raw = (assemble t).raw ∧
      t.seq.t = s.cal.flen ∧ t.seq.k = s.cal.flen ∧ t.seq.nt.toNat = (s.cal.flen.toNat + 31) / 32 ∧
      t.seq.trial = s.seq.trial ∧
      (t.frame.crcOk = true → TracksFrame s t.frame.mt t.frame.st t.trk ∧ t.crcErrCnt = s.crcErrCnt) ∧
      (t.frame.crcOk = false → t.trk = s.trk ∧ t.crcErrCnt = s.crcErrCnt + 1) ∧
      t = { s with
        chain := t.chain, seq := t.seq, raw := t.raw, frame := t.frame, trk := t.trk, crcErrCnt := t.crcErrCnt
        err := .none
        irqStatus := s.irqStatus ||| (if t.frame.crcOk then 0b0001 else 0b0101)
        fsm := .idle
        encBits := rest
        ma := true
        pubValid := t.frame.crcOk
        clk := s.clk + (1 + 2 * (s.baudDiv + 1) * s.cal.flen.toNat + 1) }

/-! ## CRC-6 -/

/-- The running register, bit by bit (R291). -/
def Obligations.CrcRegisterFollowsLfsrEquations : Prop :=
  crc6Reg [] = 0 ∧
  (∀ (bits : List Bool) (b : Bool), crc6Reg (bits ++ [b]) = crcStep (crc6Reg bits) b) ∧
  ∀ (c : BitVec 6) (b : Bool),
    let fb := c.getLsbD 5 ^^ b
    let c' := crcStep c b
    c'.getLsbD 0 = fb ∧ c'.getLsbD 1 = (c.getLsbD 0 ^^ fb) ∧ c'.getLsbD 2 = c.getLsbD 1 ∧
      c'.getLsbD 3 = c.getLsbD 2 ∧ c'.getLsbD 4 = c.getLsbD 3 ∧ c'.getLsbD 5 = c.getLsbD 4

/-- The register is the remainder of the message times x^6 by x^6 + x + 1 over GF(2) (R293, R290). -/
def Obligations.CrcIsPolynomialRemainder : Prop :=
  ∀ bits : List Bool,
    (∑ i ∈ Finset.range 6, if (crc6Reg bits).getLsbD i then (Polynomial.X : Polynomial (ZMod 2)) ^ i else 0) =
      ((∑ t ∈ Finset.range bits.length,
          if bits.getD t false then (Polynomial.X : Polynomial (ZMod 2)) ^ (bits.length - 1 - t) else 0) *
        Polynomial.X ^ 6) %ₘ (Polynomial.X ^ 6 + Polynomial.X + 1)

/-- Every single-bit flip of a message or of its check value is caught, for L ≥ 1, and L zeros have check value 0x3F,
so that an all-zero frame fails (R297). -/
def Obligations.CrcCatchesEverySingleBitFlip : Prop :=
  (∀ bits : List Bool, bits ≠ [] →
    validate bits (crc6 bits) = true ∧
    (∀ t < bits.length, validate (bits.set t (!bits.getD t false)) (crc6 bits) = false) ∧
    (∀ k < 6, validate bits (crc6 bits ^^^ BitVec.twoPow 6 k) = false)) ∧
  (∀ l : Nat, crc6 (List.replicate l false) = 0x3F) ∧
  (∀ s : State, (validateFrame 0 s).frame.crcOk = false)

/-- An empty message validates whatever check value was received (R294, R306). -/
def Obligations.EmptyMessageAlwaysValidates : Prop :=
  ∀ (rcv : BitVec 6) (bits : List Bool),
    validate [] rcv = true ∧ (bits ≠ [] → (validate bits rcv = true ↔ crc6Reg bits ^^^ 0x3F = rcv))

/-- Reversing the words of CRC_IN, the last one right-aligned by 32 - r, gives the same bits as reading them LSB first
(R300, R301). -/
def Obligations.CrcWindowHasOneBitOrder : Prop :=
  ∀ (crcIn : List Word) (l : Nat), crcInBitsByWords crcIn l = crcInBits crcIn l

/-! ## Tracker -/

/-- The phase error is the shortest signed angle from the filtered to the raw angle: in [-2^(M-1), 2^(M-1)-1] and
congruent to their difference (R354). -/
def Obligations.PhaseErrorIsShortestAngle : Prop :=
  ∀ (m raw filt : Nat), 1 ≤ m →
    let e := toSigned m (wrapSub m raw filt)
    e ≤ 2 ^ (m - 1) - 1 ∧ -(2 ^ (m - 1) : Int) ≤ e ∧ (2 ^ m : Int) ∣ e - ((raw : Int) - filt)

/-- After LATCH_OFFSET on a frame, a good READ frame at the same position has raw angle 0 and position 0 (R364). -/
def Obligations.OffsetRoundTripIsZero : Prop :=
  ∀ s u v w : State, s.initDone = true → s.frame.held = true → s.frame.crcOk = true →
    exec .latchOffset s = .next u → v.off = u.off → CoreTurnIn .frameProc v → step v = .next w →
    w.frame.crcOk = true → w.frame.mt = s.frame.mt → w.frame.st = s.frame.st →
    w.trk.rawAng = 0 ∧ w.trk.pos = 0

/-! ## What only some events change -/

/-- MODE is set only by LATCH_OFFSET and cleared only by INIT and reset; STATUS[4] shows it (R41, R350). -/
def Obligations.ModeChangesOnlyByLatchInitReset : Prop :=
  (∀ p, (State.resetOf p).off.mode = .uncalibrated) ∧
  (∀ s : State, (statusWord s).getLsbD 4 = decide (s.off.mode = .calibrated)) ∧
  ∀ s t : State, step s = .next t →
    (s.off.mode = .uncalibrated → t.off.mode = .calibrated → RunsCommand .latchOffset s) ∧
    (s.off.mode = .calibrated → t.off.mode = .uncalibrated → RunsCommand .init s ∨ ResetNext s)

/-- INIT_DONE is set only by an INIT that completes with NONE and cleared only by reset; STATUS[1] shows it (R38). -/
def Obligations.InitDoneChangesOnlyByInitReset : Prop :=
  (∀ p, (State.resetOf p).initDone = false) ∧
  (∀ s : State, (statusWord s).getLsbD 1 = s.initDone) ∧
  ∀ s t : State, step s = .next t →
    (s.initDone = false → t.initDone = true → RunsCommand .init s ∧ t.err = .none) ∧
    (s.initDone = true → t.initDone = false → ResetNext s)

/-- CAL_FAIL is set only by a failing CAL_EVAL and cleared only by INIT and reset; while it is 1, CALIBRATE and READ end
with SESSION_FATAL (R40, R402). -/
def Obligations.CalFailLastsUntilInitOrReset : Prop :=
  ∀ s t : State, step s = .next t →
    (s.cal.fail = false → t.cal.fail = true →
      CoreTurnIn .calEval s ∧ (t.err = .noStartPattern ∨ t.err = .frameTooLong)) ∧
    (s.cal.fail = true → t.cal.fail = false → RunsCommand .init s ∨ ResetNext s) ∧
    (s.cal.fail = true → s.initDone = true → RunsCommand .calibrate s ∨ RunsCommand .read s →
      t.err = .sessionFatal ∧ t.fsm = .idle ∧ t.chain = s.chain)

/-- The offsets change only by LATCH_OFFSET, INIT and reset (R55, R56). -/
def Obligations.OffsetsChangeOnlyByLatchInitReset : Prop :=
  ∀ s t : State, step s = .next t → t.off ≠ s.off →
    RunsCommand .latchOffset s ∨ RunsCommand .init s ∨ ResetNext s

/-- The tracker registers and EST_STATE change only in the FRAME_PROC step of a READ whose CRC matched, by INIT and by
reset; pub_valid is 1 exactly after such a FRAME_PROC step (R57 to R63, R359, R431). pub_elec and pub_speed always show
ELEC and SPEED, so they keep the last good values in every other step, and show 0 after INIT (R431). -/
def Obligations.TrackerAndPublishPortFollowGoodFrames : Prop :=
  (∀ s : State, pubElec s = readOffset 0x04C s ∧ pubSpeed s = readOffset 0x048 s) ∧
  ∀ s t : State, step s = .next t →
    (t.trk ≠ s.trk ∨ pubElec t ≠ pubElec s ∨ pubSpeed t ≠ pubSpeed s →
      (CoreTurnIn .frameProc s ∧ t.frame.crcOk = true) ∨ RunsCommand .init s ∨ ResetNext s) ∧
    (t.pubValid = true ↔ CoreTurnIn .frameProc s ∧ t.frame.crcOk = true) ∧
    (RunsCommand .init s → t.err = .none → pubElec t = 0 ∧ pubSpeed t = 0)

/-- The configuration a session runs with changes only by INIT and reset (R67), and what CFG0 and CFG1 hold changes no
step but an INIT (R462): of two states that differ only in them, a core step that is no INIT leaves two that differ only
so, a reset edge leaves one and the same, and a host access leaves two that differ only so and in the data it read. With
no sample pending, that a tick of both draws the same sample rests on the model's one free line, read at equal clk (log
entry 4). -/
def Obligations.ConfigurationTakesEffectOnlyAtInit : Prop :=
  ∀ s t : State, step s = .next t →
    (t.scfg0 ≠ s.scfg0 ∨ t.scfg1 ≠ s.scfg1 → RunsCommand .init s ∨ ResetNext s) ∧
    ∀ c0 c1 : Word,
      ((∃ s', CoreTurnNext s s') → ¬ RunsCommand .init s →
        step { s with cfg0 := c0, cfg1 := c1 } = .next { t with cfg0 := c0, cfg1 := c1 }) ∧
      (ResetNext s → step { s with cfg0 := c0, cfg1 := c1 } = .next t) ∧
      (∀ a rest, s.inbox = .access a :: rest → ∃ c0' c1' rd,
        step { s with cfg0 := c0, cfg1 := c1 } =
          .next { t with cfg0 := c0', cfg1 := c1', lastResp := { rdata := rd, err := t.lastResp.err } })

/-- Every step that ends a command sets DONE, and sets ERR when its code is not NONE (R202, R410, R411); no core step
newly sets both ERR and CRCFAIL (R415). -/
def Obligations.EveryCompletionSetsItsEvents : Prop :=
  ∀ s t : State, step s = .next t → ¬ ResetNext s →
    (s.fsm ≠ .idle → t.fsm = .idle →
      t.irqStatus.getLsbD 0 = true ∧ (t.err ≠ .none → t.irqStatus.getLsbD 1 = true)) ∧
    ¬ (s.irqStatus.getLsbD 1 = false ∧ t.irqStatus.getLsbD 1 = true ∧
       s.irqStatus.getLsbD 2 = false ∧ t.irqStatus.getLsbD 2 = true)

/-- CHAIN_ORDER changes no result: two states that differ only in it step to states that differ only in it, unless the
step is a host access (R9, R178). With no sample pending, that a tick of both draws the same sample rests on the model's
one free line, read at equal clk (log entry 4). -/
def Obligations.ChainOrderChangesNoResult : Prop :=
  ∀ (s t : State) (o : ChainOrder), (∀ a rest, s.inbox ≠ .access a :: rest) → step s = .next t →
    step { s with param := { s.param with chainOrder := o } } =
      .next { t with param := { t.param with chainOrder := o } }

/-! ## The register window -/

/-- The register map of R101, and the unassigned offsets of R103 and R432. -/
def Obligations.RegisterMapIsR101 : Prop :=
  ∀ nsMax : Nat, nsMax ≤ 15 →
    regAt nsMax 0x000 = .param ∧ regAt nsMax 0x004 = .cfg0 ∧ regAt nsMax 0x008 = .cfg1 ∧
    regAt nsMax 0x00C = .cmd ∧ regAt nsMax 0x010 = .status ∧ regAt nsMax 0x014 = .irqEn ∧
    regAt nsMax 0x018 = .irqStatus ∧ regAt nsMax 0x01C = .calDelay ∧ regAt nsMax 0x020 = .frameLen ∧
    regAt nsMax 0x024 = .mt ∧ regAt nsMax 0x028 = .st ∧ regAt nsMax 0x02C = .mtOff ∧ regAt nsMax 0x030 = .stOff ∧
    regAt nsMax 0x034 = .rawAng ∧ regAt nsMax 0x038 = .filt ∧ regAt nsMax 0x03C = .phErr ∧
    regAt nsMax 0x040 = .posLo ∧ regAt nsMax 0x044 = .posHi ∧ regAt nsMax 0x048 = .speed ∧
    regAt nsMax 0x04C = .elec ∧ regAt nsMax 0x050 = .crcErrCnt ∧ regAt nsMax 0x054 = .frameCrc ∧
    regAt nsMax 0x058 = .crcRes ∧ regAt nsMax 0x05C = .scfg0 ∧ regAt nsMax 0x060 = .scfg1 ∧
    (∀ i < nsMax, regAt nsMax (0x080 + 4 * i) = .cap i ∧ regAt nsMax (0x0C0 + 4 * i) = .raw i ∧
      regAt nsMax (0x100 + 4 * i) = .crcIn i) ∧
    (∀ off, 0x064 ≤ off → off < 0x080 → regAt nsMax off = .unassigned) ∧
    (∀ i, nsMax ≤ i → i < 16 → regAt nsMax (0x080 + 4 * i) = .unassigned ∧
      regAt nsMax (0x0C0 + 4 * i) = .unassigned ∧ regAt nsMax (0x100 + 4 * i) = .unassigned) ∧
    (∀ off, 0x140 ≤ off → off < 0x200 → regAt nsMax off = .unassigned)

/-- A CMD write in IDLE is accepted, sets BUSY within the access and records the word and its opcode; in any other
state it is dropped, sets OVR and leaves the running command alone (R200, R111, R413). That the write answers no read
data is the model's choice (log entry 9). -/
def Obligations.CmdWriteIsAcceptedOrDropped : Prop :=
  ∀ (s : State) (w : Word),
    (s.fsm = .idle →
      busAccess (hostWrite 0x00C w) s = { s with
        curCmd := w, lastOp := w.extractLsb' 0 4, fsm := .exec, lastResp := { rdata := none, err := false } } ∧
      (busAccess (hostWrite 0x00C w) s).busy = true) ∧
    (s.fsm ≠ .idle →
      busAccess (hostWrite 0x00C w) s = { s with
        irqStatus := s.irqStatus ||| 0b1000, lastResp := { rdata := none, err := false } })

/-- An access the window does not support, or one with both strobes, gets bus_err and changes no state, and a read
returns 0 (R105, R432). That a refused write answers no read data is the model's choice (log entry 9). -/
def Obligations.UnsupportedAccessIsRefused : Prop :=
  ∀ (a : BusAccess) (s : State), a.we = true ∨ a.re = true →
    (a.we = true ∧ a.re = true) ∨ a.size ≠ .word ∨ a.addr.toNat % 4 ≠ 0 →
    busAccess a s = { s with lastResp := { rdata := if a.re then some 0 else none, err := true } }

/-- A supported read returns the register at its offset and changes no state, CAP included (R104, R107); and each
register reads as its rule lays it out: PARAM (R32), STATUS (R36) with the codes of R47 and R400, IRQ_EN and IRQ_STATUS
(R49, R50), FRAME_LEN (R52), POS_LO and POS_HI (R60), FRAME_CRC (R65), CRC_RES (R66), CMD as 0 (R35), and every other
one as its own value (R51 to R64, R67, R69, R72). CAP is AssemblyUndoesTheNumbering's. -/
def Obligations.ReadsReturnTheRegistersAndChangeNothing : Prop :=
  (∀ (a : BusAccess) (s : State), a.re = true → a.we = false → a.size = .word → a.addr.toNat % 4 = 0 →
    busAccess a s = { s with lastResp := { rdata := some (readOffset a.addr.toNat s), err := false } }) ∧
  ∀ s : State, s.param.Legal →
    (let w := readOffset 0x000 s
     (w.extractLsb' 0 4).toNat = s.param.nsMax ∧ w.getLsbD 4 = decide (s.param.chainOrder = .lowFirst) ∧
       (w.extractLsb' 5 6).toNat = s.param.spdW ∧ w.extractLsb' 11 5 = 0 ∧
       (w.extractLsb' 16 16).toNat = s.param.delayMax) ∧
    readOffset 0x004 s = s.cfg0 ∧ readOffset 0x008 s = s.cfg1 ∧ readOffset 0x00C s = 0 ∧
    (let w := readOffset 0x010 s
     w.getLsbD 0 = decide (s.fsm ≠ .idle) ∧ w.getLsbD 1 = s.initDone ∧ w.getLsbD 2 = s.cal.done ∧
       w.getLsbD 3 = s.cal.fail ∧ w.getLsbD 4 = decide (s.off.mode = .calibrated) ∧ w.getLsbD 5 = s.frame.held ∧
       w.getLsbD 6 = s.frame.crcOk ∧ w.getLsbD 7 = s.frame.errBit ∧ w.getLsbD 8 = s.frame.warnBit ∧
       w.extractLsb' 9 3 = 0 ∧
       w.extractLsb' 12 4 =
         (match s.err with
          | .none => 0
          | .noStartPattern => 1
          | .frameTooLong => 2
          | .badConfig => 3
          | .notInitialised => 4
          | .notCalibrated => 5
          | .sessionFatal => 6
          | .illegalCmd => 7
          | .noFrame => 8
          | .badLen => 9) ∧
       w.extractLsb' 16 4 =
         (match s.fsm with
          | .idle => 0
          | .exec => 1
          | .calRun => 2
          | .calEval => 3
          | .frameRun => 4
          | .frameProc => 5) ∧
       w.extractLsb' 20 4 = s.lastOp ∧ w.extractLsb' 24 8 = 0) ∧
    (∀ j < 32, (readOffset 0x014 s).getLsbD j = (decide (j < 4) && s.irqEn.getLsbD j)) ∧
    (∀ j < 32, (readOffset 0x018 s).getLsbD j = (decide (j < 4) && s.irqStatus.getLsbD j)) ∧
    (readOffset 0x01C s).toNat = s.cal.delay.toNat ∧
    (let w := readOffset 0x020 s
     w.extractLsb' 0 16 = s.cal.flen ∧ w.extractLsb' 16 4 = s.cal.nsa ∧ w.extractLsb' 20 12 = 0) ∧
    readOffset 0x024 s = s.frame.mt ∧ readOffset 0x028 s = s.frame.st ∧
    readOffset 0x02C s = s.off.mt ∧ readOffset 0x030 s = s.off.st ∧
    readOffset 0x034 s = s.trk.rawAng ∧ readOffset 0x038 s = s.trk.filt ∧ readOffset 0x03C s = s.trk.phErr ∧
    (readOffset 0x040 s).toNat = s.trk.pos.toNat % 2 ^ 32 ∧ (readOffset 0x044 s).toNat = s.trk.pos.toNat / 2 ^ 32 ∧
    readOffset 0x048 s = s.trk.speed ∧ readOffset 0x04C s = s.trk.elec ∧ readOffset 0x050 s = s.crcErrCnt ∧
    (let w := readOffset 0x054 s
     w.extractLsb' 0 6 = s.frame.rcvCrc ∧ w.extractLsb' 6 2 = 0 ∧ w.extractLsb' 8 6 = s.frame.calcCrc ∧
       w.extractLsb' 14 18 = 0) ∧
    (let w := readOffset 0x058 s
     w.getLsbD 0 = s.crcRes.ok ∧ w.extractLsb' 1 7 = 0 ∧ w.extractLsb' 8 6 = s.crcRes.calcCrc ∧
       w.extractLsb' 14 2 = 0 ∧ w.extractLsb' 16 6 = s.crcRes.rcvCrc ∧ w.extractLsb' 22 10 = 0) ∧
    readOffset 0x05C s = s.scfg0 ∧ readOffset 0x060 s = s.scfg1 ∧
    (∀ i < s.param.nsMax,
      readOffset (0x0C0 + 4 * i) s = s.raw.getD i 0 ∧ readOffset (0x100 + 4 * i) s = s.crcIn.getD i 0) ∧
    (∀ off < 0x200, off % 4 = 0 → regAt s.param.nsMax off = .unassigned → readOffset off s = 0)

/-- What a supported write makes its own register read as (R33, R49, R50, R69, R72, R103, R104): every writable bit
replaced, reserved bits 0, pending bits cleared by ones, RAW only while idle, and every other register kept. That a CAP
register written while its chain shifts reads as before is the model's reading of R107 against R460's any value (log
entry 5). -/
def Obligations.WriteReplacesWritableBits : Prop :=
  ∀ (s : State) (off : Nat) (v : Word), BuffersOk s → off < 0x200 → off % 4 = 0 → off ≠ 0x00C →
    readOffset off (busAccess (hostWrite off v) s) =
      (match regAt s.param.nsMax off with
       | .cfg0 => v &&& 0x00FF3F3F
       | .cfg1 => v
       | .irqEn => v &&& 0xF
       | .irqStatus => readOffset off s &&& ~~~v
       | .raw _ => if s.fsm = .idle then v else readOffset off s
       | .crcIn _ => v
       | _ => readOffset off s)

/-- A supported write to any register but CMD leaves every other offset reading as before, and with it all of the core
but the four writable registers and the two buffers (R103, R104, R107, R108). That a CAP register reads as before while
its chain shifts is the model's reading of R107 against R460's any value (log entry 5), and that the write answers no read
data is the model's choice (log entry 9). -/
def Obligations.WriteLeavesOtherOffsets : Prop :=
  ∀ (s t : State) (off : Nat) (v : Word), off < 0x200 → off % 4 = 0 → off ≠ 0x00C →
    t = busAccess (hostWrite off v) s →
    (∀ off' < 0x200, off' % 4 = 0 → off' ≠ off → readOffset off' t = readOffset off' s) ∧
    t = { s with cfg0 := t.cfg0, cfg1 := t.cfg1, irqEn := t.irqEn, irqStatus := t.irqStatus, raw := t.raw,
                 crcIn := t.crcIn, lastResp := { rdata := none, err := false } }

/-- The `irq` line is up exactly when an enabled source is pending (R414). -/
def Obligations.IrqLineIsEnabledPending : Prop :=
  ∀ s : State, irqOut s = true ↔ ∃ i < 4, s.irqStatus.getLsbD i = true ∧ s.irqEn.getLsbD i = true

/-- A word written by the host to RAW or CRC_IN is the word the command reads: DECODE of the written frame word and
CRC_CHECK of the written window see it (R145, R146). -/
def Obligations.BufferWritesReachTheCommands : Prop :=
  ∀ (s : State) (i : Nat) (v : Word), BuffersOk s → i < s.param.nsMax → s.param.nsMax ≤ 15 → s.fsm = .idle →
    (∀ j < 32, (frameWord (i + 1) (busAccess (hostWrite (0x0C0 + 4 * i) v) s).raw).testBit j = v.getLsbD j) ∧
    (∀ j < 32, (crcInBits (busAccess (hostWrite (0x100 + 4 * i) v) s).crcIn (32 * i + 32)).getD (32 * i + j) false
      = v.getLsbD j)

/-! ## Reset and the invariant -/

/-- After reset PARAM is as the instance has it, every other register of the window reads 0, the core is in IDLE with
MA high, EST_STATE is EST_INIT and no output is active, for every instance (R78). A clk edge with rst_n = 0 leaves these
values whatever the core did before; the access presented with it has no effect, a read returns 0 without bus_err, and
the core accepts a CMD write next (R450). -/
def Obligations.ResetLeavesTheStatedValues : Prop :=
  (∀ p : Params, (State.resetOf p).param = p ∧ HasResetValues (State.resetOf p)) ∧
  ∀ (s : State) (presented : Option BusAccess),
    let t := resetEdge presented s
    t.param = s.param ∧ HasResetValues t ∧
      (∀ a, presented = some a → a.re = true → t.lastResp.rdata = some 0) ∧
      ∀ w : Word,
        (busAccess (hostWrite 0x00C w) t).fsm = .exec ∧ (busAccess (hostWrite 0x00C w) t).curCmd = w

/-- A reset edge in any state ends whatever runs with no result, no completion bit and no interrupt, ignores the access
presented, and gives every register its reset value; the design parameters stay (R450 to R452). That the edge is an event
of the model's list is the model's choice (log entry 7). -/
def Obligations.ResetEdgeEndsEverything : Prop :=
  ∀ (s : State) (presented : Option BusAccess) (rest : List HostEvent), s.inbox = .resetEdge presented :: rest →
    ∃ t : State, step s = .next t ∧ t.param = s.param ∧ HasResetValues t ∧
      (∀ v, t.lastResp.rdata = some v → v = 0) ∧ t.inbox = rest ∧ t.encBits = s.encBits

/-- The invariant holds after reset, for every legal instance. -/
def Obligations.InvariantHoldsAtReset : Prop :=
  Inv State.reset ∧ ∀ p : Params, p.Legal → Inv (State.resetOf p)

/-- The invariant is kept by every step from every state that has it, whatever the host, the encoder, the estimator and
a reset do: buffers keep their sizes, reserved bits stay 0, a live session is legal, fields stay within their widths,
a transaction fits the chain, a calibration holds the frame length of R236, and CAL_FAIL excludes CAL_DONE. -/
def Obligations.EveryStepKeepsTheInvariant : Prop :=
  ∀ s t : State, Inv s → step s = .next t → Inv t

/-! ## Events -/

/-- A host access that is the next event is a step of its own: the step is that access, with the event taken off the
list and pub_valid at 0 (R106, R111, R415). A core turn in IDLE changes no register, no buffer and no internal value of
the spec's (R70, R71). The list of events, the fall of pub_valid at an access and the clk cycle of an idle turn are the
model's own (log entries 6, 15 and 2). -/
def Obligations.AccessesAndIdleTurnsAreSteps : Prop :=
  (∀ (s : State) (a : BusAccess) (rest : List HostEvent), s.inbox = .access a :: rest →
    step s = .next (busAccess a { s with inbox := rest, pubValid := false })) ∧
  ∀ s s' : State, CoreTurnNext s s' → s.fsm = .idle →
    step s = .next { s' with clk := s.clk + 1, pubValid := false }
end

