-- ==== Sys2Proof/Laws/State.lean ====
section
/-! SUPPORT. One lemma per field per update of State, and per value read from its fields, all true by rfl: no later
proof unfolds a record update. -/

namespace Sys2Proof.Machine

@[simp] theorem finish_param (code : ErrCode) (s : State) : (finish code s).param = s.param := rfl
@[simp] theorem finish_cfg0 (code : ErrCode) (s : State) : (finish code s).cfg0 = s.cfg0 := rfl
@[simp] theorem finish_cfg1 (code : ErrCode) (s : State) : (finish code s).cfg1 = s.cfg1 := rfl
@[simp] theorem finish_scfg0 (code : ErrCode) (s : State) : (finish code s).scfg0 = s.scfg0 := rfl
@[simp] theorem finish_scfg1 (code : ErrCode) (s : State) : (finish code s).scfg1 = s.scfg1 := rfl
@[simp] theorem finish_initDone (code : ErrCode) (s : State) : (finish code s).initDone = s.initDone := rfl
@[simp] theorem finish_err (code : ErrCode) (s : State) : (finish code s).err = code := rfl
@[simp] theorem finish_fsm (code : ErrCode) (s : State) : (finish code s).fsm = .idle := rfl
@[simp] theorem finish_lastOp (code : ErrCode) (s : State) : (finish code s).lastOp = s.lastOp := rfl
@[simp] theorem finish_curCmd (code : ErrCode) (s : State) : (finish code s).curCmd = s.curCmd := rfl
@[simp] theorem finish_irqEn (code : ErrCode) (s : State) : (finish code s).irqEn = s.irqEn := rfl
@[simp] theorem finish_irqStatus (code : ErrCode) (s : State) : (finish code s).irqStatus = s.irqStatus ||| irqOfCompletion code := rfl
@[simp] theorem finish_cal (code : ErrCode) (s : State) : (finish code s).cal = s.cal := rfl
@[simp] theorem finish_frame (code : ErrCode) (s : State) : (finish code s).frame = s.frame := rfl
@[simp] theorem finish_off (code : ErrCode) (s : State) : (finish code s).off = s.off := rfl
@[simp] theorem finish_trk (code : ErrCode) (s : State) : (finish code s).trk = s.trk := rfl
@[simp] theorem finish_crcErrCnt (code : ErrCode) (s : State) : (finish code s).crcErrCnt = s.crcErrCnt := rfl
@[simp] theorem finish_crcRes (code : ErrCode) (s : State) : (finish code s).crcRes = s.crcRes := rfl
@[simp] theorem finish_raw (code : ErrCode) (s : State) : (finish code s).raw = s.raw := rfl
@[simp] theorem finish_crcIn (code : ErrCode) (s : State) : (finish code s).crcIn = s.crcIn := rfl
@[simp] theorem finish_chain (code : ErrCode) (s : State) : (finish code s).chain = s.chain := rfl
@[simp] theorem finish_seq (code : ErrCode) (s : State) : (finish code s).seq = s.seq := rfl
@[simp] theorem finish_ma (code : ErrCode) (s : State) : (finish code s).ma = s.ma := rfl
@[simp] theorem finish_lastResp (code : ErrCode) (s : State) : (finish code s).lastResp = s.lastResp := rfl
@[simp] theorem finish_pubValid (code : ErrCode) (s : State) : (finish code s).pubValid = s.pubValid := rfl
@[simp] theorem finish_inbox (code : ErrCode) (s : State) : (finish code s).inbox = s.inbox := rfl
@[simp] theorem finish_encBits (code : ErrCode) (s : State) : (finish code s).encBits = s.encBits := rfl
@[simp] theorem finish_clk (code : ErrCode) (s : State) : (finish code s).clk = s.clk := rfl
@[simp] theorem finish_mtWidth (code : ErrCode) (s : State) : (finish code s).mtWidth = s.mtWidth := rfl
@[simp] theorem finish_stWidth (code : ErrCode) (s : State) : (finish code s).stWidth = s.stWidth := rfl
@[simp] theorem finish_polePairs (code : ErrCode) (s : State) : (finish code s).polePairs = s.polePairs := rfl
@[simp] theorem finish_baudDiv (code : ErrCode) (s : State) : (finish code s).baudDiv = s.baudDiv := rfl
@[simp] theorem finish_calLen (code : ErrCode) (s : State) : (finish code s).calLen = s.calLen := rfl
@[simp] theorem finish_capBits (code : ErrCode) (s : State) : (finish code s).capBits = s.capBits := rfl

@[simp] theorem ackIrq_param (ones : BitVec 4) (s : State) : (ackIrq ones s).param = s.param := rfl
@[simp] theorem ackIrq_cfg0 (ones : BitVec 4) (s : State) : (ackIrq ones s).cfg0 = s.cfg0 := rfl
@[simp] theorem ackIrq_cfg1 (ones : BitVec 4) (s : State) : (ackIrq ones s).cfg1 = s.cfg1 := rfl
@[simp] theorem ackIrq_scfg0 (ones : BitVec 4) (s : State) : (ackIrq ones s).scfg0 = s.scfg0 := rfl
@[simp] theorem ackIrq_scfg1 (ones : BitVec 4) (s : State) : (ackIrq ones s).scfg1 = s.scfg1 := rfl
@[simp] theorem ackIrq_initDone (ones : BitVec 4) (s : State) : (ackIrq ones s).initDone = s.initDone := rfl
@[simp] theorem ackIrq_err (ones : BitVec 4) (s : State) : (ackIrq ones s).err = s.err := rfl
@[simp] theorem ackIrq_fsm (ones : BitVec 4) (s : State) : (ackIrq ones s).fsm = s.fsm := rfl
@[simp] theorem ackIrq_lastOp (ones : BitVec 4) (s : State) : (ackIrq ones s).lastOp = s.lastOp := rfl
@[simp] theorem ackIrq_curCmd (ones : BitVec 4) (s : State) : (ackIrq ones s).curCmd = s.curCmd := rfl
@[simp] theorem ackIrq_irqEn (ones : BitVec 4) (s : State) : (ackIrq ones s).irqEn = s.irqEn := rfl
@[simp] theorem ackIrq_irqStatus (ones : BitVec 4) (s : State) : (ackIrq ones s).irqStatus = s.irqStatus &&& ~~~ones := rfl
@[simp] theorem ackIrq_cal (ones : BitVec 4) (s : State) : (ackIrq ones s).cal = s.cal := rfl
@[simp] theorem ackIrq_frame (ones : BitVec 4) (s : State) : (ackIrq ones s).frame = s.frame := rfl
@[simp] theorem ackIrq_off (ones : BitVec 4) (s : State) : (ackIrq ones s).off = s.off := rfl
@[simp] theorem ackIrq_trk (ones : BitVec 4) (s : State) : (ackIrq ones s).trk = s.trk := rfl
@[simp] theorem ackIrq_crcErrCnt (ones : BitVec 4) (s : State) : (ackIrq ones s).crcErrCnt = s.crcErrCnt := rfl
@[simp] theorem ackIrq_crcRes (ones : BitVec 4) (s : State) : (ackIrq ones s).crcRes = s.crcRes := rfl
@[simp] theorem ackIrq_raw (ones : BitVec 4) (s : State) : (ackIrq ones s).raw = s.raw := rfl
@[simp] theorem ackIrq_crcIn (ones : BitVec 4) (s : State) : (ackIrq ones s).crcIn = s.crcIn := rfl
@[simp] theorem ackIrq_chain (ones : BitVec 4) (s : State) : (ackIrq ones s).chain = s.chain := rfl
@[simp] theorem ackIrq_seq (ones : BitVec 4) (s : State) : (ackIrq ones s).seq = s.seq := rfl
@[simp] theorem ackIrq_ma (ones : BitVec 4) (s : State) : (ackIrq ones s).ma = s.ma := rfl
@[simp] theorem ackIrq_lastResp (ones : BitVec 4) (s : State) : (ackIrq ones s).lastResp = s.lastResp := rfl
@[simp] theorem ackIrq_pubValid (ones : BitVec 4) (s : State) : (ackIrq ones s).pubValid = s.pubValid := rfl
@[simp] theorem ackIrq_inbox (ones : BitVec 4) (s : State) : (ackIrq ones s).inbox = s.inbox := rfl
@[simp] theorem ackIrq_encBits (ones : BitVec 4) (s : State) : (ackIrq ones s).encBits = s.encBits := rfl
@[simp] theorem ackIrq_clk (ones : BitVec 4) (s : State) : (ackIrq ones s).clk = s.clk := rfl
@[simp] theorem ackIrq_mtWidth (ones : BitVec 4) (s : State) : (ackIrq ones s).mtWidth = s.mtWidth := rfl
@[simp] theorem ackIrq_stWidth (ones : BitVec 4) (s : State) : (ackIrq ones s).stWidth = s.stWidth := rfl
@[simp] theorem ackIrq_polePairs (ones : BitVec 4) (s : State) : (ackIrq ones s).polePairs = s.polePairs := rfl
@[simp] theorem ackIrq_baudDiv (ones : BitVec 4) (s : State) : (ackIrq ones s).baudDiv = s.baudDiv := rfl
@[simp] theorem ackIrq_calLen (ones : BitVec 4) (s : State) : (ackIrq ones s).calLen = s.calLen := rfl
@[simp] theorem ackIrq_capBits (ones : BitVec 4) (s : State) : (ackIrq ones s).capBits = s.capBits := rfl
@[simp] theorem ackIrq_busy (ones : BitVec 4) (s : State) : (ackIrq ones s).busy = s.busy := rfl
@[simp] theorem ackIrq_capturing (ones : BitVec 4) (s : State) : (ackIrq ones s).capturing = s.capturing := rfl

@[simp] theorem acceptCmd_param (w : Word) (s : State) : (acceptCmd w s).param = s.param := rfl
@[simp] theorem acceptCmd_cfg0 (w : Word) (s : State) : (acceptCmd w s).cfg0 = s.cfg0 := rfl
@[simp] theorem acceptCmd_cfg1 (w : Word) (s : State) : (acceptCmd w s).cfg1 = s.cfg1 := rfl
@[simp] theorem acceptCmd_scfg0 (w : Word) (s : State) : (acceptCmd w s).scfg0 = s.scfg0 := rfl
@[simp] theorem acceptCmd_scfg1 (w : Word) (s : State) : (acceptCmd w s).scfg1 = s.scfg1 := rfl
@[simp] theorem acceptCmd_initDone (w : Word) (s : State) : (acceptCmd w s).initDone = s.initDone := rfl
@[simp] theorem acceptCmd_err (w : Word) (s : State) : (acceptCmd w s).err = s.err := rfl
@[simp] theorem acceptCmd_fsm (w : Word) (s : State) : (acceptCmd w s).fsm = .exec := rfl
@[simp] theorem acceptCmd_lastOp (w : Word) (s : State) : (acceptCmd w s).lastOp = opField w := rfl
@[simp] theorem acceptCmd_curCmd (w : Word) (s : State) : (acceptCmd w s).curCmd = w := rfl
@[simp] theorem acceptCmd_irqEn (w : Word) (s : State) : (acceptCmd w s).irqEn = s.irqEn := rfl
@[simp] theorem acceptCmd_irqStatus (w : Word) (s : State) : (acceptCmd w s).irqStatus = s.irqStatus := rfl
@[simp] theorem acceptCmd_cal (w : Word) (s : State) : (acceptCmd w s).cal = s.cal := rfl
@[simp] theorem acceptCmd_frame (w : Word) (s : State) : (acceptCmd w s).frame = s.frame := rfl
@[simp] theorem acceptCmd_off (w : Word) (s : State) : (acceptCmd w s).off = s.off := rfl
@[simp] theorem acceptCmd_trk (w : Word) (s : State) : (acceptCmd w s).trk = s.trk := rfl
@[simp] theorem acceptCmd_crcErrCnt (w : Word) (s : State) : (acceptCmd w s).crcErrCnt = s.crcErrCnt := rfl
@[simp] theorem acceptCmd_crcRes (w : Word) (s : State) : (acceptCmd w s).crcRes = s.crcRes := rfl
@[simp] theorem acceptCmd_raw (w : Word) (s : State) : (acceptCmd w s).raw = s.raw := rfl
@[simp] theorem acceptCmd_crcIn (w : Word) (s : State) : (acceptCmd w s).crcIn = s.crcIn := rfl
@[simp] theorem acceptCmd_chain (w : Word) (s : State) : (acceptCmd w s).chain = s.chain := rfl
@[simp] theorem acceptCmd_seq (w : Word) (s : State) : (acceptCmd w s).seq = s.seq := rfl
@[simp] theorem acceptCmd_ma (w : Word) (s : State) : (acceptCmd w s).ma = s.ma := rfl
@[simp] theorem acceptCmd_lastResp (w : Word) (s : State) : (acceptCmd w s).lastResp = s.lastResp := rfl
@[simp] theorem acceptCmd_pubValid (w : Word) (s : State) : (acceptCmd w s).pubValid = s.pubValid := rfl
@[simp] theorem acceptCmd_inbox (w : Word) (s : State) : (acceptCmd w s).inbox = s.inbox := rfl
@[simp] theorem acceptCmd_encBits (w : Word) (s : State) : (acceptCmd w s).encBits = s.encBits := rfl
@[simp] theorem acceptCmd_clk (w : Word) (s : State) : (acceptCmd w s).clk = s.clk := rfl
@[simp] theorem acceptCmd_mtWidth (w : Word) (s : State) : (acceptCmd w s).mtWidth = s.mtWidth := rfl
@[simp] theorem acceptCmd_stWidth (w : Word) (s : State) : (acceptCmd w s).stWidth = s.stWidth := rfl
@[simp] theorem acceptCmd_polePairs (w : Word) (s : State) : (acceptCmd w s).polePairs = s.polePairs := rfl
@[simp] theorem acceptCmd_baudDiv (w : Word) (s : State) : (acceptCmd w s).baudDiv = s.baudDiv := rfl
@[simp] theorem acceptCmd_calLen (w : Word) (s : State) : (acceptCmd w s).calLen = s.calLen := rfl
@[simp] theorem acceptCmd_capBits (w : Word) (s : State) : (acceptCmd w s).capBits = s.capBits := rfl

@[simp] theorem sessionReset_param (s : State) : (sessionReset s).param = s.param := rfl
@[simp] theorem sessionReset_cfg0 (s : State) : (sessionReset s).cfg0 = s.cfg0 := rfl
@[simp] theorem sessionReset_cfg1 (s : State) : (sessionReset s).cfg1 = s.cfg1 := rfl
@[simp] theorem sessionReset_scfg0 (s : State) : (sessionReset s).scfg0 = s.scfg0 := rfl
@[simp] theorem sessionReset_scfg1 (s : State) : (sessionReset s).scfg1 = s.scfg1 := rfl
@[simp] theorem sessionReset_initDone (s : State) : (sessionReset s).initDone = s.initDone := rfl
@[simp] theorem sessionReset_err (s : State) : (sessionReset s).err = s.err := rfl
@[simp] theorem sessionReset_fsm (s : State) : (sessionReset s).fsm = s.fsm := rfl
@[simp] theorem sessionReset_lastOp (s : State) : (sessionReset s).lastOp = s.lastOp := rfl
@[simp] theorem sessionReset_curCmd (s : State) : (sessionReset s).curCmd = s.curCmd := rfl
@[simp] theorem sessionReset_irqEn (s : State) : (sessionReset s).irqEn = s.irqEn := rfl
@[simp] theorem sessionReset_irqStatus (s : State) : (sessionReset s).irqStatus = s.irqStatus := rfl
@[simp] theorem sessionReset_cal (s : State) : (sessionReset s).cal = .cleared := rfl
@[simp] theorem sessionReset_frame (s : State) : (sessionReset s).frame = .cleared := rfl
@[simp] theorem sessionReset_off (s : State) : (sessionReset s).off = .cleared := rfl
@[simp] theorem sessionReset_trk (s : State) : (sessionReset s).trk = .cleared := rfl
@[simp] theorem sessionReset_crcErrCnt (s : State) : (sessionReset s).crcErrCnt = 0 := rfl
@[simp] theorem sessionReset_crcRes (s : State) : (sessionReset s).crcRes = s.crcRes := rfl
@[simp] theorem sessionReset_raw (s : State) : (sessionReset s).raw = s.raw := rfl
@[simp] theorem sessionReset_crcIn (s : State) : (sessionReset s).crcIn = s.crcIn := rfl
@[simp] theorem sessionReset_chain (s : State) : (sessionReset s).chain = s.chain := rfl
@[simp] theorem sessionReset_seq (s : State) : (sessionReset s).seq = s.seq := rfl
@[simp] theorem sessionReset_ma (s : State) : (sessionReset s).ma = s.ma := rfl
@[simp] theorem sessionReset_lastResp (s : State) : (sessionReset s).lastResp = s.lastResp := rfl
@[simp] theorem sessionReset_pubValid (s : State) : (sessionReset s).pubValid = s.pubValid := rfl
@[simp] theorem sessionReset_inbox (s : State) : (sessionReset s).inbox = s.inbox := rfl
@[simp] theorem sessionReset_encBits (s : State) : (sessionReset s).encBits = s.encBits := rfl
@[simp] theorem sessionReset_clk (s : State) : (sessionReset s).clk = s.clk := rfl
@[simp] theorem sessionReset_mtWidth (s : State) : (sessionReset s).mtWidth = s.mtWidth := rfl
@[simp] theorem sessionReset_stWidth (s : State) : (sessionReset s).stWidth = s.stWidth := rfl
@[simp] theorem sessionReset_polePairs (s : State) : (sessionReset s).polePairs = s.polePairs := rfl
@[simp] theorem sessionReset_baudDiv (s : State) : (sessionReset s).baudDiv = s.baudDiv := rfl
@[simp] theorem sessionReset_calLen (s : State) : (sessionReset s).calLen = s.calLen := rfl
@[simp] theorem sessionReset_capBits (s : State) : (sessionReset s).capBits = s.capBits := rfl
@[simp] theorem sessionReset_busy (s : State) : (sessionReset s).busy = s.busy := rfl
@[simp] theorem sessionReset_capturing (s : State) : (sessionReset s).capturing = s.capturing := rfl

@[simp] theorem startTransaction_param (t : BitVec 16) (s : State) : (startTransaction t s).param = s.param := rfl
@[simp] theorem startTransaction_cfg0 (t : BitVec 16) (s : State) : (startTransaction t s).cfg0 = s.cfg0 := rfl
@[simp] theorem startTransaction_cfg1 (t : BitVec 16) (s : State) : (startTransaction t s).cfg1 = s.cfg1 := rfl
@[simp] theorem startTransaction_scfg0 (t : BitVec 16) (s : State) : (startTransaction t s).scfg0 = s.scfg0 := rfl
@[simp] theorem startTransaction_scfg1 (t : BitVec 16) (s : State) : (startTransaction t s).scfg1 = s.scfg1 := rfl
@[simp] theorem startTransaction_initDone (t : BitVec 16) (s : State) : (startTransaction t s).initDone = s.initDone := rfl
@[simp] theorem startTransaction_err (t : BitVec 16) (s : State) : (startTransaction t s).err = s.err := rfl
@[simp] theorem startTransaction_fsm (t : BitVec 16) (s : State) : (startTransaction t s).fsm = s.fsm := rfl
@[simp] theorem startTransaction_lastOp (t : BitVec 16) (s : State) : (startTransaction t s).lastOp = s.lastOp := rfl
@[simp] theorem startTransaction_curCmd (t : BitVec 16) (s : State) : (startTransaction t s).curCmd = s.curCmd := rfl
@[simp] theorem startTransaction_irqEn (t : BitVec 16) (s : State) : (startTransaction t s).irqEn = s.irqEn := rfl
@[simp] theorem startTransaction_irqStatus (t : BitVec 16) (s : State) : (startTransaction t s).irqStatus = s.irqStatus := rfl
@[simp] theorem startTransaction_cal (t : BitVec 16) (s : State) : (startTransaction t s).cal = s.cal := rfl
@[simp] theorem startTransaction_frame (t : BitVec 16) (s : State) : (startTransaction t s).frame = s.frame := rfl
@[simp] theorem startTransaction_off (t : BitVec 16) (s : State) : (startTransaction t s).off = s.off := rfl
@[simp] theorem startTransaction_trk (t : BitVec 16) (s : State) : (startTransaction t s).trk = s.trk := rfl
@[simp] theorem startTransaction_crcErrCnt (t : BitVec 16) (s : State) : (startTransaction t s).crcErrCnt = s.crcErrCnt := rfl
@[simp] theorem startTransaction_crcRes (t : BitVec 16) (s : State) : (startTransaction t s).crcRes = s.crcRes := rfl
@[simp] theorem startTransaction_raw (t : BitVec 16) (s : State) : (startTransaction t s).raw = s.raw := rfl
@[simp] theorem startTransaction_crcIn (t : BitVec 16) (s : State) : (startTransaction t s).crcIn = s.crcIn := rfl
@[simp] theorem startTransaction_chain (t : BitVec 16) (s : State) : (startTransaction t s).chain = List.replicate s.param.nsMax 0 := rfl
@[simp] theorem startTransaction_seq (t : BitVec 16) (s : State) : (startTransaction t s).seq = { s.seq with t := t, k := 0, nt := BitVec.ofNat 4 (ceilDiv t.toNat 32) } := rfl
@[simp] theorem startTransaction_ma (t : BitVec 16) (s : State) : (startTransaction t s).ma = s.ma := rfl
@[simp] theorem startTransaction_lastResp (t : BitVec 16) (s : State) : (startTransaction t s).lastResp = s.lastResp := rfl
@[simp] theorem startTransaction_pubValid (t : BitVec 16) (s : State) : (startTransaction t s).pubValid = s.pubValid := rfl
@[simp] theorem startTransaction_inbox (t : BitVec 16) (s : State) : (startTransaction t s).inbox = s.inbox := rfl
@[simp] theorem startTransaction_encBits (t : BitVec 16) (s : State) : (startTransaction t s).encBits = s.encBits := rfl
@[simp] theorem startTransaction_clk (t : BitVec 16) (s : State) : (startTransaction t s).clk = s.clk := rfl
@[simp] theorem startTransaction_mtWidth (t : BitVec 16) (s : State) : (startTransaction t s).mtWidth = s.mtWidth := rfl
@[simp] theorem startTransaction_stWidth (t : BitVec 16) (s : State) : (startTransaction t s).stWidth = s.stWidth := rfl
@[simp] theorem startTransaction_polePairs (t : BitVec 16) (s : State) : (startTransaction t s).polePairs = s.polePairs := rfl
@[simp] theorem startTransaction_baudDiv (t : BitVec 16) (s : State) : (startTransaction t s).baudDiv = s.baudDiv := rfl
@[simp] theorem startTransaction_calLen (t : BitVec 16) (s : State) : (startTransaction t s).calLen = s.calLen := rfl
@[simp] theorem startTransaction_capBits (t : BitVec 16) (s : State) : (startTransaction t s).capBits = s.capBits := rfl
@[simp] theorem startTransaction_busy (t : BitVec 16) (s : State) : (startTransaction t s).busy = s.busy := rfl
@[simp] theorem startTransaction_capturing (t : BitVec 16) (s : State) : (startTransaction t s).capturing = s.capturing := rfl

@[simp] theorem openSession_param (s : State) : (openSession s).param = s.param := rfl
@[simp] theorem openSession_cfg0 (s : State) : (openSession s).cfg0 = s.cfg0 := rfl
@[simp] theorem openSession_cfg1 (s : State) : (openSession s).cfg1 = s.cfg1 := rfl
@[simp] theorem openSession_scfg0 (s : State) : (openSession s).scfg0 = s.cfg0 := rfl
@[simp] theorem openSession_scfg1 (s : State) : (openSession s).scfg1 = s.cfg1 := rfl
@[simp] theorem openSession_initDone (s : State) : (openSession s).initDone = true := rfl
@[simp] theorem openSession_err (s : State) : (openSession s).err = s.err := rfl
@[simp] theorem openSession_fsm (s : State) : (openSession s).fsm = s.fsm := rfl
@[simp] theorem openSession_lastOp (s : State) : (openSession s).lastOp = s.lastOp := rfl
@[simp] theorem openSession_curCmd (s : State) : (openSession s).curCmd = s.curCmd := rfl
@[simp] theorem openSession_irqEn (s : State) : (openSession s).irqEn = s.irqEn := rfl
@[simp] theorem openSession_irqStatus (s : State) : (openSession s).irqStatus = s.irqStatus := rfl
@[simp] theorem openSession_cal (s : State) : (openSession s).cal = .cleared := rfl
@[simp] theorem openSession_frame (s : State) : (openSession s).frame = .cleared := rfl
@[simp] theorem openSession_off (s : State) : (openSession s).off = .cleared := rfl
@[simp] theorem openSession_trk (s : State) : (openSession s).trk = .cleared := rfl
@[simp] theorem openSession_crcErrCnt (s : State) : (openSession s).crcErrCnt = 0 := rfl
@[simp] theorem openSession_crcRes (s : State) : (openSession s).crcRes = s.crcRes := rfl
@[simp] theorem openSession_raw (s : State) : (openSession s).raw = s.raw := rfl
@[simp] theorem openSession_crcIn (s : State) : (openSession s).crcIn = s.crcIn := rfl
@[simp] theorem openSession_chain (s : State) : (openSession s).chain = s.chain := rfl
@[simp] theorem openSession_seq (s : State) : (openSession s).seq = s.seq := rfl
@[simp] theorem openSession_ma (s : State) : (openSession s).ma = s.ma := rfl
@[simp] theorem openSession_lastResp (s : State) : (openSession s).lastResp = s.lastResp := rfl
@[simp] theorem openSession_pubValid (s : State) : (openSession s).pubValid = s.pubValid := rfl
@[simp] theorem openSession_inbox (s : State) : (openSession s).inbox = s.inbox := rfl
@[simp] theorem openSession_encBits (s : State) : (openSession s).encBits = s.encBits := rfl
@[simp] theorem openSession_clk (s : State) : (openSession s).clk = s.clk := rfl
@[simp] theorem openSession_capBits (s : State) : (openSession s).capBits = s.capBits := rfl
@[simp] theorem openSession_busy (s : State) : (openSession s).busy = s.busy := rfl
@[simp] theorem openSession_capturing (s : State) : (openSession s).capturing = s.capturing := rfl

@[simp] theorem markCalFailed_param (s : State) : (markCalFailed s).param = s.param := rfl
@[simp] theorem markCalFailed_cfg0 (s : State) : (markCalFailed s).cfg0 = s.cfg0 := rfl
@[simp] theorem markCalFailed_cfg1 (s : State) : (markCalFailed s).cfg1 = s.cfg1 := rfl
@[simp] theorem markCalFailed_scfg0 (s : State) : (markCalFailed s).scfg0 = s.scfg0 := rfl
@[simp] theorem markCalFailed_scfg1 (s : State) : (markCalFailed s).scfg1 = s.scfg1 := rfl
@[simp] theorem markCalFailed_initDone (s : State) : (markCalFailed s).initDone = s.initDone := rfl
@[simp] theorem markCalFailed_err (s : State) : (markCalFailed s).err = s.err := rfl
@[simp] theorem markCalFailed_fsm (s : State) : (markCalFailed s).fsm = s.fsm := rfl
@[simp] theorem markCalFailed_lastOp (s : State) : (markCalFailed s).lastOp = s.lastOp := rfl
@[simp] theorem markCalFailed_curCmd (s : State) : (markCalFailed s).curCmd = s.curCmd := rfl
@[simp] theorem markCalFailed_irqEn (s : State) : (markCalFailed s).irqEn = s.irqEn := rfl
@[simp] theorem markCalFailed_irqStatus (s : State) : (markCalFailed s).irqStatus = s.irqStatus := rfl
@[simp] theorem markCalFailed_cal (s : State) : (markCalFailed s).cal = { s.cal with done := false, fail := true } := rfl
@[simp] theorem markCalFailed_frame (s : State) : (markCalFailed s).frame = s.frame := rfl
@[simp] theorem markCalFailed_off (s : State) : (markCalFailed s).off = s.off := rfl
@[simp] theorem markCalFailed_trk (s : State) : (markCalFailed s).trk = s.trk := rfl
@[simp] theorem markCalFailed_crcErrCnt (s : State) : (markCalFailed s).crcErrCnt = s.crcErrCnt := rfl
@[simp] theorem markCalFailed_crcRes (s : State) : (markCalFailed s).crcRes = s.crcRes := rfl
@[simp] theorem markCalFailed_raw (s : State) : (markCalFailed s).raw = s.raw := rfl
@[simp] theorem markCalFailed_crcIn (s : State) : (markCalFailed s).crcIn = s.crcIn := rfl
@[simp] theorem markCalFailed_chain (s : State) : (markCalFailed s).chain = s.chain := rfl
@[simp] theorem markCalFailed_seq (s : State) : (markCalFailed s).seq = s.seq := rfl
@[simp] theorem markCalFailed_ma (s : State) : (markCalFailed s).ma = s.ma := rfl
@[simp] theorem markCalFailed_lastResp (s : State) : (markCalFailed s).lastResp = s.lastResp := rfl
@[simp] theorem markCalFailed_pubValid (s : State) : (markCalFailed s).pubValid = s.pubValid := rfl
@[simp] theorem markCalFailed_inbox (s : State) : (markCalFailed s).inbox = s.inbox := rfl
@[simp] theorem markCalFailed_encBits (s : State) : (markCalFailed s).encBits = s.encBits := rfl
@[simp] theorem markCalFailed_clk (s : State) : (markCalFailed s).clk = s.clk := rfl
@[simp] theorem markCalFailed_mtWidth (s : State) : (markCalFailed s).mtWidth = s.mtWidth := rfl
@[simp] theorem markCalFailed_stWidth (s : State) : (markCalFailed s).stWidth = s.stWidth := rfl
@[simp] theorem markCalFailed_polePairs (s : State) : (markCalFailed s).polePairs = s.polePairs := rfl
@[simp] theorem markCalFailed_baudDiv (s : State) : (markCalFailed s).baudDiv = s.baudDiv := rfl
@[simp] theorem markCalFailed_calLen (s : State) : (markCalFailed s).calLen = s.calLen := rfl
@[simp] theorem markCalFailed_capBits (s : State) : (markCalFailed s).capBits = s.capBits := rfl
@[simp] theorem markCalFailed_busy (s : State) : (markCalFailed s).busy = s.busy := rfl
@[simp] theorem markCalFailed_capturing (s : State) : (markCalFailed s).capturing = s.capturing := rfl

@[simp] theorem storeCalibration_param (d : Nat) (s : State) : (storeCalibration d s).param = s.param := rfl
@[simp] theorem storeCalibration_cfg0 (d : Nat) (s : State) : (storeCalibration d s).cfg0 = s.cfg0 := rfl
@[simp] theorem storeCalibration_cfg1 (d : Nat) (s : State) : (storeCalibration d s).cfg1 = s.cfg1 := rfl
@[simp] theorem storeCalibration_scfg0 (d : Nat) (s : State) : (storeCalibration d s).scfg0 = s.scfg0 := rfl
@[simp] theorem storeCalibration_scfg1 (d : Nat) (s : State) : (storeCalibration d s).scfg1 = s.scfg1 := rfl
@[simp] theorem storeCalibration_initDone (d : Nat) (s : State) : (storeCalibration d s).initDone = s.initDone := rfl
@[simp] theorem storeCalibration_err (d : Nat) (s : State) : (storeCalibration d s).err = s.err := rfl
@[simp] theorem storeCalibration_fsm (d : Nat) (s : State) : (storeCalibration d s).fsm = s.fsm := rfl
@[simp] theorem storeCalibration_lastOp (d : Nat) (s : State) : (storeCalibration d s).lastOp = s.lastOp := rfl
@[simp] theorem storeCalibration_curCmd (d : Nat) (s : State) : (storeCalibration d s).curCmd = s.curCmd := rfl
@[simp] theorem storeCalibration_irqEn (d : Nat) (s : State) : (storeCalibration d s).irqEn = s.irqEn := rfl
@[simp] theorem storeCalibration_irqStatus (d : Nat) (s : State) : (storeCalibration d s).irqStatus = s.irqStatus := rfl
@[simp] theorem storeCalibration_cal (d : Nat) (s : State) : (storeCalibration d s).cal = { s.cal with delay := BitVec.ofNat 16 d, flen := BitVec.ofNat 16 (frameLength d s.mtWidth s.stWidth), nsa := BitVec.ofNat 4 (ceilDiv (frameLength d s.mtWidth s.stWidth) 32), done := true } := rfl
@[simp] theorem storeCalibration_frame (d : Nat) (s : State) : (storeCalibration d s).frame = s.frame := rfl
@[simp] theorem storeCalibration_off (d : Nat) (s : State) : (storeCalibration d s).off = s.off := rfl
@[simp] theorem storeCalibration_trk (d : Nat) (s : State) : (storeCalibration d s).trk = s.trk := rfl
@[simp] theorem storeCalibration_crcErrCnt (d : Nat) (s : State) : (storeCalibration d s).crcErrCnt = s.crcErrCnt := rfl
@[simp] theorem storeCalibration_crcRes (d : Nat) (s : State) : (storeCalibration d s).crcRes = s.crcRes := rfl
@[simp] theorem storeCalibration_raw (d : Nat) (s : State) : (storeCalibration d s).raw = s.raw := rfl
@[simp] theorem storeCalibration_crcIn (d : Nat) (s : State) : (storeCalibration d s).crcIn = s.crcIn := rfl
@[simp] theorem storeCalibration_chain (d : Nat) (s : State) : (storeCalibration d s).chain = s.chain := rfl
@[simp] theorem storeCalibration_seq (d : Nat) (s : State) : (storeCalibration d s).seq = s.seq := rfl
@[simp] theorem storeCalibration_ma (d : Nat) (s : State) : (storeCalibration d s).ma = s.ma := rfl
@[simp] theorem storeCalibration_lastResp (d : Nat) (s : State) : (storeCalibration d s).lastResp = s.lastResp := rfl
@[simp] theorem storeCalibration_pubValid (d : Nat) (s : State) : (storeCalibration d s).pubValid = s.pubValid := rfl
@[simp] theorem storeCalibration_inbox (d : Nat) (s : State) : (storeCalibration d s).inbox = s.inbox := rfl
@[simp] theorem storeCalibration_encBits (d : Nat) (s : State) : (storeCalibration d s).encBits = s.encBits := rfl
@[simp] theorem storeCalibration_clk (d : Nat) (s : State) : (storeCalibration d s).clk = s.clk := rfl
@[simp] theorem storeCalibration_mtWidth (d : Nat) (s : State) : (storeCalibration d s).mtWidth = s.mtWidth := rfl
@[simp] theorem storeCalibration_stWidth (d : Nat) (s : State) : (storeCalibration d s).stWidth = s.stWidth := rfl
@[simp] theorem storeCalibration_polePairs (d : Nat) (s : State) : (storeCalibration d s).polePairs = s.polePairs := rfl
@[simp] theorem storeCalibration_baudDiv (d : Nat) (s : State) : (storeCalibration d s).baudDiv = s.baudDiv := rfl
@[simp] theorem storeCalibration_calLen (d : Nat) (s : State) : (storeCalibration d s).calLen = s.calLen := rfl
@[simp] theorem storeCalibration_capBits (d : Nat) (s : State) : (storeCalibration d s).capBits = s.capBits := rfl
@[simp] theorem storeCalibration_busy (d : Nat) (s : State) : (storeCalibration d s).busy = s.busy := rfl
@[simp] theorem storeCalibration_capturing (d : Nat) (s : State) : (storeCalibration d s).capturing = s.capturing := rfl

@[simp] theorem storeCrcResult_param (l : Nat) (rcv : BitVec 6) (s : State) : (storeCrcResult l rcv s).param = s.param := rfl
@[simp] theorem storeCrcResult_cfg0 (l : Nat) (rcv : BitVec 6) (s : State) : (storeCrcResult l rcv s).cfg0 = s.cfg0 := rfl
@[simp] theorem storeCrcResult_cfg1 (l : Nat) (rcv : BitVec 6) (s : State) : (storeCrcResult l rcv s).cfg1 = s.cfg1 := rfl
@[simp] theorem storeCrcResult_scfg0 (l : Nat) (rcv : BitVec 6) (s : State) : (storeCrcResult l rcv s).scfg0 = s.scfg0 := rfl
@[simp] theorem storeCrcResult_scfg1 (l : Nat) (rcv : BitVec 6) (s : State) : (storeCrcResult l rcv s).scfg1 = s.scfg1 := rfl
@[simp] theorem storeCrcResult_initDone (l : Nat) (rcv : BitVec 6) (s : State) : (storeCrcResult l rcv s).initDone = s.initDone := rfl
@[simp] theorem storeCrcResult_err (l : Nat) (rcv : BitVec 6) (s : State) : (storeCrcResult l rcv s).err = s.err := rfl
@[simp] theorem storeCrcResult_fsm (l : Nat) (rcv : BitVec 6) (s : State) : (storeCrcResult l rcv s).fsm = s.fsm := rfl
@[simp] theorem storeCrcResult_lastOp (l : Nat) (rcv : BitVec 6) (s : State) : (storeCrcResult l rcv s).lastOp = s.lastOp := rfl
@[simp] theorem storeCrcResult_curCmd (l : Nat) (rcv : BitVec 6) (s : State) : (storeCrcResult l rcv s).curCmd = s.curCmd := rfl
@[simp] theorem storeCrcResult_irqEn (l : Nat) (rcv : BitVec 6) (s : State) : (storeCrcResult l rcv s).irqEn = s.irqEn := rfl
@[simp] theorem storeCrcResult_irqStatus (l : Nat) (rcv : BitVec 6) (s : State) : (storeCrcResult l rcv s).irqStatus = s.irqStatus := rfl
@[simp] theorem storeCrcResult_cal (l : Nat) (rcv : BitVec 6) (s : State) : (storeCrcResult l rcv s).cal = s.cal := rfl
@[simp] theorem storeCrcResult_frame (l : Nat) (rcv : BitVec 6) (s : State) : (storeCrcResult l rcv s).frame = s.frame := rfl
@[simp] theorem storeCrcResult_off (l : Nat) (rcv : BitVec 6) (s : State) : (storeCrcResult l rcv s).off = s.off := rfl
@[simp] theorem storeCrcResult_trk (l : Nat) (rcv : BitVec 6) (s : State) : (storeCrcResult l rcv s).trk = s.trk := rfl
@[simp] theorem storeCrcResult_crcErrCnt (l : Nat) (rcv : BitVec 6) (s : State) : (storeCrcResult l rcv s).crcErrCnt = s.crcErrCnt := rfl
@[simp] theorem storeCrcResult_crcRes (l : Nat) (rcv : BitVec 6) (s : State) : (storeCrcResult l rcv s).crcRes = { ok := validate (crcInBits s.crcIn l) rcv, calcCrc := crc6 (crcInBits s.crcIn l), rcvCrc := rcv } := rfl
@[simp] theorem storeCrcResult_raw (l : Nat) (rcv : BitVec 6) (s : State) : (storeCrcResult l rcv s).raw = s.raw := rfl
@[simp] theorem storeCrcResult_crcIn (l : Nat) (rcv : BitVec 6) (s : State) : (storeCrcResult l rcv s).crcIn = s.crcIn := rfl
@[simp] theorem storeCrcResult_chain (l : Nat) (rcv : BitVec 6) (s : State) : (storeCrcResult l rcv s).chain = s.chain := rfl
@[simp] theorem storeCrcResult_seq (l : Nat) (rcv : BitVec 6) (s : State) : (storeCrcResult l rcv s).seq = s.seq := rfl
@[simp] theorem storeCrcResult_ma (l : Nat) (rcv : BitVec 6) (s : State) : (storeCrcResult l rcv s).ma = s.ma := rfl
@[simp] theorem storeCrcResult_lastResp (l : Nat) (rcv : BitVec 6) (s : State) : (storeCrcResult l rcv s).lastResp = s.lastResp := rfl
@[simp] theorem storeCrcResult_pubValid (l : Nat) (rcv : BitVec 6) (s : State) : (storeCrcResult l rcv s).pubValid = s.pubValid := rfl
@[simp] theorem storeCrcResult_inbox (l : Nat) (rcv : BitVec 6) (s : State) : (storeCrcResult l rcv s).inbox = s.inbox := rfl
@[simp] theorem storeCrcResult_encBits (l : Nat) (rcv : BitVec 6) (s : State) : (storeCrcResult l rcv s).encBits = s.encBits := rfl
@[simp] theorem storeCrcResult_clk (l : Nat) (rcv : BitVec 6) (s : State) : (storeCrcResult l rcv s).clk = s.clk := rfl
@[simp] theorem storeCrcResult_mtWidth (l : Nat) (rcv : BitVec 6) (s : State) : (storeCrcResult l rcv s).mtWidth = s.mtWidth := rfl
@[simp] theorem storeCrcResult_stWidth (l : Nat) (rcv : BitVec 6) (s : State) : (storeCrcResult l rcv s).stWidth = s.stWidth := rfl
@[simp] theorem storeCrcResult_polePairs (l : Nat) (rcv : BitVec 6) (s : State) : (storeCrcResult l rcv s).polePairs = s.polePairs := rfl
@[simp] theorem storeCrcResult_baudDiv (l : Nat) (rcv : BitVec 6) (s : State) : (storeCrcResult l rcv s).baudDiv = s.baudDiv := rfl
@[simp] theorem storeCrcResult_calLen (l : Nat) (rcv : BitVec 6) (s : State) : (storeCrcResult l rcv s).calLen = s.calLen := rfl
@[simp] theorem storeCrcResult_capBits (l : Nat) (rcv : BitVec 6) (s : State) : (storeCrcResult l rcv s).capBits = s.capBits := rfl
@[simp] theorem storeCrcResult_busy (l : Nat) (rcv : BitVec 6) (s : State) : (storeCrcResult l rcv s).busy = s.busy := rfl
@[simp] theorem storeCrcResult_capturing (l : Nat) (rcv : BitVec 6) (s : State) : (storeCrcResult l rcv s).capturing = s.capturing := rfl

@[simp] theorem validateFrame_param (f : Nat) (s : State) : (validateFrame f s).param = s.param := rfl
@[simp] theorem validateFrame_cfg0 (f : Nat) (s : State) : (validateFrame f s).cfg0 = s.cfg0 := rfl
@[simp] theorem validateFrame_cfg1 (f : Nat) (s : State) : (validateFrame f s).cfg1 = s.cfg1 := rfl
@[simp] theorem validateFrame_scfg0 (f : Nat) (s : State) : (validateFrame f s).scfg0 = s.scfg0 := rfl
@[simp] theorem validateFrame_scfg1 (f : Nat) (s : State) : (validateFrame f s).scfg1 = s.scfg1 := rfl
@[simp] theorem validateFrame_initDone (f : Nat) (s : State) : (validateFrame f s).initDone = s.initDone := rfl
@[simp] theorem validateFrame_err (f : Nat) (s : State) : (validateFrame f s).err = s.err := rfl
@[simp] theorem validateFrame_fsm (f : Nat) (s : State) : (validateFrame f s).fsm = s.fsm := rfl
@[simp] theorem validateFrame_lastOp (f : Nat) (s : State) : (validateFrame f s).lastOp = s.lastOp := rfl
@[simp] theorem validateFrame_curCmd (f : Nat) (s : State) : (validateFrame f s).curCmd = s.curCmd := rfl
@[simp] theorem validateFrame_irqEn (f : Nat) (s : State) : (validateFrame f s).irqEn = s.irqEn := rfl
@[simp] theorem validateFrame_irqStatus (f : Nat) (s : State) : (validateFrame f s).irqStatus = s.irqStatus := rfl
@[simp] theorem validateFrame_cal (f : Nat) (s : State) : (validateFrame f s).cal = s.cal := rfl
@[simp] theorem validateFrame_frame (f : Nat) (s : State) : (validateFrame f s).frame = { s.frame with rcvCrc := BitVec.ofNat 6 f, calcCrc := crc6 (payloadBits s.mtWidth s.stWidth f), crcOk := crc6 (payloadBits s.mtWidth s.stWidth f) == BitVec.ofNat 6 f } := rfl
@[simp] theorem validateFrame_off (f : Nat) (s : State) : (validateFrame f s).off = s.off := rfl
@[simp] theorem validateFrame_trk (f : Nat) (s : State) : (validateFrame f s).trk = s.trk := rfl
@[simp] theorem validateFrame_crcErrCnt (f : Nat) (s : State) : (validateFrame f s).crcErrCnt = s.crcErrCnt := rfl
@[simp] theorem validateFrame_crcRes (f : Nat) (s : State) : (validateFrame f s).crcRes = s.crcRes := rfl
@[simp] theorem validateFrame_raw (f : Nat) (s : State) : (validateFrame f s).raw = s.raw := rfl
@[simp] theorem validateFrame_crcIn (f : Nat) (s : State) : (validateFrame f s).crcIn = s.crcIn := rfl
@[simp] theorem validateFrame_chain (f : Nat) (s : State) : (validateFrame f s).chain = s.chain := rfl
@[simp] theorem validateFrame_seq (f : Nat) (s : State) : (validateFrame f s).seq = s.seq := rfl
@[simp] theorem validateFrame_ma (f : Nat) (s : State) : (validateFrame f s).ma = s.ma := rfl
@[simp] theorem validateFrame_lastResp (f : Nat) (s : State) : (validateFrame f s).lastResp = s.lastResp := rfl
@[simp] theorem validateFrame_pubValid (f : Nat) (s : State) : (validateFrame f s).pubValid = s.pubValid := rfl
@[simp] theorem validateFrame_inbox (f : Nat) (s : State) : (validateFrame f s).inbox = s.inbox := rfl
@[simp] theorem validateFrame_encBits (f : Nat) (s : State) : (validateFrame f s).encBits = s.encBits := rfl
@[simp] theorem validateFrame_clk (f : Nat) (s : State) : (validateFrame f s).clk = s.clk := rfl
@[simp] theorem validateFrame_mtWidth (f : Nat) (s : State) : (validateFrame f s).mtWidth = s.mtWidth := rfl
@[simp] theorem validateFrame_stWidth (f : Nat) (s : State) : (validateFrame f s).stWidth = s.stWidth := rfl
@[simp] theorem validateFrame_polePairs (f : Nat) (s : State) : (validateFrame f s).polePairs = s.polePairs := rfl
@[simp] theorem validateFrame_baudDiv (f : Nat) (s : State) : (validateFrame f s).baudDiv = s.baudDiv := rfl
@[simp] theorem validateFrame_calLen (f : Nat) (s : State) : (validateFrame f s).calLen = s.calLen := rfl
@[simp] theorem validateFrame_capBits (f : Nat) (s : State) : (validateFrame f s).capBits = s.capBits := rfl
@[simp] theorem validateFrame_busy (f : Nat) (s : State) : (validateFrame f s).busy = s.busy := rfl
@[simp] theorem validateFrame_capturing (f : Nat) (s : State) : (validateFrame f s).capturing = s.capturing := rfl

@[simp] theorem decodeFrame_param (f : Nat) (s : State) : (decodeFrame f s).param = s.param := rfl
@[simp] theorem decodeFrame_cfg0 (f : Nat) (s : State) : (decodeFrame f s).cfg0 = s.cfg0 := rfl
@[simp] theorem decodeFrame_cfg1 (f : Nat) (s : State) : (decodeFrame f s).cfg1 = s.cfg1 := rfl
@[simp] theorem decodeFrame_scfg0 (f : Nat) (s : State) : (decodeFrame f s).scfg0 = s.scfg0 := rfl
@[simp] theorem decodeFrame_scfg1 (f : Nat) (s : State) : (decodeFrame f s).scfg1 = s.scfg1 := rfl
@[simp] theorem decodeFrame_initDone (f : Nat) (s : State) : (decodeFrame f s).initDone = s.initDone := rfl
@[simp] theorem decodeFrame_err (f : Nat) (s : State) : (decodeFrame f s).err = s.err := rfl
@[simp] theorem decodeFrame_fsm (f : Nat) (s : State) : (decodeFrame f s).fsm = s.fsm := rfl
@[simp] theorem decodeFrame_lastOp (f : Nat) (s : State) : (decodeFrame f s).lastOp = s.lastOp := rfl
@[simp] theorem decodeFrame_curCmd (f : Nat) (s : State) : (decodeFrame f s).curCmd = s.curCmd := rfl
@[simp] theorem decodeFrame_irqEn (f : Nat) (s : State) : (decodeFrame f s).irqEn = s.irqEn := rfl
@[simp] theorem decodeFrame_irqStatus (f : Nat) (s : State) : (decodeFrame f s).irqStatus = s.irqStatus := rfl
@[simp] theorem decodeFrame_cal (f : Nat) (s : State) : (decodeFrame f s).cal = s.cal := rfl
@[simp] theorem decodeFrame_frame (f : Nat) (s : State) : (decodeFrame f s).frame = { s.frame with mt := zext32 (mask s.mtWidth (f >>> 6 >>> 1 >>> 1 >>> s.stWidth)), st := zext32 (mask s.stWidth (f >>> 6 >>> 1 >>> 1)), errBit := (f >>> 6 >>> 1).testBit 0, warnBit := (f >>> 6).testBit 0, held := true } := rfl
@[simp] theorem decodeFrame_off (f : Nat) (s : State) : (decodeFrame f s).off = s.off := rfl
@[simp] theorem decodeFrame_trk (f : Nat) (s : State) : (decodeFrame f s).trk = s.trk := rfl
@[simp] theorem decodeFrame_crcErrCnt (f : Nat) (s : State) : (decodeFrame f s).crcErrCnt = s.crcErrCnt := rfl
@[simp] theorem decodeFrame_crcRes (f : Nat) (s : State) : (decodeFrame f s).crcRes = s.crcRes := rfl
@[simp] theorem decodeFrame_raw (f : Nat) (s : State) : (decodeFrame f s).raw = s.raw := rfl
@[simp] theorem decodeFrame_crcIn (f : Nat) (s : State) : (decodeFrame f s).crcIn = s.crcIn := rfl
@[simp] theorem decodeFrame_chain (f : Nat) (s : State) : (decodeFrame f s).chain = s.chain := rfl
@[simp] theorem decodeFrame_seq (f : Nat) (s : State) : (decodeFrame f s).seq = s.seq := rfl
@[simp] theorem decodeFrame_ma (f : Nat) (s : State) : (decodeFrame f s).ma = s.ma := rfl
@[simp] theorem decodeFrame_lastResp (f : Nat) (s : State) : (decodeFrame f s).lastResp = s.lastResp := rfl
@[simp] theorem decodeFrame_pubValid (f : Nat) (s : State) : (decodeFrame f s).pubValid = s.pubValid := rfl
@[simp] theorem decodeFrame_inbox (f : Nat) (s : State) : (decodeFrame f s).inbox = s.inbox := rfl
@[simp] theorem decodeFrame_encBits (f : Nat) (s : State) : (decodeFrame f s).encBits = s.encBits := rfl
@[simp] theorem decodeFrame_clk (f : Nat) (s : State) : (decodeFrame f s).clk = s.clk := rfl
@[simp] theorem decodeFrame_mtWidth (f : Nat) (s : State) : (decodeFrame f s).mtWidth = s.mtWidth := rfl
@[simp] theorem decodeFrame_stWidth (f : Nat) (s : State) : (decodeFrame f s).stWidth = s.stWidth := rfl
@[simp] theorem decodeFrame_polePairs (f : Nat) (s : State) : (decodeFrame f s).polePairs = s.polePairs := rfl
@[simp] theorem decodeFrame_baudDiv (f : Nat) (s : State) : (decodeFrame f s).baudDiv = s.baudDiv := rfl
@[simp] theorem decodeFrame_calLen (f : Nat) (s : State) : (decodeFrame f s).calLen = s.calLen := rfl
@[simp] theorem decodeFrame_capBits (f : Nat) (s : State) : (decodeFrame f s).capBits = s.capBits := rfl
@[simp] theorem decodeFrame_busy (f : Nat) (s : State) : (decodeFrame f s).busy = s.busy := rfl
@[simp] theorem decodeFrame_capturing (f : Nat) (s : State) : (decodeFrame f s).capturing = s.capturing := rfl

@[simp] theorem latchOffsets_param (s : State) : (latchOffsets s).param = s.param := rfl
@[simp] theorem latchOffsets_cfg0 (s : State) : (latchOffsets s).cfg0 = s.cfg0 := rfl
@[simp] theorem latchOffsets_cfg1 (s : State) : (latchOffsets s).cfg1 = s.cfg1 := rfl
@[simp] theorem latchOffsets_scfg0 (s : State) : (latchOffsets s).scfg0 = s.scfg0 := rfl
@[simp] theorem latchOffsets_scfg1 (s : State) : (latchOffsets s).scfg1 = s.scfg1 := rfl
@[simp] theorem latchOffsets_initDone (s : State) : (latchOffsets s).initDone = s.initDone := rfl
@[simp] theorem latchOffsets_err (s : State) : (latchOffsets s).err = s.err := rfl
@[simp] theorem latchOffsets_fsm (s : State) : (latchOffsets s).fsm = s.fsm := rfl
@[simp] theorem latchOffsets_lastOp (s : State) : (latchOffsets s).lastOp = s.lastOp := rfl
@[simp] theorem latchOffsets_curCmd (s : State) : (latchOffsets s).curCmd = s.curCmd := rfl
@[simp] theorem latchOffsets_irqEn (s : State) : (latchOffsets s).irqEn = s.irqEn := rfl
@[simp] theorem latchOffsets_irqStatus (s : State) : (latchOffsets s).irqStatus = s.irqStatus := rfl
@[simp] theorem latchOffsets_cal (s : State) : (latchOffsets s).cal = s.cal := rfl
@[simp] theorem latchOffsets_frame (s : State) : (latchOffsets s).frame = s.frame := rfl
@[simp] theorem latchOffsets_off (s : State) : (latchOffsets s).off = { mode := .calibrated, mt := s.frame.mt, st := s.frame.st } := rfl
@[simp] theorem latchOffsets_trk (s : State) : (latchOffsets s).trk = s.trk := rfl
@[simp] theorem latchOffsets_crcErrCnt (s : State) : (latchOffsets s).crcErrCnt = s.crcErrCnt := rfl
@[simp] theorem latchOffsets_crcRes (s : State) : (latchOffsets s).crcRes = s.crcRes := rfl
@[simp] theorem latchOffsets_raw (s : State) : (latchOffsets s).raw = s.raw := rfl
@[simp] theorem latchOffsets_crcIn (s : State) : (latchOffsets s).crcIn = s.crcIn := rfl
@[simp] theorem latchOffsets_chain (s : State) : (latchOffsets s).chain = s.chain := rfl
@[simp] theorem latchOffsets_seq (s : State) : (latchOffsets s).seq = s.seq := rfl
@[simp] theorem latchOffsets_ma (s : State) : (latchOffsets s).ma = s.ma := rfl
@[simp] theorem latchOffsets_lastResp (s : State) : (latchOffsets s).lastResp = s.lastResp := rfl
@[simp] theorem latchOffsets_pubValid (s : State) : (latchOffsets s).pubValid = s.pubValid := rfl
@[simp] theorem latchOffsets_inbox (s : State) : (latchOffsets s).inbox = s.inbox := rfl
@[simp] theorem latchOffsets_encBits (s : State) : (latchOffsets s).encBits = s.encBits := rfl
@[simp] theorem latchOffsets_clk (s : State) : (latchOffsets s).clk = s.clk := rfl
@[simp] theorem latchOffsets_mtWidth (s : State) : (latchOffsets s).mtWidth = s.mtWidth := rfl
@[simp] theorem latchOffsets_stWidth (s : State) : (latchOffsets s).stWidth = s.stWidth := rfl
@[simp] theorem latchOffsets_polePairs (s : State) : (latchOffsets s).polePairs = s.polePairs := rfl
@[simp] theorem latchOffsets_baudDiv (s : State) : (latchOffsets s).baudDiv = s.baudDiv := rfl
@[simp] theorem latchOffsets_calLen (s : State) : (latchOffsets s).calLen = s.calLen := rfl
@[simp] theorem latchOffsets_capBits (s : State) : (latchOffsets s).capBits = s.capBits := rfl
@[simp] theorem latchOffsets_busy (s : State) : (latchOffsets s).busy = s.busy := rfl
@[simp] theorem latchOffsets_capturing (s : State) : (latchOffsets s).capturing = s.capturing := rfl

@[simp] theorem trackerUpdateWith_param (e : Estimator) (s : State) : (trackerUpdateWith e s).param = s.param := rfl
@[simp] theorem trackerUpdateWith_cfg0 (e : Estimator) (s : State) : (trackerUpdateWith e s).cfg0 = s.cfg0 := rfl
@[simp] theorem trackerUpdateWith_cfg1 (e : Estimator) (s : State) : (trackerUpdateWith e s).cfg1 = s.cfg1 := rfl
@[simp] theorem trackerUpdateWith_scfg0 (e : Estimator) (s : State) : (trackerUpdateWith e s).scfg0 = s.scfg0 := rfl
@[simp] theorem trackerUpdateWith_scfg1 (e : Estimator) (s : State) : (trackerUpdateWith e s).scfg1 = s.scfg1 := rfl
@[simp] theorem trackerUpdateWith_initDone (e : Estimator) (s : State) : (trackerUpdateWith e s).initDone = s.initDone := rfl
@[simp] theorem trackerUpdateWith_err (e : Estimator) (s : State) : (trackerUpdateWith e s).err = s.err := rfl
@[simp] theorem trackerUpdateWith_fsm (e : Estimator) (s : State) : (trackerUpdateWith e s).fsm = s.fsm := rfl
@[simp] theorem trackerUpdateWith_lastOp (e : Estimator) (s : State) : (trackerUpdateWith e s).lastOp = s.lastOp := rfl
@[simp] theorem trackerUpdateWith_curCmd (e : Estimator) (s : State) : (trackerUpdateWith e s).curCmd = s.curCmd := rfl
@[simp] theorem trackerUpdateWith_irqEn (e : Estimator) (s : State) : (trackerUpdateWith e s).irqEn = s.irqEn := rfl
@[simp] theorem trackerUpdateWith_irqStatus (e : Estimator) (s : State) : (trackerUpdateWith e s).irqStatus = s.irqStatus := rfl
@[simp] theorem trackerUpdateWith_cal (e : Estimator) (s : State) : (trackerUpdateWith e s).cal = s.cal := rfl
@[simp] theorem trackerUpdateWith_frame (e : Estimator) (s : State) : (trackerUpdateWith e s).frame = s.frame := rfl
@[simp] theorem trackerUpdateWith_off (e : Estimator) (s : State) : (trackerUpdateWith e s).off = s.off := rfl
@[simp] theorem trackerUpdateWith_crcErrCnt (e : Estimator) (s : State) : (trackerUpdateWith e s).crcErrCnt = s.crcErrCnt := rfl
@[simp] theorem trackerUpdateWith_crcRes (e : Estimator) (s : State) : (trackerUpdateWith e s).crcRes = s.crcRes := rfl
@[simp] theorem trackerUpdateWith_raw (e : Estimator) (s : State) : (trackerUpdateWith e s).raw = s.raw := rfl
@[simp] theorem trackerUpdateWith_crcIn (e : Estimator) (s : State) : (trackerUpdateWith e s).crcIn = s.crcIn := rfl
@[simp] theorem trackerUpdateWith_chain (e : Estimator) (s : State) : (trackerUpdateWith e s).chain = s.chain := rfl
@[simp] theorem trackerUpdateWith_seq (e : Estimator) (s : State) : (trackerUpdateWith e s).seq = s.seq := rfl
@[simp] theorem trackerUpdateWith_ma (e : Estimator) (s : State) : (trackerUpdateWith e s).ma = s.ma := rfl
@[simp] theorem trackerUpdateWith_lastResp (e : Estimator) (s : State) : (trackerUpdateWith e s).lastResp = s.lastResp := rfl
@[simp] theorem trackerUpdateWith_pubValid (e : Estimator) (s : State) : (trackerUpdateWith e s).pubValid = true := rfl
@[simp] theorem trackerUpdateWith_inbox (e : Estimator) (s : State) : (trackerUpdateWith e s).inbox = s.inbox := rfl
@[simp] theorem trackerUpdateWith_encBits (e : Estimator) (s : State) : (trackerUpdateWith e s).encBits = s.encBits := rfl
@[simp] theorem trackerUpdateWith_clk (e : Estimator) (s : State) : (trackerUpdateWith e s).clk = s.clk := rfl
@[simp] theorem trackerUpdateWith_mtWidth (e : Estimator) (s : State) : (trackerUpdateWith e s).mtWidth = s.mtWidth := rfl
@[simp] theorem trackerUpdateWith_stWidth (e : Estimator) (s : State) : (trackerUpdateWith e s).stWidth = s.stWidth := rfl
@[simp] theorem trackerUpdateWith_polePairs (e : Estimator) (s : State) : (trackerUpdateWith e s).polePairs = s.polePairs := rfl
@[simp] theorem trackerUpdateWith_baudDiv (e : Estimator) (s : State) : (trackerUpdateWith e s).baudDiv = s.baudDiv := rfl
@[simp] theorem trackerUpdateWith_calLen (e : Estimator) (s : State) : (trackerUpdateWith e s).calLen = s.calLen := rfl
@[simp] theorem trackerUpdateWith_capBits (e : Estimator) (s : State) : (trackerUpdateWith e s).capBits = s.capBits := rfl
@[simp] theorem trackerUpdateWith_busy (e : Estimator) (s : State) : (trackerUpdateWith e s).busy = s.busy := rfl
@[simp] theorem trackerUpdateWith_capturing (e : Estimator) (s : State) : (trackerUpdateWith e s).capturing = s.capturing := rfl

@[simp] theorem trackerUpdate_param (s : State) : (trackerUpdate s).param = s.param := rfl
@[simp] theorem trackerUpdate_cfg0 (s : State) : (trackerUpdate s).cfg0 = s.cfg0 := rfl
@[simp] theorem trackerUpdate_cfg1 (s : State) : (trackerUpdate s).cfg1 = s.cfg1 := rfl
@[simp] theorem trackerUpdate_scfg0 (s : State) : (trackerUpdate s).scfg0 = s.scfg0 := rfl
@[simp] theorem trackerUpdate_scfg1 (s : State) : (trackerUpdate s).scfg1 = s.scfg1 := rfl
@[simp] theorem trackerUpdate_initDone (s : State) : (trackerUpdate s).initDone = s.initDone := rfl
@[simp] theorem trackerUpdate_err (s : State) : (trackerUpdate s).err = s.err := rfl
@[simp] theorem trackerUpdate_fsm (s : State) : (trackerUpdate s).fsm = s.fsm := rfl
@[simp] theorem trackerUpdate_lastOp (s : State) : (trackerUpdate s).lastOp = s.lastOp := rfl
@[simp] theorem trackerUpdate_curCmd (s : State) : (trackerUpdate s).curCmd = s.curCmd := rfl
@[simp] theorem trackerUpdate_irqEn (s : State) : (trackerUpdate s).irqEn = s.irqEn := rfl
@[simp] theorem trackerUpdate_irqStatus (s : State) : (trackerUpdate s).irqStatus = s.irqStatus := rfl
@[simp] theorem trackerUpdate_cal (s : State) : (trackerUpdate s).cal = s.cal := rfl
@[simp] theorem trackerUpdate_frame (s : State) : (trackerUpdate s).frame = s.frame := rfl
@[simp] theorem trackerUpdate_off (s : State) : (trackerUpdate s).off = s.off := rfl
@[simp] theorem trackerUpdate_crcErrCnt (s : State) : (trackerUpdate s).crcErrCnt = s.crcErrCnt := rfl
@[simp] theorem trackerUpdate_crcRes (s : State) : (trackerUpdate s).crcRes = s.crcRes := rfl
@[simp] theorem trackerUpdate_raw (s : State) : (trackerUpdate s).raw = s.raw := rfl
@[simp] theorem trackerUpdate_crcIn (s : State) : (trackerUpdate s).crcIn = s.crcIn := rfl
@[simp] theorem trackerUpdate_chain (s : State) : (trackerUpdate s).chain = s.chain := rfl
@[simp] theorem trackerUpdate_seq (s : State) : (trackerUpdate s).seq = s.seq := rfl
@[simp] theorem trackerUpdate_ma (s : State) : (trackerUpdate s).ma = s.ma := rfl
@[simp] theorem trackerUpdate_lastResp (s : State) : (trackerUpdate s).lastResp = s.lastResp := rfl
@[simp] theorem trackerUpdate_pubValid (s : State) : (trackerUpdate s).pubValid = true := rfl
@[simp] theorem trackerUpdate_inbox (s : State) : (trackerUpdate s).inbox = s.inbox := rfl
@[simp] theorem trackerUpdate_encBits (s : State) : (trackerUpdate s).encBits = s.encBits := rfl
@[simp] theorem trackerUpdate_clk (s : State) : (trackerUpdate s).clk = s.clk := rfl
@[simp] theorem trackerUpdate_mtWidth (s : State) : (trackerUpdate s).mtWidth = s.mtWidth := rfl
@[simp] theorem trackerUpdate_stWidth (s : State) : (trackerUpdate s).stWidth = s.stWidth := rfl
@[simp] theorem trackerUpdate_polePairs (s : State) : (trackerUpdate s).polePairs = s.polePairs := rfl
@[simp] theorem trackerUpdate_baudDiv (s : State) : (trackerUpdate s).baudDiv = s.baudDiv := rfl
@[simp] theorem trackerUpdate_calLen (s : State) : (trackerUpdate s).calLen = s.calLen := rfl
@[simp] theorem trackerUpdate_capBits (s : State) : (trackerUpdate s).capBits = s.capBits := rfl
@[simp] theorem trackerUpdate_busy (s : State) : (trackerUpdate s).busy = s.busy := rfl
@[simp] theorem trackerUpdate_capturing (s : State) : (trackerUpdate s).capturing = s.capturing := rfl

@[simp] theorem assemble_param (s : State) : (assemble s).param = s.param := rfl
@[simp] theorem assemble_cfg0 (s : State) : (assemble s).cfg0 = s.cfg0 := rfl
@[simp] theorem assemble_cfg1 (s : State) : (assemble s).cfg1 = s.cfg1 := rfl
@[simp] theorem assemble_scfg0 (s : State) : (assemble s).scfg0 = s.scfg0 := rfl
@[simp] theorem assemble_scfg1 (s : State) : (assemble s).scfg1 = s.scfg1 := rfl
@[simp] theorem assemble_initDone (s : State) : (assemble s).initDone = s.initDone := rfl
@[simp] theorem assemble_err (s : State) : (assemble s).err = s.err := rfl
@[simp] theorem assemble_fsm (s : State) : (assemble s).fsm = s.fsm := rfl
@[simp] theorem assemble_lastOp (s : State) : (assemble s).lastOp = s.lastOp := rfl
@[simp] theorem assemble_curCmd (s : State) : (assemble s).curCmd = s.curCmd := rfl
@[simp] theorem assemble_irqEn (s : State) : (assemble s).irqEn = s.irqEn := rfl
@[simp] theorem assemble_irqStatus (s : State) : (assemble s).irqStatus = s.irqStatus := rfl
@[simp] theorem assemble_cal (s : State) : (assemble s).cal = s.cal := rfl
@[simp] theorem assemble_frame (s : State) : (assemble s).frame = s.frame := rfl
@[simp] theorem assemble_off (s : State) : (assemble s).off = s.off := rfl
@[simp] theorem assemble_trk (s : State) : (assemble s).trk = s.trk := rfl
@[simp] theorem assemble_crcErrCnt (s : State) : (assemble s).crcErrCnt = s.crcErrCnt := rfl
@[simp] theorem assemble_crcRes (s : State) : (assemble s).crcRes = s.crcRes := rfl
@[simp] theorem assemble_raw (s : State) : (assemble s).raw = (List.range s.param.nsMax).map fun j => if j < s.cal.nsa.toNat then wordAt s.chain (s.cal.nsa.toNat - 1 - j) else 0 := rfl
@[simp] theorem assemble_crcIn (s : State) : (assemble s).crcIn = s.crcIn := rfl
@[simp] theorem assemble_chain (s : State) : (assemble s).chain = s.chain := rfl
@[simp] theorem assemble_seq (s : State) : (assemble s).seq = s.seq := rfl
@[simp] theorem assemble_ma (s : State) : (assemble s).ma = s.ma := rfl
@[simp] theorem assemble_lastResp (s : State) : (assemble s).lastResp = s.lastResp := rfl
@[simp] theorem assemble_pubValid (s : State) : (assemble s).pubValid = s.pubValid := rfl
@[simp] theorem assemble_inbox (s : State) : (assemble s).inbox = s.inbox := rfl
@[simp] theorem assemble_encBits (s : State) : (assemble s).encBits = s.encBits := rfl
@[simp] theorem assemble_clk (s : State) : (assemble s).clk = s.clk := rfl
@[simp] theorem assemble_mtWidth (s : State) : (assemble s).mtWidth = s.mtWidth := rfl
@[simp] theorem assemble_stWidth (s : State) : (assemble s).stWidth = s.stWidth := rfl
@[simp] theorem assemble_polePairs (s : State) : (assemble s).polePairs = s.polePairs := rfl
@[simp] theorem assemble_baudDiv (s : State) : (assemble s).baudDiv = s.baudDiv := rfl
@[simp] theorem assemble_calLen (s : State) : (assemble s).calLen = s.calLen := rfl
@[simp] theorem assemble_capBits (s : State) : (assemble s).capBits = s.capBits := rfl
@[simp] theorem assemble_busy (s : State) : (assemble s).busy = s.busy := rfl
@[simp] theorem assemble_capturing (s : State) : (assemble s).capturing = s.capturing := rfl

@[simp] theorem countCrcFailure_param (s : State) : (countCrcFailure s).param = s.param := rfl
@[simp] theorem countCrcFailure_cfg0 (s : State) : (countCrcFailure s).cfg0 = s.cfg0 := rfl
@[simp] theorem countCrcFailure_cfg1 (s : State) : (countCrcFailure s).cfg1 = s.cfg1 := rfl
@[simp] theorem countCrcFailure_scfg0 (s : State) : (countCrcFailure s).scfg0 = s.scfg0 := rfl
@[simp] theorem countCrcFailure_scfg1 (s : State) : (countCrcFailure s).scfg1 = s.scfg1 := rfl
@[simp] theorem countCrcFailure_initDone (s : State) : (countCrcFailure s).initDone = s.initDone := rfl
@[simp] theorem countCrcFailure_err (s : State) : (countCrcFailure s).err = s.err := rfl
@[simp] theorem countCrcFailure_fsm (s : State) : (countCrcFailure s).fsm = s.fsm := rfl
@[simp] theorem countCrcFailure_lastOp (s : State) : (countCrcFailure s).lastOp = s.lastOp := rfl
@[simp] theorem countCrcFailure_curCmd (s : State) : (countCrcFailure s).curCmd = s.curCmd := rfl
@[simp] theorem countCrcFailure_irqEn (s : State) : (countCrcFailure s).irqEn = s.irqEn := rfl
@[simp] theorem countCrcFailure_irqStatus (s : State) : (countCrcFailure s).irqStatus = s.irqStatus ||| irqCrcFail := rfl
@[simp] theorem countCrcFailure_cal (s : State) : (countCrcFailure s).cal = s.cal := rfl
@[simp] theorem countCrcFailure_frame (s : State) : (countCrcFailure s).frame = s.frame := rfl
@[simp] theorem countCrcFailure_off (s : State) : (countCrcFailure s).off = s.off := rfl
@[simp] theorem countCrcFailure_trk (s : State) : (countCrcFailure s).trk = s.trk := rfl
@[simp] theorem countCrcFailure_crcErrCnt (s : State) : (countCrcFailure s).crcErrCnt = s.crcErrCnt + 1 := rfl
@[simp] theorem countCrcFailure_crcRes (s : State) : (countCrcFailure s).crcRes = s.crcRes := rfl
@[simp] theorem countCrcFailure_raw (s : State) : (countCrcFailure s).raw = s.raw := rfl
@[simp] theorem countCrcFailure_crcIn (s : State) : (countCrcFailure s).crcIn = s.crcIn := rfl
@[simp] theorem countCrcFailure_chain (s : State) : (countCrcFailure s).chain = s.chain := rfl
@[simp] theorem countCrcFailure_seq (s : State) : (countCrcFailure s).seq = s.seq := rfl
@[simp] theorem countCrcFailure_ma (s : State) : (countCrcFailure s).ma = s.ma := rfl
@[simp] theorem countCrcFailure_lastResp (s : State) : (countCrcFailure s).lastResp = s.lastResp := rfl
@[simp] theorem countCrcFailure_pubValid (s : State) : (countCrcFailure s).pubValid = s.pubValid := rfl
@[simp] theorem countCrcFailure_inbox (s : State) : (countCrcFailure s).inbox = s.inbox := rfl
@[simp] theorem countCrcFailure_encBits (s : State) : (countCrcFailure s).encBits = s.encBits := rfl
@[simp] theorem countCrcFailure_clk (s : State) : (countCrcFailure s).clk = s.clk := rfl
@[simp] theorem countCrcFailure_mtWidth (s : State) : (countCrcFailure s).mtWidth = s.mtWidth := rfl
@[simp] theorem countCrcFailure_stWidth (s : State) : (countCrcFailure s).stWidth = s.stWidth := rfl
@[simp] theorem countCrcFailure_polePairs (s : State) : (countCrcFailure s).polePairs = s.polePairs := rfl
@[simp] theorem countCrcFailure_baudDiv (s : State) : (countCrcFailure s).baudDiv = s.baudDiv := rfl
@[simp] theorem countCrcFailure_calLen (s : State) : (countCrcFailure s).calLen = s.calLen := rfl
@[simp] theorem countCrcFailure_capBits (s : State) : (countCrcFailure s).capBits = s.capBits := rfl
@[simp] theorem countCrcFailure_busy (s : State) : (countCrcFailure s).busy = s.busy := rfl
@[simp] theorem countCrcFailure_capturing (s : State) : (countCrcFailure s).capturing = s.capturing := rfl

@[simp] theorem receiveFrame_param (s : State) : (receiveFrame s).param = s.param := rfl
@[simp] theorem receiveFrame_cfg0 (s : State) : (receiveFrame s).cfg0 = s.cfg0 := rfl
@[simp] theorem receiveFrame_cfg1 (s : State) : (receiveFrame s).cfg1 = s.cfg1 := rfl
@[simp] theorem receiveFrame_scfg0 (s : State) : (receiveFrame s).scfg0 = s.scfg0 := rfl
@[simp] theorem receiveFrame_scfg1 (s : State) : (receiveFrame s).scfg1 = s.scfg1 := rfl
@[simp] theorem receiveFrame_initDone (s : State) : (receiveFrame s).initDone = s.initDone := rfl
@[simp] theorem receiveFrame_err (s : State) : (receiveFrame s).err = s.err := rfl
@[simp] theorem receiveFrame_fsm (s : State) : (receiveFrame s).fsm = s.fsm := rfl
@[simp] theorem receiveFrame_lastOp (s : State) : (receiveFrame s).lastOp = s.lastOp := rfl
@[simp] theorem receiveFrame_curCmd (s : State) : (receiveFrame s).curCmd = s.curCmd := rfl
@[simp] theorem receiveFrame_irqEn (s : State) : (receiveFrame s).irqEn = s.irqEn := rfl
@[simp] theorem receiveFrame_irqStatus (s : State) : (receiveFrame s).irqStatus = s.irqStatus := rfl
@[simp] theorem receiveFrame_cal (s : State) : (receiveFrame s).cal = s.cal := rfl
@[simp] theorem receiveFrame_off (s : State) : (receiveFrame s).off = s.off := rfl
@[simp] theorem receiveFrame_trk (s : State) : (receiveFrame s).trk = s.trk := rfl
@[simp] theorem receiveFrame_crcErrCnt (s : State) : (receiveFrame s).crcErrCnt = s.crcErrCnt := rfl
@[simp] theorem receiveFrame_crcRes (s : State) : (receiveFrame s).crcRes = s.crcRes := rfl
@[simp] theorem receiveFrame_crcIn (s : State) : (receiveFrame s).crcIn = s.crcIn := rfl
@[simp] theorem receiveFrame_chain (s : State) : (receiveFrame s).chain = s.chain := rfl
@[simp] theorem receiveFrame_seq (s : State) : (receiveFrame s).seq = s.seq := rfl
@[simp] theorem receiveFrame_ma (s : State) : (receiveFrame s).ma = s.ma := rfl
@[simp] theorem receiveFrame_lastResp (s : State) : (receiveFrame s).lastResp = s.lastResp := rfl
@[simp] theorem receiveFrame_pubValid (s : State) : (receiveFrame s).pubValid = s.pubValid := rfl
@[simp] theorem receiveFrame_inbox (s : State) : (receiveFrame s).inbox = s.inbox := rfl
@[simp] theorem receiveFrame_encBits (s : State) : (receiveFrame s).encBits = s.encBits := rfl
@[simp] theorem receiveFrame_clk (s : State) : (receiveFrame s).clk = s.clk := rfl
@[simp] theorem receiveFrame_mtWidth (s : State) : (receiveFrame s).mtWidth = s.mtWidth := rfl
@[simp] theorem receiveFrame_stWidth (s : State) : (receiveFrame s).stWidth = s.stWidth := rfl
@[simp] theorem receiveFrame_polePairs (s : State) : (receiveFrame s).polePairs = s.polePairs := rfl
@[simp] theorem receiveFrame_baudDiv (s : State) : (receiveFrame s).baudDiv = s.baudDiv := rfl
@[simp] theorem receiveFrame_calLen (s : State) : (receiveFrame s).calLen = s.calLen := rfl
@[simp] theorem receiveFrame_capBits (s : State) : (receiveFrame s).capBits = s.capBits := rfl
@[simp] theorem receiveFrame_busy (s : State) : (receiveFrame s).busy = s.busy := rfl
@[simp] theorem receiveFrame_capturing (s : State) : (receiveFrame s).capturing = s.capturing := rfl

@[simp] theorem beginTurn_param (s : State) : (beginTurn s).param = s.param := rfl
@[simp] theorem beginTurn_cfg0 (s : State) : (beginTurn s).cfg0 = s.cfg0 := rfl
@[simp] theorem beginTurn_cfg1 (s : State) : (beginTurn s).cfg1 = s.cfg1 := rfl
@[simp] theorem beginTurn_scfg0 (s : State) : (beginTurn s).scfg0 = s.scfg0 := rfl
@[simp] theorem beginTurn_scfg1 (s : State) : (beginTurn s).scfg1 = s.scfg1 := rfl
@[simp] theorem beginTurn_initDone (s : State) : (beginTurn s).initDone = s.initDone := rfl
@[simp] theorem beginTurn_err (s : State) : (beginTurn s).err = s.err := rfl
@[simp] theorem beginTurn_fsm (s : State) : (beginTurn s).fsm = s.fsm := rfl
@[simp] theorem beginTurn_lastOp (s : State) : (beginTurn s).lastOp = s.lastOp := rfl
@[simp] theorem beginTurn_curCmd (s : State) : (beginTurn s).curCmd = s.curCmd := rfl
@[simp] theorem beginTurn_irqEn (s : State) : (beginTurn s).irqEn = s.irqEn := rfl
@[simp] theorem beginTurn_irqStatus (s : State) : (beginTurn s).irqStatus = s.irqStatus := rfl
@[simp] theorem beginTurn_cal (s : State) : (beginTurn s).cal = s.cal := rfl
@[simp] theorem beginTurn_frame (s : State) : (beginTurn s).frame = s.frame := rfl
@[simp] theorem beginTurn_off (s : State) : (beginTurn s).off = s.off := rfl
@[simp] theorem beginTurn_trk (s : State) : (beginTurn s).trk = s.trk := rfl
@[simp] theorem beginTurn_crcErrCnt (s : State) : (beginTurn s).crcErrCnt = s.crcErrCnt := rfl
@[simp] theorem beginTurn_crcRes (s : State) : (beginTurn s).crcRes = s.crcRes := rfl
@[simp] theorem beginTurn_raw (s : State) : (beginTurn s).raw = s.raw := rfl
@[simp] theorem beginTurn_crcIn (s : State) : (beginTurn s).crcIn = s.crcIn := rfl
@[simp] theorem beginTurn_chain (s : State) : (beginTurn s).chain = s.chain := rfl
@[simp] theorem beginTurn_seq (s : State) : (beginTurn s).seq = s.seq := rfl
@[simp] theorem beginTurn_ma (s : State) : (beginTurn s).ma = s.ma := rfl
@[simp] theorem beginTurn_lastResp (s : State) : (beginTurn s).lastResp = s.lastResp := rfl
@[simp] theorem beginTurn_pubValid (s : State) : (beginTurn s).pubValid = false := rfl
@[simp] theorem beginTurn_inbox (s : State) : (beginTurn s).inbox = s.inbox := rfl
@[simp] theorem beginTurn_encBits (s : State) : (beginTurn s).encBits = s.encBits := rfl
@[simp] theorem beginTurn_clk (s : State) : (beginTurn s).clk = s.clk + stepCycles s := rfl
@[simp] theorem beginTurn_mtWidth (s : State) : (beginTurn s).mtWidth = s.mtWidth := rfl
@[simp] theorem beginTurn_stWidth (s : State) : (beginTurn s).stWidth = s.stWidth := rfl
@[simp] theorem beginTurn_polePairs (s : State) : (beginTurn s).polePairs = s.polePairs := rfl
@[simp] theorem beginTurn_baudDiv (s : State) : (beginTurn s).baudDiv = s.baudDiv := rfl
@[simp] theorem beginTurn_calLen (s : State) : (beginTurn s).calLen = s.calLen := rfl
@[simp] theorem beginTurn_capBits (s : State) : (beginTurn s).capBits = s.capBits := rfl
@[simp] theorem beginTurn_busy (s : State) : (beginTurn s).busy = s.busy := rfl
@[simp] theorem beginTurn_capturing (s : State) : (beginTurn s).capturing = s.capturing := rfl

@[simp] theorem loadCommand_param (w : Word) (s : State) : (loadCommand w s).param = s.param := rfl
@[simp] theorem loadCommand_cfg0 (w : Word) (s : State) : (loadCommand w s).cfg0 = s.cfg0 := rfl
@[simp] theorem loadCommand_cfg1 (w : Word) (s : State) : (loadCommand w s).cfg1 = s.cfg1 := rfl
@[simp] theorem loadCommand_scfg0 (w : Word) (s : State) : (loadCommand w s).scfg0 = s.scfg0 := rfl
@[simp] theorem loadCommand_scfg1 (w : Word) (s : State) : (loadCommand w s).scfg1 = s.scfg1 := rfl
@[simp] theorem loadCommand_initDone (w : Word) (s : State) : (loadCommand w s).initDone = s.initDone := rfl
@[simp] theorem loadCommand_err (w : Word) (s : State) : (loadCommand w s).err = s.err := rfl
@[simp] theorem loadCommand_fsm (w : Word) (s : State) : (loadCommand w s).fsm = .exec := rfl
@[simp] theorem loadCommand_lastOp (w : Word) (s : State) : (loadCommand w s).lastOp = opField w := rfl
@[simp] theorem loadCommand_curCmd (w : Word) (s : State) : (loadCommand w s).curCmd = w := rfl
@[simp] theorem loadCommand_irqEn (w : Word) (s : State) : (loadCommand w s).irqEn = s.irqEn := rfl
@[simp] theorem loadCommand_irqStatus (w : Word) (s : State) : (loadCommand w s).irqStatus = s.irqStatus := rfl
@[simp] theorem loadCommand_cal (w : Word) (s : State) : (loadCommand w s).cal = s.cal := rfl
@[simp] theorem loadCommand_frame (w : Word) (s : State) : (loadCommand w s).frame = s.frame := rfl
@[simp] theorem loadCommand_off (w : Word) (s : State) : (loadCommand w s).off = s.off := rfl
@[simp] theorem loadCommand_trk (w : Word) (s : State) : (loadCommand w s).trk = s.trk := rfl
@[simp] theorem loadCommand_crcErrCnt (w : Word) (s : State) : (loadCommand w s).crcErrCnt = s.crcErrCnt := rfl
@[simp] theorem loadCommand_crcRes (w : Word) (s : State) : (loadCommand w s).crcRes = s.crcRes := rfl
@[simp] theorem loadCommand_raw (w : Word) (s : State) : (loadCommand w s).raw = s.raw := rfl
@[simp] theorem loadCommand_crcIn (w : Word) (s : State) : (loadCommand w s).crcIn = s.crcIn := rfl
@[simp] theorem loadCommand_chain (w : Word) (s : State) : (loadCommand w s).chain = s.chain := rfl
@[simp] theorem loadCommand_seq (w : Word) (s : State) : (loadCommand w s).seq = s.seq := rfl
@[simp] theorem loadCommand_ma (w : Word) (s : State) : (loadCommand w s).ma = s.ma := rfl
@[simp] theorem loadCommand_lastResp (w : Word) (s : State) : (loadCommand w s).lastResp = s.lastResp := rfl
@[simp] theorem loadCommand_pubValid (w : Word) (s : State) : (loadCommand w s).pubValid = s.pubValid := rfl
@[simp] theorem loadCommand_inbox (w : Word) (s : State) : (loadCommand w s).inbox = .turn :: s.inbox := rfl
@[simp] theorem loadCommand_encBits (w : Word) (s : State) : (loadCommand w s).encBits = s.encBits := rfl
@[simp] theorem loadCommand_clk (w : Word) (s : State) : (loadCommand w s).clk = s.clk := rfl
@[simp] theorem loadCommand_mtWidth (w : Word) (s : State) : (loadCommand w s).mtWidth = s.mtWidth := rfl
@[simp] theorem loadCommand_stWidth (w : Word) (s : State) : (loadCommand w s).stWidth = s.stWidth := rfl
@[simp] theorem loadCommand_polePairs (w : Word) (s : State) : (loadCommand w s).polePairs = s.polePairs := rfl
@[simp] theorem loadCommand_baudDiv (w : Word) (s : State) : (loadCommand w s).baudDiv = s.baudDiv := rfl
@[simp] theorem loadCommand_calLen (w : Word) (s : State) : (loadCommand w s).calLen = s.calLen := rfl
@[simp] theorem loadCommand_capBits (w : Word) (s : State) : (loadCommand w s).capBits = s.capBits := rfl

end Sys2Proof.Machine
end

