-- ==== Sys2Proof/Laws/Ops.lean ====
section
/-! SUPPORT. One lemma per shared operation that says once everything it can do, for later proofs to cite instead of
unfolding it. -/

namespace Sys2Proof.Machine

/-! ### Completion -/

theorem complete_eq (s : State) : complete s = .next (finish .none s) := rfl

theorem raiseError_eq (code : ErrCode) (s : State) : raiseError code s = .next (finish code s) := rfl

@[simp] theorem irqOfCompletion_none : irqOfCompletion .none = 0b0001 := rfl

/-- Any code but NONE sets DONE and ERR (R202). -/
@[simp] theorem irqOfCompletion_error {code : ErrCode} (h : code ≠ .none) : irqOfCompletion code = 0b0011 := by
  simp [irqOfCompletion, h, irqDone, irqErr]

/-! ### The chain -/

@[simp] theorem shiftIn_length (b : Bool) (ws : List Word) : (shiftIn b ws).length = ws.length := by
  induction ws generalizing b with
  | nil => rfl
  | cons w rest ih => simp [shiftIn, ih]

/-- Bit 0 of the shifted chain is the sample (R174). -/
theorem chainBit_shiftIn_zero (b : Bool) (ws : List Word) (h : 0 < ws.length) : chainBit (shiftIn b ws) 0 = b := by
  cases ws with
  | nil => simp at h
  | cons w rest => cases b <;> simp [chainBit, shiftIn, wordAt]

/-- Every other bit of the shifted chain is the one below it, up to the chain's top bit (R174). -/
theorem chainBit_shiftIn_succ (b : Bool) (ws : List Word) (j : Nat) (h : j + 1 < 32 * ws.length) :
    chainBit (shiftIn b ws) (j + 1) = chainBit ws j := by
  induction ws generalizing b j with
  | nil => simp at h
  | cons w rest ih =>
    simp only [List.length_cons] at h
    by_cases h32 : j + 1 < 32
    · have h1 : (j + 1) / 32 = 0 := by omega
      have h2 : j / 32 = 0 := by omega
      have h3 : (j + 1) % 32 = j + 1 := by omega
      have h4 : j % 32 = j := by omega
      simp only [chainBit, shiftIn, wordAt, h1, h2, h3, h4, List.getD_cons_zero]
      have hj : j < 32 := by omega
      cases b <;> simp [h32, BitVec.getLsbD_eq_getElem hj]
    · by_cases h31 : j = 31
      · subst h31
        have hr : 0 < rest.length := by omega
        change chainBit (shiftIn w.msb rest) 0 = w.getLsbD 31
        rw [chainBit_shiftIn_zero _ _ hr, BitVec.msb_eq_getLsbD_last]
      · obtain ⟨k, rfl⟩ : ∃ k, j = k + 32 := ⟨j - 32, by omega⟩
        have := ih w.msb k (by omega)
        simp only [chainBit, wordAt] at this ⊢
        have e1 : (k + 32 + 1) / 32 = (k + 1) / 32 + 1 := by omega
        have e2 : (k + 32) / 32 = k / 32 + 1 := by omega
        have e3 : (k + 32 + 1) % 32 = (k + 1) % 32 := by omega
        have e4 : (k + 32) % 32 = k % 32 := by omega
        simpa [shiftIn, e1, e2, e3, e4] using this

/-- Above the chain every bit reads 0. -/
theorem chainBit_of_le (ws : List Word) (j : Nat) (h : 32 * ws.length ≤ j) : chainBit ws j = false := by
  have : ws[j / 32]? = none := by simp; omega
  simp [chainBit, wordAt, List.getD, this]

theorem chainBit_replicate (n j : Nat) : chainBit (List.replicate n 0) j = false := by
  by_cases h : j / 32 < n <;> simp [chainBit, wordAt, List.getD, h]

/-- The chain as a number and its bits agree (R74). -/
theorem testBit_chainValue (ws : List Word) (j : Nat) : (chainValue ws).testBit j = chainBit ws j := by
  induction ws generalizing j with
  | nil => simp [chainValue, chainBit, wordAt]
  | cons w rest ih =>
    have hw : w.toNat < 2 ^ 32 := w.isLt
    rw [chainValue, Nat.add_comm, Nat.testBit_two_pow_mul_add _ hw]
    by_cases h : j < 32
    · have h1 : j / 32 = 0 := by omega
      have h2 : j % 32 = j := by omega
      simp [h, chainBit, wordAt, h1, h2, BitVec.getLsbD]
    · obtain ⟨k, rfl⟩ : ∃ k, j = k + 32 := ⟨j - 32, by omega⟩
      have e2 : (k + 32) / 32 = k / 32 + 1 := by omega
      have e4 : (k + 32) % 32 = k % 32 := by omega
      simp [ih, chainBit, wordAt, e2, e4]

theorem chainValue_lt (ws : List Word) : chainValue ws < 2 ^ (32 * ws.length) := by
  induction ws with
  | nil => simp [chainValue]
  | cons w rest ih =>
    have hw : w.toNat < 2 ^ 32 := w.isLt
    simp only [chainValue, List.length_cons, Nat.mul_add, Nat.mul_one, Nat.pow_add]
    nlinarith

/-! ### The tick -/

/-- A tick of a running transaction, everything it does (R174). -/
theorem tick_running {s : State} (h : s.seq.k < s.seq.t) :
    tick s = { s with
      chain := shiftIn (sample s) s.chain
      seq := { s.seq with k := s.seq.k + 1 }
      encBits := s.encBits.tail
      ma := true } := by
  have : maInTick s.baudDiv (tickCycles s.baudDiv - 1) = true := by
    simp [maInTick, tickCycles]; omega
  simp [tick, h, this]

/-- A finished transaction takes no tick (R174). -/
theorem tick_finished {s : State} (h : ¬ s.seq.k < s.seq.t) : tick s = s := by simp [tick, h]

/-! ### Steps -/

@[simp] theorem coreTurn_idle {s : State} (h : s.fsm = .idle) : coreTurn s = .next (beginTurn s) := by
  simp [coreTurn, h]

/-- Everything a step can be: a core step, a host access, or a reset edge. -/
theorem step_cases (s : State) :
    (∃ s', CoreTurnNext s s' ∧ step s = coreTurn s') ∨
    (∃ a rest, s.inbox = .access a :: rest ∧
      step s = .next (busAccess a { s with inbox := rest, pubValid := false })) ∨
    (∃ p rest, s.inbox = .resetEdge p :: rest ∧ step s = .next (resetEdge p { s with inbox := rest })) := by
  match h : s.inbox with
  | [] => exact .inl ⟨s, .inl ⟨h, rfl⟩, by simp [step, nextEvent, h]⟩
  | .turn :: rest => exact .inl ⟨_, .inr ⟨rest, h, rfl⟩, by simp [step, nextEvent, h]⟩
  | .access a :: rest => exact .inr (.inl ⟨a, rest, rfl, by simp [step, nextEvent, h, accessTurn]⟩)
  | .resetEdge p :: rest => exact .inr (.inr ⟨p, rest, rfl, by simp [step, nextEvent, h]⟩)

/-- A core turn steps as `coreTurn` of the state with the turn taken off. -/
theorem step_of_coreTurnNext {s s' : State} (h : CoreTurnNext s s') : step s = coreTurn s' := by
  obtain ⟨h, rfl⟩ | ⟨rest, h, rfl⟩ := h <;> simp [step, nextEvent, h]

/-- Taking a turn off the list changes only the list. -/
theorem CoreTurnNext.eq {s s' : State} (h : CoreTurnNext s s') : s' = { s with inbox := s'.inbox } := by
  obtain ⟨_, rfl⟩ | ⟨rest, _, rfl⟩ := h <;> rfl

/-- Everything a host access can do: answer only, or write a register and answer (R103 to R105, R432). -/
theorem busAccess_cases (a : BusAccess) (s : State) :
    (∃ r, busAccess a s = { s with lastResp := r }) ∨
    busAccess a s =
      { writeReg (regAt s.param.nsMax a.addr.toNat) a.wdata s with lastResp := { rdata := none, err := false } } := by
  unfold busAccess
  split
  · exact .inl ⟨_, rfl⟩
  · split
    · exact .inr rfl
    · split <;> exact .inl ⟨_, rfl⟩

end Sys2Proof.Machine
end

