-- ==== Sys2Proof/Laws/PerInstr.lean ====
section
/-! SUPPORT. The per-instruction families of LAWS.json, one lemma for each constructor of Instr. -/

namespace Sys2Proof.Laws

/-- The word of a command lies in the command's own row of the opcode table: masked, it is the row's bits. -/
def EncodedRow.Statement (i : Instr) : Prop := encode i &&& i.row.mask = i.row.bits

theorem EncodedRow.nop : EncodedRow.Statement .nop := by unfold Statement; decide

theorem EncodedRow.init : EncodedRow.Statement .init := by unfold Statement; decide

theorem EncodedRow.calibrate : EncodedRow.Statement .calibrate := by unfold Statement; decide

theorem EncodedRow.read : EncodedRow.Statement .read := by unfold Statement; decide

theorem EncodedRow.latchOffset : EncodedRow.Statement .latchOffset := by unfold Statement; decide

/-- The fields of a CRC_CHECK word lie outside its row's mask, whatever they hold. -/
theorem EncodedRow.crcCheck (bitLen : Nat) (rcrc : BitVec 6) : EncodedRow.Statement (.crcCheck bitLen rcrc) := by
  apply BitVec.eq_of_getLsbD_eq
  intro j hj
  simp only [encode, enc, Instr.row, BitVec.getLsbD_and, BitVec.getLsbD_append]
  interval_cases j <;> simp

/-- The NW field of a DECODE word lies outside its row's mask, whatever it holds. -/
theorem EncodedRow.decode (nw : Nat) : EncodedRow.Statement (.decode nw) := by
  apply BitVec.eq_of_getLsbD_eq
  intro j hj
  simp only [encode, enc, Instr.row, BitVec.getLsbD_and, BitVec.getLsbD_append]
  interval_cases j <;> simp

end Sys2Proof.Laws
end

