-- ==== Sys2Proof/Laws/Step.lean ====
section
/-! SUPPORT. What a step can do, said once: every way a core turn ends, what a host access may change, and runs of
several steps. Later proofs take cases on these instead of unfolding the engine. -/

namespace Sys2Proof.Machine

/-! ### Single operations -/

/-- The scan answers the first sample that is 0 (R233). -/
theorem scanDelay_eq_some {delayMax l d : Nat} {ws : List Word} :
    scanDelay delayMax l ws = some d ↔
      d < delayMax ∧ chainBit ws (l - 1 - d) = false ∧ ∀ i < d, chainBit ws (l - 1 - i) = true := by
  unfold scanDelay
  rw [List.find?_range_eq_some]
  simp [and_left_comm]

/-- The scan finds nothing exactly when every sample of its window is 1 (R233). -/
theorem scanDelay_eq_none {delayMax l : Nat} {ws : List Word} :
    scanDelay delayMax l ws = none ↔ ∀ i < delayMax, chainBit ws (l - 1 - i) = true := by
  unfold scanDelay
  rw [List.find?_eq_none]
  simp

/-- The configuration check, as inequalities (R205). -/
theorem legalConfig_iff (p : Params) (c0 c1 : Word) :
    legalConfig p c0 c1 = true ↔
      mtWidthField c0 ≤ 32 ∧ (1 ≤ stWidthField c0 ∧ stWidthField c0 ≤ 32) ∧
        (1 ≤ polePairsField c0 ∧ polePairsField c0 ≤ 255) ∧
        (p.delayMax ≤ calLenField c1 ∧ calLenField c1 ≤ p.capBits) ∧
        mtWidthField c0 + stWidthField c0 + 11 ≤ p.capBits := by
  simp only [legalConfig, Bool.and_eq_true, decide_eq_true_eq, show frameOverhead = 11 from rfl, and_assoc]

/-- The frame word grows by one word at its low end (R145). -/
theorem frameWord_succ (n : Nat) (raw : List Word) :
    frameWord (n + 1) raw = frameWord n raw * 2 ^ 32 + (wordAt raw n).toNat := by
  simp only [frameWord, List.range_succ, List.foldl_append, List.foldl_cons, List.foldl_nil]

/-- One step of a transaction touches only the chain, the counters, ENC's samples, MA and the FSM (R174, R176). -/
theorem runTransaction_changes (after : Fsm) (s : State) :
    ∃ chain seq encBits ma fsm, (fsm = after ∨ fsm = s.fsm) ∧
      runTransaction after s =
        { s with chain := chain, seq := seq, encBits := encBits, ma := ma, fsm := fsm } := by
  unfold runTransaction tick
  dsimp only
  split <;> split
  · exact ⟨_, _, _, _, _, .inl rfl, rfl⟩
  · exact ⟨_, _, _, _, _, .inr rfl, rfl⟩
  · exact ⟨_, _, _, _, _, .inl rfl, rfl⟩
  · exact ⟨s.chain, s.seq, s.encBits, s.ma, s.fsm, .inr rfl, rfl⟩

/-- FRAME_PROC of a frame whose CRC failed (R266). -/
theorem frameProcStep_bad {s : State} (h : (receiveFrame s).frame.crcOk = false) :
    frameProcStep s = finish .none (countCrcFailure (receiveFrame s)) := by
  simp [frameProcStep, frameProcWith, h]

/-- FRAME_PROC of a frame whose CRC matched (R260). -/
theorem frameProcStep_good {s : State} (h : (receiveFrame s).frame.crcOk = true) :
    frameProcStep s = finish .none (trackerUpdate (receiveFrame s)) := by
  simp [frameProcStep, frameProcWith, trackerUpdate, h]

/-! ### A core turn -/

/-- Every way a core turn from `s` can end, with the command and the conditions that lead there. -/
inductive CoreTurn (s : State) : State → Prop
  | idle : s.fsm = .idle → CoreTurn s (beginTurn s)
  | error (code : ErrCode) : s.fsm = .exec → code ≠ .none → CoreTurn s (finish code (beginTurn s))
  | nop : s.fsm = .exec → decodeWord s.curCmd = .ok .nop → CoreTurn s (finish .none (beginTurn s))
  | init : s.fsm = .exec → decodeWord s.curCmd = .ok .init → legalConfig s.param s.cfg0 s.cfg1 = true →
      CoreTurn s (finish .none (openSession (beginTurn s)))
  | startTrial (trial : BitVec 2) :
      (s.fsm = .exec ∧ decodeWord s.curCmd = .ok .calibrate ∧ s.initDone = true ∧ s.cal.fail = false ∧ trial = 1) ∨
        (s.fsm = .calEval ∧ s.seq.trial = 1 ∧ trial = 2) →
      CoreTurn s
        { startTransaction (BitVec.ofNat 16 s.calLen) (beginTurn s) with
          seq := { (startTransaction (BitVec.ofNat 16 s.calLen) (beginTurn s)).seq with trial := trial }
          fsm := .calRun }
  | startFrame : s.fsm = .exec → decodeWord s.curCmd = .ok .read → s.initDone = true → s.cal.fail = false →
      s.cal.done = true → CoreTurn s { startTransaction s.cal.flen (beginTurn s) with fsm := .frameRun }
  | latch : s.fsm = .exec → decodeWord s.curCmd = .ok .latchOffset → s.initDone = true → s.frame.held = true →
      s.frame.crcOk = true → CoreTurn s (finish .none (latchOffsets (beginTurn s)))
  | crcCheck (l : Nat) (rcrc : BitVec 6) : s.fsm = .exec → decodeWord s.curCmd = .ok (.crcCheck l rcrc) →
      l ≤ s.capBits → CoreTurn s (finish .none (storeCrcResult l rcrc (beginTurn s)))
  | decode (nw : Nat) : s.fsm = .exec → decodeWord s.curCmd = .ok (.decode nw) → s.initDone = true → 1 ≤ nw →
      nw ≤ s.param.nsMax → s.mtWidth + s.stWidth + 8 ≤ 32 * nw →
      CoreTurn s
        (finish .none (decodeFrame (frameWord nw s.raw) (validateFrame (frameWord nw s.raw) (beginTurn s))))
  | calTick : s.fsm = .calRun → CoreTurn s (runTransaction .calEval (beginTurn s))
  | frameTick : s.fsm = .frameRun → CoreTurn s (runTransaction .frameProc (beginTurn s))
  | calFail (code : ErrCode) : s.fsm = .calEval → code = .noStartPattern ∨ code = .frameTooLong →
      CoreTurn s (finish code (markCalFailed (beginTurn s)))
  | calDone (d : Nat) : s.fsm = .calEval → scanDelay s.param.delayMax s.calLen s.chain = some d →
      frameLength d s.mtWidth s.stWidth ≤ s.capBits → CoreTurn s (finish .none (storeCalibration d (beginTurn s)))
  | frameGood : s.fsm = .frameProc → (receiveFrame (beginTurn s)).frame.crcOk = true →
      CoreTurn s (finish .none (trackerUpdate (receiveFrame (beginTurn s))))
  | frameBad : s.fsm = .frameProc → (receiveFrame (beginTurn s)).frame.crcOk = false →
      CoreTurn s (finish .none (countCrcFailure (receiveFrame (beginTurn s))))

/-- The cases of `CoreTurn` are all there are. -/
theorem coreTurn_cases {s t : State} (h : coreTurn s = .next t) : CoreTurn s t := by
  unfold coreTurn at h
  split at h
  · cases h; exact .idle ‹_›
  · rename_i hf
    unfold execTurn at h
    split at h
    · rename_i i hi
      replace hi : decodeWord s.curCmd = .ok i := hi
      cases i with
      | nop => cases h; exact .nop hf hi
      | init =>
        simp only [exec, execInit] at h
        split at h <;> cases h
        · exact .init hf hi (by simpa using ‹legalConfig _ _ _ = true›)
        · exact .error _ hf (by simp)
      | calibrate =>
        simp only [exec, execCalibrate] at h
        split at h <;> [skip; split at h] <;> cases h
        · exact .error _ hf (by simp)
        · exact .error _ hf (by simp)
        · rename_i h1 h2
          exact .startTrial 1 (.inl ⟨hf, hi, by simpa using h1, by simpa using h2, rfl⟩)
      | read =>
        simp only [exec, execRead] at h
        split at h <;> [skip; split at h <;> [skip; split at h]] <;> cases h
        · exact .error _ hf (by simp)
        · exact .error _ hf (by simp)
        · exact .error _ hf (by simp)
        · rename_i h1 h2 h3
          exact .startFrame hf hi (by simpa using h1) (by simpa using h2) (by simpa using h3)
      | latchOffset =>
        simp only [exec, execLatchOffset] at h
        split at h <;> [skip; split at h] <;> cases h
        · exact .error _ hf (by simp)
        · exact .error _ hf (by simp)
        · rename_i h1 h2
          simp only [not_or, Bool.not_eq_false] at h2
          exact .latch hf hi (by simpa using h1) h2.1 h2.2
      | crcCheck l r =>
        simp only [exec, execCrcCheck] at h
        split at h <;> cases h
        · exact .error _ hf (by simp)
        · rename_i h1
          exact .crcCheck l r hf hi (Nat.le_of_not_gt h1)
      | decode n =>
        simp only [exec, execDecode] at h
        split at h <;> [skip; split at h] <;> cases h
        · exact .error _ hf (by simp)
        · exact .error _ hf (by simp)
        · rename_i h1 h2
          simp only [beginTurn_mtWidth, beginTurn_stWidth, beginTurn_param] at h2
          exact .decode n hf hi (by simpa using h1) (by omega) (by omega) (by omega)
    · cases h; exact .error _ hf (by simp)
  · cases h; exact .calTick ‹_›
  · rename_i hf
    cases h
    unfold calEvalStep
    split
    · rename_i d hd
      split
      · exact .calFail _ hf (.inr rfl)
      · rename_i h1
        exact .calDone _ hf hd (Nat.le_of_not_gt h1)
    · split
      · exact .startTrial 2 (.inr ⟨hf, by simpa using ‹_ = (1 : BitVec 2)›, rfl⟩)
      · exact .calFail _ hf (.inl rfl)
  · cases h; exact .frameTick ‹_›
  · rename_i hf
    cases h
    cases h : (receiveFrame (beginTurn s)).frame.crcOk
    · rw [frameProcStep_bad h]; exact .frameBad hf h
    · rw [frameProcStep_good h]; exact .frameGood hf h

/-- A step is a core turn, a host access, or a reset edge. -/
theorem step_next_cases {s t : State} (h : step s = .next t) :
    (∃ s', CoreTurnNext s s' ∧ CoreTurn s' t) ∨
    (∃ a rest, s.inbox = .access a :: rest ∧ t = busAccess a { s with inbox := rest, pubValid := false }) ∨
    (∃ p rest, s.inbox = .resetEdge p :: rest ∧ t = resetEdge p { s with inbox := rest }) := by
  rcases step_cases s with ⟨s', hn, e⟩ | ⟨a, rest, hx, e⟩ | ⟨p, rest, hx, e⟩ <;> rw [e] at h
  · exact .inl ⟨s', hn, coreTurn_cases h⟩
  · exact .inr (.inl ⟨a, rest, hx, (Host.Outcome.next.inj h).symm⟩)
  · exact .inr (.inr ⟨p, rest, hx, (Host.Outcome.next.inj h).symm⟩)

/-! ### A host access -/

/-- A supported host write at an aligned offset writes that register (R104). -/
theorem busAccess_hostWrite (off : Nat) (v : Word) (s : State) (h : off < 0x200) (h4 : off % 4 = 0) :
    busAccess (hostWrite off v) s =
      { writeReg (regAt s.param.nsMax off) v s with lastResp := { rdata := none, err := false } } := by
  have e : off % 512 = off := by omega
  simp [busAccess, BusAccess.refusedByBus, hostWrite, e, h4]

/-- All a register write may change, and that it never moves a running command's FSM state (R103, R200). -/
theorem writeReg_changes (r : WinReg) (v : Word) (s : State) :
    ∃ cfg0 cfg1 irqEn irqStatus raw crcIn curCmd lastOp fsm, (s.fsm ≠ .idle → fsm = s.fsm) ∧
      writeReg r v s = { s with
        cfg0 := cfg0, cfg1 := cfg1, irqEn := irqEn, irqStatus := irqStatus, raw := raw, crcIn := crcIn
        curCmd := curCmd, lastOp := lastOp, fsm := fsm } := by
  cases r with
  | cmd =>
    simp only [writeReg, writeCmd]
    split
    · exact ⟨_, _, _, _, _, _, _, _, _, fun h => absurd ‹_› h, rfl⟩
    · exact ⟨_, _, _, _, _, _, _, _, _, fun _ => rfl, rfl⟩
  | raw i =>
    simp only [writeReg]
    split <;> exact ⟨_, _, _, _, _, _, _, _, _, fun _ => rfl, rfl⟩
  | _ => exact ⟨_, _, _, _, _, _, _, _, _, fun _ => rfl, rfl⟩

/-- All a host access may change. -/
theorem busAccess_changes (a : BusAccess) (s : State) :
    ∃ cfg0 cfg1 irqEn irqStatus raw crcIn curCmd lastOp fsm lastResp, (s.fsm ≠ .idle → fsm = s.fsm) ∧
      busAccess a s = { s with
        cfg0 := cfg0, cfg1 := cfg1, irqEn := irqEn, irqStatus := irqStatus, raw := raw, crcIn := crcIn
        curCmd := curCmd, lastOp := lastOp, fsm := fsm, lastResp := lastResp } := by
  rcases busAccess_cases a s with ⟨r, e⟩ | e
  · exact ⟨_, _, _, _, _, _, _, _, _, _, fun _ => rfl, e⟩
  · obtain ⟨_, _, _, _, _, _, _, _, _, hf, e'⟩ := writeReg_changes (regAt s.param.nsMax a.addr.toNat) a.wdata s
    rw [e, e']
    exact ⟨_, _, _, _, _, _, _, _, _, _, hf, rfl⟩

/-! ### The buffers keep their sizes -/

/-- A register write keeps every buffer at its size. -/
theorem writeReg_buffersOk {s : State} (r : WinReg) (v : Word) (h : BuffersOk s) : BuffersOk (writeReg r v s) := by
  cases r with
  | cmd => simp only [writeReg, writeCmd]; split <;> exact h
  | raw i => simp only [writeReg]; split <;> simpa [BuffersOk] using h
  | crcIn i => simpa [BuffersOk, writeReg] using h
  | _ => exact h

/-- A host access keeps every buffer at its size. -/
theorem busAccess_buffersOk {s : State} (a : BusAccess) (h : BuffersOk s) : BuffersOk (busAccess a s) := by
  rcases busAccess_cases a s with ⟨r, e⟩ | e <;> rw [e]
  · exact h
  · exact writeReg_buffersOk _ _ h

/-- A transaction step keeps every buffer at its size. -/
theorem runTransaction_buffersOk {s : State} (after : Fsm) (h : BuffersOk s) :
    BuffersOk (runTransaction after s) := by
  unfold runTransaction tick
  dsimp only
  split <;> split <;> simpa [BuffersOk] using h

/-- Assembly makes RAW exactly NS_MAX words (R263). -/
theorem assemble_buffersOk {s : State} (h : BuffersOk s) : BuffersOk (assemble s) := by
  simpa [BuffersOk] using h.2

/-! ### Runs -/

/-- A run's first step. -/
theorem run_succ {s t : State} (k : Nat) (h : step s = .next t) : core.run (k + 1) s = core.run k t := by
  have h' : core.step s = .next t := h
  simp only [Host.Core.run]
  rw [h']

/-- Two runs, one after the other. -/
theorem run_add {s t : State} (a b : Nat) (h : core.run a s = .next t) : core.run (a + b) s = core.run b t := by
  induction a generalizing s with
  | zero =>
    have h' : s = t := Host.Outcome.next.inj h
    subst h'
    simp
  | succ a ih =>
    rw [Nat.add_right_comm]
    rcases hs : step s with u | r | r
    · rw [run_succ _ hs] at h ⊢
      exact ih h
    · cases r
    · have h' : core.step s = .refused r := hs
      simp only [Host.Core.run] at h
      rw [h'] at h
      cases h

end Sys2Proof.Machine
end

