-- ==== Sys2Proof/Tests/Slice0.lean ====
section
/-! SUPPORT. Tests on fixed values, their expected results from 95_test_vectors.md and the worked examples of the
section files (each named in its docstring), and one witness for the hypotheses of each obligation. -/

namespace Sys2Proof.Tests

open Sys2Proof.Machine

/-! ## Helpers -/

/-- The state a step or a meaning answers. -/
def after (o : StepOutcome) : State :=
  match o with
  | .next t => t
  | .fault _ => State.reset
  | .refused _ => State.reset

/-- The outcome is a next state. -/
def goesOn (o : StepOutcome) : Bool :=
  match o with
  | .next _ => true
  | .fault _ => false
  | .refused _ => false

theorem eq_after {o : StepOutcome} (h : goesOn o = true) : o = .next (after o) := by
  cases o with
  | next t => rfl
  | fault r => cases h
  | refused r => cases h

/-- The session S0 of 95_test_vectors.md: N = 12, M = 16, PP = 4, BAUD_DIV = 4, CAL_LEN = 64. -/
def session : State :=
  { State.reset with cfg0 := 0x0004100C, cfg1 := 0x00400004, scfg0 := 0x0004100C, scfg1 := 0x00400004, initDone := true }

/-- S0 after the calibration of V-CAL-1. -/
def calibrated : State :=
  { session with cal := { done := true, fail := false, delay := 5, flen := 44, nsa := 2 } }

/-- S0 holding the scenario frame with a good CRC (V-READ-1). -/
def holding : State :=
  { calibrated with
    frame := { held := true, crcOk := true, errBit := false, warnBit := false, mt := 1, st := 0x100
               rcvCrc := 0x3D, calcCrc := 0x3D } }

/-- A state about to take the EXEC step of a command. -/
def about (i : Instr) (s : State) : State := { acceptCmd (encode i) s with inbox := [] }

/-- The capture of V-SEQ-1, about to be processed. -/
def captured : State :=
  { calibrated with
    chain := [0x0101003D, 0x00000FA0, 0, 0], seq := { t := 44, k := 44, nt := 2, trial := 1 }
    curCmd := 3, lastOp := 3, fsm := .frameProc }

/-- The last trial of V-CAL-1 (V-SEQ-7), about to be judged. -/
def tried : State :=
  { session with
    chain := [0x03D00000, 0xFA001010, 0, 0], seq := { t := 64, k := 64, nt := 2, trial := 1 }
    curCmd := 2, lastOp := 2, fsm := .calEval }

/-- A trial that saw only ones. -/
def triedInVain (trial : BitVec 2) : State :=
  { tried with chain := [0xFFFFFFFF, 0xFFFFFFFF, 0, 0], seq := { t := 64, k := 64, nt := 2, trial := trial } }

/-- The encoder fixture of 95_test_vectors.md 2.2 for the scenario: delay `d`, then 0x40400 and 0x3D. -/
def scenarioBits (d : Nat) : List Bool :=
  List.replicate d true ++ [false, true, false] ++
    (List.range 30).map (fun t => (0x40400 : Nat).testBit (29 - t)) ++ [true, true, true, true, false, true]

/-! ## Encoding -/

/-- An operand that does not fit its field is refused (R133, R135); one that fits is accepted. -/
theorem test_wellFormed_refuses_wide_bitLen : ¬ Instr.WellFormed (.crcCheck 65536 0) := by decide

theorem test_wellFormed_refuses_wide_nw : ¬ Instr.WellFormed (.decode 16) := by decide

theorem test_wellFormed_accepts_limits :
    Instr.WellFormed (.crcCheck 65535 0x3F) ∧ Instr.WellFormed (.decode 15) ∧ Instr.WellFormed .nop := by decide

/-- V-ENC-1: one word for every constructor, its fields written out from R130. -/
theorem test_decode_words :
    decodeWord 0b0000000000000000_00_000000_0000_0000 = .ok .nop ∧
    decodeWord 0b0000000000000000_00_000000_0000_0001 = .ok .init ∧
    decodeWord 0b0000000000000000_00_000000_0000_0010 = .ok .calibrate ∧
    decodeWord 0b0000000000000000_00_000000_0000_0011 = .ok .read ∧
    decodeWord 0b0000000000000000_00_000000_0000_0100 = .ok .latchOffset ∧
    decodeWord 0b0000000010000001_00_101010_0000_0101 = .ok (.crcCheck 129 0x2A) ∧
    decodeWord 0b0000000000000000_00_000000_1111_0110 = .ok (.decode 15) := by decide

/-- V-ENC-2: the twelve illegal words. -/
theorem test_illegal_words :
    ([0x00000007, 0x0000000F, 0x00000011, 0x00000013, 0x00010002, 0x00000014, 0x80000000, 0x00004005, 0x001E3D15,
      0x00000126, 0x00010026, 0x00008026] : List Word).all
      (fun w => match decodeWord w with | .ok _ => false | .error _ => true) = true := by decide

theorem test_encode_words :
    encode (.crcCheck 30 0x3D) = 0x001E3D05 ∧ encode (.decode 2) = 0x00000026 ∧ encode .latchOffset = 0x00000004 := by
  decide

/-- No word lies in two rows of the opcode table. -/
theorem test_rows_disjoint :
    opcodeTable.Pairwise (fun a b => a.bits &&& (a.mask &&& b.mask) ≠ b.bits &&& (a.mask &&& b.mask)) := by decide

theorem test_table_word :
    decodeTableWord 32 0x001E3D05 = some (.crcCheck 30 0x3D) ∧ decodeTableWord 32 0x00004005 = none := by decide

/-! ## One step at a time -/

/-- R209: INIT right after reset fails; the pending S0 opens a session, STATUS = 0x0010_0002. -/
theorem test_init_status :
    statusWord (after (exec .init { session with scfg0 := 0, scfg1 := 0, initDone := false, lastOp := 1 })) = 0x00100002
      ∧ (after (exec .init State.reset)).err = .badConfig := by decide +kernel

/-- R209: BAD_CONFIG without a session, STATUS = 0x0010_3000. -/
theorem test_init_badConfig :
    statusWord (after (step (State.withFetchWord { State.reset with cfg0 := 0x0004000C, cfg1 := 0x00400004 } 32 1)))
      = 0x00103000 := by decide +kernel

theorem test_nop_clears_error :
    (after (step (State.withFetchWord { State.reset with err := .badConfig } 32 0))).err = .none := by decide +kernel

/-- V-CAL-1: d = 5, FRAME_LEN = 0x0002_002C. -/
theorem test_calibrate_scenario :
    (after (step tried)).cal.delay = 5 ∧ frameLenWord (after (step tried)).cal = 0x0002002C := by decide +kernel

/-- R230: CALIBRATE starts a trial of CAL_LEN ticks. -/
theorem test_calibrate_starts :
    (after (step (about .calibrate session))).fsm = .calRun ∧
    (after (step (about .calibrate session))).seq = { t := 64, k := 0, nt := 2, trial := 1 } := by decide +kernel

/-- R269: the scenario frame, MT = 1, ST = 0x100, FRAME_CRC = 0x0000_3D3D. -/
theorem test_read_scenario :
    (after (step captured)).frame.mt = 1 ∧ (after (step captured)).frame.st = 0x100 ∧
    frameCrcWord (after (step captured)).frame = 0x00003D3D ∧
    (after (step captured)).raw = [0x00000FA0, 0x0101003D, 0, 0] := by decide +kernel

/-- R405: READ reports the missing calibration only in a live session that has not failed. -/
theorem test_read_errors :
    (after (exec .read State.reset)).err = .notInitialised ∧ (after (exec .read session)).err = .notCalibrated := by
  decide +kernel

/-- R360: LATCH_OFFSET copies MT and ST, and needs a good frame. -/
theorem test_latch :
    (after (exec .latchOffset holding)).off = { mode := .calibrated, mt := 1, st := 0x100 } ∧
    (after (exec .latchOffset calibrated)).err = .noFrame := by decide +kernel

/-- V-CRC-2 row L = 30: CRC_IN[0] = 0x0008_0800 holds the payload 0x40400, LSB first; check value 0x3D. -/
theorem test_crcCheck_scenario :
    crcResWord (after (exec (.crcCheck 30 0x3D) { State.reset with crcIn := [0x00080800, 0, 0, 0] })).crcRes
      = 0x003D3D01 := by decide +kernel

theorem test_crcCheck_limits :
    (after (exec (.crcCheck 128 0) State.reset)).err = .none ∧
    (after (exec (.crcCheck 129 0) State.reset)).err = .badLen := by decide +kernel

/-- R327: DECODE 2 of RAW = (0x0000_0FA0, 0x0101_003D). -/
theorem test_decode_scenario :
    (after (exec (.decode 2) { session with raw := [0x00000FA0, 0x0101003D, 0, 0] })).frame = holding.frame ∧
    (after (exec (.decode 1) session)).err = .badLen := by decide +kernel

/-- V-TRK-1's position of the scenario frame with no offset: POS = 0x0000_0001_0100 at M = 16. -/
theorem test_tracker_position :
    (after (step captured)).trk.pos = 0x10100 ∧ (after (step captured)).trk.rawAng = 0x100 := by decide +kernel

/-- V-TRK-1, READ 4, with the fixture's answers in place of the estimator: PHERR = 0xFFFF_FE80, ELEC = 0x0600. -/
theorem test_tracker_fixture :
    let s := { holding with
      frame := { holding.frame with st := 0x180 }, off := { mode := .calibrated, mt := 1, st := 0x180 } }
    let u := (trackerUpdateWith { est := fun _ e _ _ => (e, 0x180), speedOf := fun _ => 128 } s).trk
    u.rawAng = 0 ∧ u.phErr = 0xFFFFFE80 ∧ u.elec = 0x600 ∧ u.speed = 128 ∧ u.pos = 0 := by decide +kernel

/-- R184: the capture of V-SEQ-1 as CAP shows it in both orders; in LOW_FIRST the words from seq.NT up keep their
places. -/
theorem test_cap_orders :
    let done := { captured with fsm := .idle, chain := [0x0101003D, 0x00000FA0, 0, 0] }
    let low := { done with param := { done.param with chainOrder := .lowFirst } }
    [0x080, 0x084, 0x088, 0x08C].map (readOffset · done) = [0x0101003D, 0x00000FA0, 0, 0] ∧
      [0x080, 0x084, 0x088, 0x08C].map (readOffset · low) = [0x00000FA0, 0x0101003D, 0, 0] := by decide +kernel

/-- PARAM of the test vectors (R32). -/
theorem test_param : readOffset 0 State.reset = 0x00100404 := by decide +kernel

/-! ## Witnesses: the hypotheses of each obligation can be met -/

theorem witness_DecodeOfEncodeIsIdentity :
    (Instr.crcCheck 65535 0x3F).WellFormed ∧ (Instr.decode 15).WellFormed ∧ Instr.read.WellFormed := by decide

theorem witness_EncodeOfDecodeIsIdentity : decodeWord 0xFFFF3F05 = .ok (.crcCheck 65535 0x3F) := by decide

theorem witness_DecoderRejectsExactlyIllegalFields :
    IllegalFields 0x00000013 ∧ IllegalFields 0x00004005 ∧ IllegalFields 0x0000000F ∧ IllegalFields 0x001E3D15 ∧
      IllegalFields 0x00000126 := by
  refine ⟨?_, ?_, ?_, ?_, ?_⟩ <;> unfold IllegalFields <;> decide

theorem witness_DecoderAcceptsExactlyTheOpcodeTable :
    decodeWord 0x000000F6 = .ok (.decode 15) ∧
      ∃ row ∈ opcodeTable, (0x000000F6 : Word) &&& row.mask = row.bits := by decide

theorem witness_StepRunsTheDecodedCommand :
    CoreTurnNext (about (.decode 2) session) (about (.decode 2) session) ∧
      CoreTurnNext { about (.decode 2) session with inbox := [.turn] } (about (.decode 2) session) ∧
      (about (.decode 2) session).fsm = .exec ∧
      decodeWord (about (.decode 2) session).curCmd = .ok (.decode 2) :=
  ⟨.inl ⟨rfl, rfl⟩, .inr ⟨[], rfl, rfl⟩, rfl, by decide⟩

theorem witness_PlacedWordRunsNext : decodeTableWord 32 0x00000026 = some (.decode 2) := by decide

theorem witness_IllegalWordCompletesWithoutEffect :
    ({ session with inbox := [.access (hostWrite 0x00C 0x00000013), .turn] } : State).fsm = .idle ∧
      IllegalFields 0x00000013 :=
  ⟨rfl, witness_DecoderRejectsExactlyIllegalFields.1⟩

/-- The limits of R205: a legal configuration at N = 0, M = 1, PP = 1, CAL_LEN = DELAY_MAX, one at N = M = 32,
PP = 255, CAL_LEN = CAP_BITS, and an illegal one. -/
theorem witness_InitOpensSession :
    LegalPending { State.reset with cfg0 := 0x00010100, cfg1 := 0x00100000 } ∧
      LegalPending { State.reset with cfg0 := 0x00FF2020, cfg1 := 0x0080FFFF } := by
  constructor <;> unfold LegalPending <;> decide

theorem witness_InitRejectsIllegalConfig :
    ¬ LegalPending State.reset ∧ ¬ LegalPending { session with cfg1 := 0x000F0000 } := by
  constructor <;> unfold LegalPending <;> decide

theorem witness_CalibrateStartsFirstTrial : session.initDone = true ∧ session.cal.fail = false := by decide

theorem witness_ReadStartsOneTransaction :
    calibrated.initDone = true ∧ calibrated.cal.fail = false ∧ calibrated.cal.done = true := by decide

theorem witness_LatchOffsetCopiesHeldFrame :
    holding.initDone = true ∧ holding.frame.held = true ∧ holding.frame.crcOk = true := by decide

theorem witness_CrcCheckStoresVerdict : 0 ≤ 32 * State.reset.param.nsMax ∧ 128 ≤ 32 * State.reset.param.nsMax := by
  decide

theorem witness_DecodeWritesHeldFrame :
    session.initDone = true ∧ 1 ≤ 2 ∧ 4 ≤ session.param.nsMax ∧ session.mtWidth + session.stWidth + 8 ≤ 32 * 2 := by
  decide

/-- Each clause: no session, a fatal session, no calibration, no good frame, and lengths just out of range. -/
theorem witness_CommandsReportFirstError :
    State.reset.initDone = false ∧
      (({ session with cal := { session.cal with fail := true } } : State).initDone = true ∧
        ({ session with cal := { session.cal with fail := true } } : State).cal.fail = true) ∧
      (session.initDone = true ∧ session.cal.fail = false ∧ session.cal.done = false) ∧
      session.frame.held = false ∧ 32 * session.param.nsMax < 129 ∧ session.param.nsMax < 5 ∧
      32 * 1 < session.mtWidth + session.stWidth + 8 := by decide

theorem witness_RunningTransactionTakesOneSample :
    let s := { session with fsm := .calRun, seq := { t := 64, k := 63, nt := 2, trial := 1 } }
    CoreTurnNext s s ∧ s.fsm = .calRun ∧ s.seq.k < s.seq.t ∧
      CoreTurnNext { s with fsm := .frameRun } { s with fsm := .frameRun } :=
  ⟨.inl ⟨rfl, rfl⟩, rfl, by decide, .inl ⟨rfl, rfl⟩⟩

theorem witness_TransactionCapturesEverySample :
    let s := { calibrated with
      fsm := .frameRun, seq := { t := 44, k := 0, nt := 2, trial := 1 }, encBits := scenarioBits 5 ++ [true] }
    s.inbox = [] ∧ s.fsm = .frameRun ∧ s.seq.k = 0 ∧ s.chain = List.replicate s.param.nsMax 0 ∧
      (scenarioBits 5).length = s.seq.t.toNat ∧ 1 ≤ s.seq.t.toNat ∧ s.seq.t.toNat ≤ 32 * s.param.nsMax ∧
      s.encBits = scenarioBits 5 ++ [true] := by decide +kernel

/-- A 0 found at d = 5 in a frame that fits, and one in a frame that does not (NS_MAX = 3, N = M = 32, d = 22). -/
theorem witness_CalEvalJudgesTheTrial_found :
    let long := { tried with
      param := { nsMax := 3, delayMax := 64, chainOrder := .highFirst, spdW := 32 }, scfg0 := 0x00012020
      chain := [0, 0xFFFFFC00, 0] }
    CoreTurnNext tried tried ∧ tried.fsm = .calEval ∧ 5 < tried.param.delayMax ∧
      (∀ i < 5, chainBit tried.chain (tried.calLen - 1 - i) = true) ∧
      chainBit tried.chain (tried.calLen - 1 - 5) = false ∧
      5 + tried.mtWidth + tried.stWidth + 11 ≤ 32 * tried.param.nsMax ∧
      (∀ i < 22, chainBit long.chain (long.calLen - 1 - i) = true) ∧
      chainBit long.chain (long.calLen - 1 - 22) = false ∧
      32 * long.param.nsMax < 22 + long.mtWidth + long.stWidth + 11 :=
  ⟨.inl ⟨rfl, rfl⟩, by decide +kernel⟩

theorem witness_CalEvalJudgesTheTrial_none :
    (∀ i < 16, chainBit (triedInVain 1).chain ((triedInVain 1).calLen - 1 - i) = true) ∧
      (triedInVain 1).seq.trial = 1 ∧
      (∀ i < 16, chainBit (triedInVain 2).chain ((triedInVain 2).calLen - 1 - i) = true) ∧
      (triedInVain 2).seq.trial ≠ 1 := by decide +kernel

/-- The invariant does not read ENC's samples, so these hold whatever they are. -/
theorem inv_calibrating : Inv (about .calibrate session) := by
  refine ⟨?_, ?_, ?_, ?_, ?_, ?_, ?_, ?_, ?_, ?_, ?_, ?_⟩ <;> decide +kernel

theorem inv_reading : Inv (about .read calibrated) := by
  refine ⟨?_, ?_, ?_, ?_, ?_, ?_, ?_, ?_, ?_, ?_, ?_, ?_⟩ <;> decide +kernel

theorem inv_captured : Inv captured := by
  refine ⟨?_, ?_, ?_, ?_, ?_, ?_, ?_, ?_, ?_, ?_, ?_, ?_⟩ <;> decide +kernel

theorem inv_tried : Inv tried := by
  refine ⟨?_, ?_, ?_, ?_, ?_, ?_, ?_, ?_, ?_, ?_, ?_, ?_⟩ <;> decide +kernel

/-- The least delay and the greatest. -/
theorem witness_CalibrateDiscoversTheDelay_least :
    let samples := scenarioBits 0 ++ List.replicate 25 false
    let s := { about .calibrate session with encBits := samples ++ [true] }
    Inv s ∧ s.inbox = [] ∧ s.fsm = .exec ∧ s.curCmd = encode .calibrate ∧ s.initDone = true ∧
      s.cal.fail = false ∧ s.encBits = samples ++ [true] ∧ samples.length = s.calLen ∧ 0 < s.param.delayMax ∧
      samples.getD 0 true = false ∧ 0 + s.mtWidth + s.stWidth + 11 ≤ 32 * s.param.nsMax :=
  ⟨inv_calibrating, by decide +kernel⟩

theorem witness_CalibrateDiscoversTheDelay_greatest :
    let samples := scenarioBits 15 ++ List.replicate 10 false
    let s := { about .calibrate session with encBits := samples ++ [] }
    Inv s ∧ samples.length = s.calLen ∧ 15 < s.param.delayMax ∧ (∀ i < 15, samples.getD i false = true) ∧
      samples.getD 15 true = false ∧ 15 + s.mtWidth + s.stWidth + 11 ≤ 32 * s.param.nsMax :=
  ⟨inv_calibrating, by decide +kernel⟩

theorem witness_NoStartPatternFailsAfterTwoTrials :
    let ones := List.replicate 16 true ++ List.replicate 48 false
    let s := { about .calibrate session with encBits := ones ++ ones ++ [] }
    Inv s ∧ s.inbox = [] ∧ s.fsm = .exec ∧ s.curCmd = encode .calibrate ∧ s.initDone = true ∧
      s.cal.fail = false ∧ ones.length = s.calLen ∧ (∀ i < s.param.delayMax, ones.getD i false = true) :=
  ⟨inv_calibrating, by decide +kernel⟩

theorem witness_AssemblyMakesFrameOfChain :
    captured.chain.length = captured.param.nsMax ∧ captured.cal.nsa.toNat ≤ captured.param.nsMax := by decide

/-- The numbering below seq.NT, at seq.NT and at the last register; then the assembly. -/
theorem witness_AssemblyUndoesTheNumbering :
    (captured.fsm ≠ .calRun ∧ captured.fsm ≠ .frameRun ∧ captured.param.nsMax ≤ 15 ∧ 3 < captured.param.nsMax ∧
      1 < captured.seq.nt.toNat ∧ ¬ 2 < captured.seq.nt.toNat) ∧
    captured.capturing = false ∧ captured.seq.nt = captured.cal.nsa ∧ captured.cal.nsa.toNat ≤ captured.param.nsMax ∧
      1 < captured.cal.nsa.toNat := by decide

theorem witness_DecoderRecoversPackedFields :
    session.mtWidth ≤ 32 ∧ session.stWidth ≤ 32 ∧ 0xFFF < 2 ^ session.mtWidth ∧ 0xFFFF < 2 ^ session.stWidth ∧
      63 < 2 ^ 6 := by decide

theorem witness_UpperFrameBitsNeverMatter :
    0x1F00101003D % 2 ^ (session.mtWidth + session.stWidth + 8) =
      0x00101003D % 2 ^ (session.mtWidth + session.stWidth + 8) := by decide

/-- The all-zero capture fails its CRC, and the scenario capture passes. -/
theorem witness_CrcMismatchSkipsTheTracker :
    let s := { captured with chain := [0, 0, 0, 0] }
    CoreTurnNext s s ∧ s.fsm = .frameProc ∧ s.chain.length = s.param.nsMax ∧ s.cal.nsa.toNat ≤ s.param.nsMax ∧
      chainValue s.chain % 2 ^ (32 * s.cal.nsa.toNat) = 0 ∧
      crc6Reg ((List.range 30).map fun t => (0 : Nat).testBit (35 - t)) ^^^ 0x3F ≠ BitVec.ofNat 6 0 :=
  ⟨.inl ⟨rfl, rfl⟩, by decide +kernel⟩

theorem witness_GoodFrameUpdatesTheTracker :
    CoreTurnNext captured captured ∧ captured.fsm = .frameProc ∧
      captured.chain.length = captured.param.nsMax ∧ captured.cal.nsa.toNat ≤ captured.param.nsMax ∧
      chainValue captured.chain % 2 ^ (32 * captured.cal.nsa.toNat) = 0xFA00101003D ∧
      crc6Reg ((List.range 30).map fun t => (0xFA00101003D : Nat).testBit (35 - t)) ^^^ 0x3F =
        BitVec.ofNat 6 0xFA00101003D :=
  ⟨.inl ⟨rfl, rfl⟩, by decide +kernel⟩

theorem witness_ReadDecodesTheWireFrame :
    let s := { about .read calibrated with encBits := scenarioBits 5 }
    Inv s ∧ s.inbox = [] ∧ s.fsm = .exec ∧ s.curCmd = encode .read ∧ s.initDone = true ∧ s.cal.done = true ∧
      s.encBits = scenarioBits 5 ++ [] ∧ (scenarioBits 5).length = s.cal.flen.toNat :=
  ⟨inv_reading, by decide +kernel⟩

theorem witness_CrcCatchesEverySingleBitFlip : ([true] : List Bool) ≠ [] ∧ 0 < ([true] : List Bool).length := by decide

theorem witness_PhaseErrorIsShortestAngle :
    toSigned 16 (wrapSub 16 0x8000 0) = -2 ^ 15 ∧ toSigned 16 (wrapSub 16 0x7FFF 0) = 2 ^ 15 - 1 ∧
      toSigned 1 (wrapSub 1 1 0) = -1 := by decide +kernel

/-- LATCH_OFFSET on the scenario frame, then the scenario capture again (V-TRK-1, READ 4). -/
theorem witness_OffsetRoundTripIsZero :
    let u := after (exec .latchOffset holding)
    let v := { captured with off := u.off }
    let w := after (step v)
    exec .latchOffset holding = .next u ∧ v.off = u.off ∧ CoreTurnIn .frameProc v ∧ step v = .next w ∧
      w.frame.crcOk = true ∧ w.frame.mt = holding.frame.mt ∧ w.frame.st = holding.frame.st :=
  ⟨eq_after (by decide +kernel), rfl, ⟨⟨_, .inl ⟨rfl, rfl⟩⟩, rfl⟩, eq_after (by decide +kernel), by decide +kernel⟩

/-- LATCH_OFFSET sets MODE, and with it the offsets; INIT and a reset edge clear it. -/
theorem witness_ModeChangesOnlyByLatchInitReset :
    let calibratedMode := { session with off := { mode := .calibrated, mt := 0, st := 0 } }
    goesOn (step (about .latchOffset holding)) = true ∧
      (after (step (about .latchOffset holding))).off.mode = .calibrated ∧
      goesOn (step (about .init calibratedMode)) = true ∧
      (after (step (about .init calibratedMode))).off.mode = .uncalibrated ∧
      goesOn (step { calibratedMode with inbox := [.resetEdge none] }) = true ∧
      (after (step { calibratedMode with inbox := [.resetEdge none] })).off.mode = .uncalibrated := by decide +kernel

theorem witness_InitDoneChangesOnlyByInitReset :
    let s := { about .init session with initDone := false }
    goesOn (step s) = true ∧ (after (step s)).initDone = true ∧
      goesOn (step { session with inbox := [.resetEdge none] }) = true ∧
      (after (step { session with inbox := [.resetEdge none] })).initDone = false := by decide +kernel

theorem witness_CalFailLastsUntilInitOrReset :
    let fatal := { session with cal := { session.cal with fail := true } }
    goesOn (step (triedInVain 2)) = true ∧ (triedInVain 2).cal.fail = false ∧
      (after (step (triedInVain 2))).cal.fail = true ∧
      goesOn (step (about .init fatal)) = true ∧ (after (step (about .init fatal))).cal.fail = false ∧
      goesOn (step (about .read fatal)) = true ∧ (about .read fatal).cal.fail = true := by decide +kernel

theorem witness_OffsetsChangeOnlyByLatchInitReset :
    goesOn (step (about .latchOffset holding)) = true ∧
      (after (step (about .latchOffset holding))).off ≠ holding.off := by decide +kernel

/-- The raw angle, and so the tracker, changes in the FRAME_PROC of the scenario frame, and it is published; INIT takes
the publish port to 0. -/
theorem witness_TrackerAndPublishPortFollowGoodFrames :
    let published := { session with trk := { session.trk with elec := 0x600, speed := 128 } }
    goesOn (step captured) = true ∧ (after (step captured)).trk.rawAng ≠ captured.trk.rawAng ∧
      (after (step captured)).pubValid = true ∧
      goesOn (step (about .init published)) = true ∧ (after (step (about .init published))).err = .none ∧
      pubElec (after (step (about .init published))) ≠ pubElec published ∧
      pubSpeed (after (step (about .init published))) ≠ pubSpeed published := by decide +kernel

/-- INIT changes the session's configuration; a tick, a reset edge and an access meet the other three clauses. -/
theorem witness_ConfigurationTakesEffectOnlyAtInit :
    let s := { about .init session with scfg0 := 0 }
    (goesOn (step s) = true ∧ (after (step s)).scfg0 ≠ s.scfg0) ∧
      (CoreTurnNext captured captured ∧ captured.fsm ≠ .exec ∧ goesOn (step captured) = true) ∧
      ResetNext { session with inbox := [.resetEdge none] } ∧
      ({ session with inbox := [.access (hostWrite 0x004 0)] } : State).inbox = .access (hostWrite 0x004 0) :: [] :=
  ⟨by decide +kernel, ⟨.inl ⟨rfl, rfl⟩, by decide +kernel⟩, ⟨none, [], rfl⟩, rfl⟩

theorem witness_EveryCompletionSetsItsEvents :
    let s := about .calibrate State.reset
    goesOn (step s) = true ∧ s.inbox = [] ∧ s.fsm ≠ .idle ∧ (after (step s)).fsm = .idle ∧
      (after (step s)).err ≠ .none := by decide +kernel

theorem witness_ChainOrderChangesNoResult : captured.inbox = [] ∧ goesOn (step captured) = true := by decide +kernel

theorem witness_RegisterMapIsR101 :
    regAt 15 0x0B8 = .cap 14 ∧ regAt 15 0x0BC = .unassigned ∧ regAt 4 0x0CC = .raw 3 ∧ regAt 4 0x0D0 = .unassigned ∧
      regAt 15 0x138 = .crcIn 14 ∧ regAt 15 0x064 = .unassigned ∧ regAt 15 0x1FC = .unassigned := by decide

theorem witness_CmdWriteIsAcceptedOrDropped : session.fsm = .idle ∧ captured.fsm ≠ .idle := by decide

/-- Both strobes, a wrong size and a wrong alignment. -/
theorem witness_UnsupportedAccessIsRefused :
    (let a : BusAccess := { addr := 0, size := .word, we := true, re := true, wdata := 0 }
     a.we = true ∧ a.re = true) ∧
    (let a : BusAccess := { addr := 0, size := .byte, we := false, re := true, wdata := 0 }
     a.re = true ∧ a.size ≠ .word) ∧
    (let a : BusAccess := { addr := 6, size := .word, we := true, re := false, wdata := 0 }
     a.we = true ∧ a.addr.toNat % 4 ≠ 0) := by decide

/-- A supported read of the last offset; a legal instance, its last RAW word, and offsets R101 leaves unassigned. -/
theorem witness_ReadsReturnTheRegistersAndChangeNothing :
    (let a : BusAccess := { addr := 0x1FC, size := .word, we := false, re := true, wdata := 0 }
     a.re = true ∧ a.we = false ∧ a.size = .word ∧ a.addr.toNat % 4 = 0) ∧
    session.param.Legal ∧ 3 < session.param.nsMax ∧
      regAt session.param.nsMax 0x064 = .unassigned ∧ regAt session.param.nsMax 0x0D0 = .unassigned := by decide

/-- One offset for each arm: CFG0, CFG1, IRQ_EN, IRQ_STATUS, the last RAW and CRC_IN words, a read-only register. -/
theorem witness_WriteReplacesWritableBits :
    BuffersOk session ∧ regAt 4 0x004 = .cfg0 ∧ regAt 4 0x008 = .cfg1 ∧ regAt 4 0x014 = .irqEn ∧
      regAt 4 0x018 = .irqStatus ∧ regAt 4 0x0CC = .raw 3 ∧ regAt 4 0x10C = .crcIn 3 ∧ regAt 4 0x010 = .status := by
  decide

theorem witness_WriteLeavesOtherOffsets : (0x10C : Nat) < 0x200 ∧ 0x10C % 4 = 0 ∧ (0x10C : Nat) ≠ 0x00C := by decide

theorem witness_BufferWritesReachTheCommands :
    BuffersOk session ∧ 3 < session.param.nsMax ∧ session.param.nsMax ≤ 15 ∧ session.fsm = .idle := by decide

/-- A read presented with the reset edge. -/
theorem witness_ResetLeavesTheStatedValues :
    let a : BusAccess := { addr := 0x010, size := .word, we := false, re := true, wdata := 0 }
    a.re = true ∧ (resetEdge (some a) captured).lastResp.rdata = some 0 := by decide

theorem witness_ResetEdgeEndsEverything :
    ({ captured with inbox := [.resetEdge (some (hostWrite 0x00C 1)), .turn] } : State).inbox =
      .resetEdge (some (hostWrite 0x00C 1)) :: [.turn] := by decide

theorem witness_InvariantHoldsAtReset :
    Params.testVectors.Legal ∧ Params.Legal { nsMax := 15, delayMax := 480, chainOrder := .lowFirst, spdW := 1 } := by
  decide

theorem witness_EveryStepKeepsTheInvariant :
    Inv captured ∧ Inv tried ∧ goesOn (step captured) = true ∧ goesOn (step tried) = true :=
  ⟨inv_captured, inv_tried, by decide +kernel⟩

theorem witness_AccessesAndIdleTurnsAreSteps :
    ({ captured with inbox := [.access (hostWrite 0x00C 1), .turn] } : State).inbox =
        .access (hostWrite 0x00C 1) :: [.turn] ∧
      CoreTurnNext session session ∧ session.fsm = .idle ∧
      CoreTurnNext { session with inbox := [.turn] } session :=
  ⟨rfl, .inl ⟨rfl, rfl⟩, rfl, .inr ⟨[], rfl, rfl⟩⟩

end Sys2Proof.Tests
end

