-- ==== Sys2Proof/Proofs/ChainOrder.lean ====
section
/-! SUPPORT. CHAIN_ORDER numbers the CAP registers and does nothing else (00_scope.md R9, 40_sequencer.md R178): every
operation of the core commutes with changing it. One commuting lemma per operation, in the order of the model's
definitions; a step is put together from them. Only `capView` and `paramWord`, which host reads alone go through, look
at the order. -/

namespace Sys2Proof.Machine

/-- `s` with the other design parameters as they are and CHAIN_ORDER set to `o`. -/
def withOrder (o : ChainOrder) (s : State) : State :=
  { s with param := { s.param with chainOrder := o } }

/-- The same for the state an outcome goes on with. -/
def outcomeWithOrder (o : ChainOrder) : StepOutcome → StepOutcome
  | .next t => .next (withOrder o t)
  | .fault r => .fault r
  | .refused r => .refused r

section
variable (o : ChainOrder) (s : State)

/-! ### What the operations read -/

@[simp] theorem outcomeWithOrder_next : outcomeWithOrder o (.next s) = .next (withOrder o s) := rfl

@[simp] theorem withOrder_nsMax : (withOrder o s).param.nsMax = s.param.nsMax := rfl
@[simp] theorem withOrder_delayMax : (withOrder o s).param.delayMax = s.param.delayMax := rfl
@[simp] theorem withOrder_capBits : (withOrder o s).capBits = s.capBits := rfl
@[simp] theorem withOrder_mtWidth : (withOrder o s).mtWidth = s.mtWidth := rfl
@[simp] theorem withOrder_stWidth : (withOrder o s).stWidth = s.stWidth := rfl
@[simp] theorem withOrder_calLen : (withOrder o s).calLen = s.calLen := rfl
@[simp] theorem withOrder_cfg0 : (withOrder o s).cfg0 = s.cfg0 := rfl
@[simp] theorem withOrder_cfg1 : (withOrder o s).cfg1 = s.cfg1 := rfl
@[simp] theorem withOrder_initDone : (withOrder o s).initDone = s.initDone := rfl
@[simp] theorem withOrder_fsm : (withOrder o s).fsm = s.fsm := rfl
@[simp] theorem withOrder_curCmd : (withOrder o s).curCmd = s.curCmd := rfl
@[simp] theorem withOrder_cal : (withOrder o s).cal = s.cal := rfl
@[simp] theorem withOrder_frame : (withOrder o s).frame = s.frame := rfl
@[simp] theorem withOrder_raw : (withOrder o s).raw = s.raw := rfl
@[simp] theorem withOrder_chain : (withOrder o s).chain = s.chain := rfl
@[simp] theorem withOrder_seq : (withOrder o s).seq = s.seq := rfl
@[simp] theorem withOrder_inbox : (withOrder o s).inbox = s.inbox := rfl

/-- Legality of a configuration asks for NS_MAX and DELAY_MAX only (R205). -/
@[simp] theorem legalConfig_withOrder (c0 c1 : Word) :
    legalConfig (withOrder o s).param c0 c1 = legalConfig s.param c0 c1 := rfl

/-! ### Operations without a case -/

@[simp] theorem finish_withOrder (code : ErrCode) :
    finish code (withOrder o s) = withOrder o (finish code s) := rfl

@[simp] theorem complete_withOrder : complete (withOrder o s) = outcomeWithOrder o (complete s) := rfl

@[simp] theorem raiseError_withOrder (code : ErrCode) :
    raiseError code (withOrder o s) = outcomeWithOrder o (raiseError code s) := rfl

@[simp] theorem openSession_withOrder : openSession (withOrder o s) = withOrder o (openSession s) := rfl

@[simp] theorem storeCrcResult_withOrder (l : Nat) (rcv : BitVec 6) :
    storeCrcResult l rcv (withOrder o s) = withOrder o (storeCrcResult l rcv s) := rfl

@[simp] theorem validateFrame_withOrder (f : Nat) :
    validateFrame f (withOrder o s) = withOrder o (validateFrame f s) := rfl

@[simp] theorem decodeFrame_withOrder (f : Nat) :
    decodeFrame f (withOrder o s) = withOrder o (decodeFrame f s) := rfl

@[simp] theorem latchOffsets_withOrder : latchOffsets (withOrder o s) = withOrder o (latchOffsets s) := rfl

@[simp] theorem trackerUpdateWith_withOrder (e : Estimator) :
    trackerUpdateWith e (withOrder o s) = withOrder o (trackerUpdateWith e s) := rfl

@[simp] theorem countCrcFailure_withOrder :
    countCrcFailure (withOrder o s) = withOrder o (countCrcFailure s) := rfl

/-- Assembly reads the chain words themselves and not their numbering as CAP (R178, R263). -/
@[simp] theorem assemble_withOrder : assemble (withOrder o s) = withOrder o (assemble s) := rfl

@[simp] theorem receiveFrame_withOrder : receiveFrame (withOrder o s) = withOrder o (receiveFrame s) := by
  simp [receiveFrame]

@[simp] theorem markCalFailed_withOrder : markCalFailed (withOrder o s) = withOrder o (markCalFailed s) := rfl

@[simp] theorem storeCalibration_withOrder (d : Nat) :
    storeCalibration d (withOrder o s) = withOrder o (storeCalibration d s) := rfl

@[simp] theorem beginTurn_withOrder : beginTurn (withOrder o s) = withOrder o (beginTurn s) := rfl

/-- A reset edge keeps the design parameters, so the order comes out of it as it went in (R452). -/
@[simp] theorem resetEdge_withOrder (presented : Option BusAccess) :
    resetEdge presented (withOrder o s) = withOrder o (resetEdge presented s) := rfl

/-! ### A running transaction -/

/-- Both draw the same sample: the pending one, or the free line at equal clk (log entry 4). -/
@[simp] theorem sample_withOrder : sample (withOrder o s) = sample s := rfl

@[simp] theorem tick_withOrder : tick (withOrder o s) = withOrder o (tick s) := by
  by_cases h : s.seq.k < s.seq.t
  · rw [tick_running h, tick_running (s := withOrder o s) h, sample_withOrder]; rfl
  · rw [tick_finished h, tick_finished (s := withOrder o s) h]

@[simp] theorem runTransaction_withOrder (after : Fsm) :
    runTransaction after (withOrder o s) = withOrder o (runTransaction after s) := by
  simp only [runTransaction, tick_withOrder, withOrder_seq]
  split <;> rfl

/-! ### The evaluation states -/

/-- The scan reads the chain words themselves (R178, R233). -/
@[simp] theorem calEvalStep_withOrder : calEvalStep (withOrder o s) = withOrder o (calEvalStep s) := by
  unfold calEvalStep
  simp only [withOrder_delayMax, withOrder_calLen, withOrder_chain]
  split
  next d _ =>
    by_cases hfl : frameLength d s.mtWidth s.stWidth > s.capBits <;> simp [hfl]
  next =>
    by_cases htrial : s.seq.trial = 1
    · simp only [withOrder_seq, htrial, if_true]; rfl
    · simp only [withOrder_seq, htrial, if_false]; rfl

@[simp] theorem frameProcStep_withOrder : frameProcStep (withOrder o s) = withOrder o (frameProcStep s) := by
  cases hcrc : (receiveFrame s).frame.crcOk with
  | false => rw [frameProcStep_bad hcrc, frameProcStep_bad (by simpa using hcrc)]; simp
  | true => rw [frameProcStep_good hcrc, frameProcStep_good (by simpa using hcrc)]; simp [trackerUpdate]

/-! ### The commands -/

@[simp] theorem execInit_withOrder : execInit (withOrder o s) = outcomeWithOrder o (execInit s) := by
  cases hcfg : legalConfig s.param s.cfg0 s.cfg1 <;> simp [execInit, hcfg]

@[simp] theorem execCalibrate_withOrder :
    execCalibrate (withOrder o s) = outcomeWithOrder o (execCalibrate s) := by
  cases hinit : s.initDone with
  | false => simp [execCalibrate, hinit]
  | true =>
    cases hfail : s.cal.fail with
    | true => simp [execCalibrate, hinit, hfail]
    | false =>
      simp only [execCalibrate, withOrder_initDone, withOrder_cal, hinit, hfail, reduceCtorEq, if_false]
      rfl

@[simp] theorem execRead_withOrder : execRead (withOrder o s) = outcomeWithOrder o (execRead s) := by
  cases hinit : s.initDone with
  | false => simp [execRead, hinit]
  | true =>
    cases hfail : s.cal.fail with
    | true => simp [execRead, hinit, hfail]
    | false =>
      cases hdone : s.cal.done with
      | false => simp [execRead, hinit, hfail, hdone]
      | true =>
        simp only [execRead, withOrder_initDone, withOrder_cal, hinit, hfail, hdone, reduceCtorEq, if_false]
        rfl

@[simp] theorem execLatchOffset_withOrder :
    execLatchOffset (withOrder o s) = outcomeWithOrder o (execLatchOffset s) := by
  cases hinit : s.initDone with
  | false => simp [execLatchOffset, hinit]
  | true =>
    by_cases hframe : s.frame.held = false ∨ s.frame.crcOk = false <;> simp [execLatchOffset, hinit, hframe]

@[simp] theorem execCrcCheck_withOrder (bitLen : Nat) (rcrc : BitVec 6) :
    execCrcCheck bitLen rcrc (withOrder o s) = outcomeWithOrder o (execCrcCheck bitLen rcrc s) := by
  by_cases hlen : bitLen > s.capBits <;> simp [execCrcCheck, hlen]

@[simp] theorem execDecode_withOrder (nw : Nat) :
    execDecode nw (withOrder o s) = outcomeWithOrder o (execDecode nw s) := by
  cases hinit : s.initDone with
  | false => simp [execDecode, hinit]
  | true =>
    by_cases hlen : nw = 0 ∨ nw > s.param.nsMax ∨ 32 * nw < s.mtWidth + s.stWidth + 8 <;>
      simp [execDecode, hinit, hlen]

theorem exec_withOrder (i : Instr) : exec i (withOrder o s) = outcomeWithOrder o (exec i s) := by
  cases i with
  | nop => exact complete_withOrder o s
  | init => exact execInit_withOrder o s
  | calibrate => exact execCalibrate_withOrder o s
  | read => exact execRead_withOrder o s
  | latchOffset => exact execLatchOffset_withOrder o s
  | crcCheck bitLen rcrc => exact execCrcCheck_withOrder o s bitLen rcrc
  | decode nw => exact execDecode_withOrder o s nw

/-! ### A step -/

theorem execTurn_withOrder : execTurn (withOrder o s) = outcomeWithOrder o (execTurn s) := by
  simp only [execTurn, withOrder_curCmd]
  split
  next i _ => exact exec_withOrder o s i
  next => exact raiseError_withOrder o s .illegalCmd

/-- A core turn, in every FSM state, is the same under both orders. -/
theorem coreTurn_withOrder : coreTurn (withOrder o s) = outcomeWithOrder o (coreTurn s) := by
  cases h : s.fsm with
  | idle => simp [coreTurn, h]
  | exec => simpa [coreTurn, h] using execTurn_withOrder o (beginTurn s)
  | calRun => simp [coreTurn, h, calRunStep]
  | calEval => simp [coreTurn, h]
  | frameRun => simp [coreTurn, h, frameRunStep]
  | frameProc => simp [coreTurn, h]

/-- Taking an event off the list does not look at the order. -/
theorem CoreTurnNext.withOrder {s s' : State} (h : CoreTurnNext s s') :
    CoreTurnNext (withOrder o s) (withOrder o s') := by
  obtain ⟨hx, rfl⟩ | ⟨rest, hx, rfl⟩ := h
  · exact .inl ⟨hx, rfl⟩
  · exact .inr ⟨rest, hx, rfl⟩

/-- Every step but a host access is the same under both orders. -/
theorem step_withOrder {s : State} (hx : ∀ a rest, s.inbox ≠ .access a :: rest) :
    step (withOrder o s) = outcomeWithOrder o (step s) := by
  rcases step_cases s with ⟨s', hn, e⟩ | ⟨a, rest, ha, -⟩ | ⟨p, rest, hp, e⟩
  · rw [e, step_of_coreTurnNext (hn.withOrder o), coreTurn_withOrder]
  · exact absurd ha (hx a rest)
  · rw [e, step, nextEvent, withOrder_inbox, hp]
    exact congrArg Host.Outcome.next (resetEdge_withOrder o { s with inbox := rest } p)

end

/-- Settles O47: every step but a host access commutes with changing CHAIN_ORDER. -/
theorem chainOrderChangesNoResult : Obligations.ChainOrderChangesNoResult := by
  intro s t o hx hst
  calc step (withOrder o s) = outcomeWithOrder o (step s) := step_withOrder o hx
    _ = .next (withOrder o t) := by rw [hst, outcomeWithOrder_next]

end Sys2Proof.Machine
end

