-- ==== Sys2Proof/Proofs/CommandWords.lean ====
section
/-! SUPPORT. What the decoder's acceptance says about a command word (30_encoding.md R130, R138), and the sizes of the
arithmetic primitives' results (00_scope.md R16). -/

namespace Sys2Proof.Machine

/-! ### Command words -/

/-- A word is its five fields side by side (R130). -/
theorem append_fields (w : Word) :
    bitLenField w ++ rsvField w ++ rcrcField w ++ nwField w ++ opField w = w := by
  apply BitVec.eq_of_getLsbD_eq
  intro j hj
  simp only [bitLenField, rsvField, rcrcField, nwField, opField, BitVec.getLsbD_append, BitVec.getLsbD_extractLsb']
  interval_cases j <;> simp

/-- What acceptance by the decoder says about the fields (R138). -/
theorem decodeWord_eq_ok {w : Word} {i : Instr} (h : decodeWord w = .ok i) :
    byOpcode w = some i ∧ rsvField w = 0 ∧ unusedFieldsZero i w = true := by
  unfold decodeWord at h
  split at h
  · cases h
  · split at h
    · cases h
    · split at h
      · cases h; simp_all
      · cases h

/-- The decoder accepts no word but the command's own (R138). -/
theorem encode_of_decodeWord {w : Word} {i : Instr} (h : decodeWord w = .ok i) : encode i = w := by
  obtain ⟨hop, hrsv, hzero⟩ := decodeWord_eq_ok h
  have hfield : ∀ k < 16, (opField w).toNat = k → opField w = BitVec.ofNat 4 k := by
    rintro k - rfl; simp
  conv_rhs => rw [← append_fields w, hrsv]
  unfold byOpcode at hop
  split at hop <;> cases hop
  all_goals
    rename_i hcode
    simp [unusedFieldsZero] at hzero
    simp [encode, enc, hfield _ _ hcode, hzero]

/-! ### Arithmetic -/

theorem mask_lt (w v : Nat) : mask w v < 2 ^ w := Nat.mod_lt _ (by positivity)

theorem patternOf_lt (w : Nat) (x : Int) : patternOf w x < 2 ^ w := by
  have := Int.emod_lt_of_pos x (b := (2 ^ w : Nat)) (by positivity)
  have := Int.emod_nonneg x (b := (2 ^ w : Nat)) (by positivity)
  unfold patternOf; omega

theorem wrapSub_lt (w a b : Nat) : wrapSub w a b < 2 ^ w := patternOf_lt w _

theorem zext32_toNat_le (v : Nat) : (zext32 v).toNat ≤ v := by
  rw [zext32, BitVec.toNat_ofNat]; exact Nat.mod_le _ _

theorem toSigned_emod {w v : Nat} (h : v < 2 ^ w) : toSigned w v % (2 ^ w : Nat) = v := by
  have : (v : Int) % (2 ^ w : Nat) = v := Int.emod_eq_of_lt (by positivity) (by exact_mod_cast h)
  unfold toSigned
  split
  · rw [Int.sub_emod_right, this]
  · exact this

theorem mask_sext32 {w v : Nat} (hw : w ≤ 32) (h : v < 2 ^ w) : mask w (sext32 w v).toNat = v := by
  have hdvd : ((2 ^ w : Nat) : Int) ∣ (2 ^ 32 : Nat) := by
    exact_mod_cast Nat.pow_dvd_pow 2 hw
  zify
  rw [mask, sext32, BitVec.toNat_ofInt]
  push_cast
  rw [Int.toNat_of_nonneg (Int.emod_nonneg _ (by positivity))]
  have := Int.emod_emod_of_dvd (toSigned w v) hdvd
  push_cast at this
  rw [this]
  simpa using toSigned_emod h

/-- A sign-extended pattern is the sign extension of its own low bits. -/
theorem sext32_mask_sext32 {w v : Nat} (hw : w ≤ 32) (h : v < 2 ^ w) :
    sext32 w (mask w (sext32 w v).toNat) = sext32 w v := by
  rw [mask_sext32 hw h]

end Sys2Proof.Machine
end

