-- ==== Sys2Proof/Proofs/InvariantOps.lean ====
section
/-! SUPPORT. The chain as one number, and the invariant, operation by operation: each operation of the
core keeps it under the conditions it runs in. -/

namespace Sys2Proof.Machine

/-! ### The chain -/

/-- Settles O19: bit by bit, with the bits of the shifted chain from `chainBit_shiftIn_zero` and `_succ`. -/
theorem chainShiftsAsOneRegister : Obligations.ChainShiftsAsOneRegister := by
  intro b ws
  have hbit : 2 * chainValue ws + (if b then 1 else 0) = Nat.bit b (chainValue ws) := by
    cases b <;> rfl
  rw [hbit]
  refine Nat.eq_of_testBit_eq fun j => ?_
  rw [testBit_chainValue, Nat.testBit_mod_two_pow]
  by_cases hj : j < 32 * ws.length
  · cases j with
    | zero => rw [chainBit_shiftIn_zero b ws (by omega), Nat.testBit_bit_zero]; simp [hj]
    | succ j => rw [chainBit_shiftIn_succ b ws j hj, Nat.testBit_bit_succ, testBit_chainValue]; simp [hj]
  · rw [chainBit_of_le _ _ (by simpa using hj)]; simp [hj]

/-- A shift makes the chain less than twice as large, plus one. -/
theorem chainValue_shiftIn_lt {ws : List Word} {k : Nat} (b : Bool) (h : chainValue ws < 2 ^ k) :
    chainValue (shiftIn b ws) < 2 ^ (k + 1) := by
  rw [chainShiftsAsOneRegister b ws]
  refine (Nat.mod_le _ _).trans_lt ?_
  rw [Nat.pow_succ]
  split <;> omega

/-- A cleared chain is 0. -/
theorem chainValue_replicate (n : Nat) : chainValue (List.replicate n 0) = 0 :=
  Nat.eq_of_testBit_eq fun j => by rw [testBit_chainValue, chainBit_replicate, Nat.zero_testBit]

/-! ### Facts about a live session -/

theorem capBits_le_of_legal {p : Params} (h : p.Legal) : p.capBits ≤ 480 := by
  obtain ⟨⟨-, hmax⟩, -⟩ := h
  unfold Params.capBits; omega

/-- A live session holds a configuration R205 calls legal. -/
theorem liveSession_bounds {s : State} (hcfg : ConfigOk s) (hinit : s.initDone = true) :
    s.stWidth ≤ 32 ∧ s.param.delayMax ≤ s.calLen ∧ s.calLen ≤ s.capBits := by
  obtain ⟨-, -, hlegal⟩ := hcfg
  obtain ⟨-, ⟨-, hst⟩, -, ⟨hleast, hmost⟩, -⟩ := (legalConfig_iff _ _ _).1 (hlegal hinit)
  exact ⟨hst, hleast, hmost⟩

/-- A transaction that fits the chain fits the counter seq.NT (R73). -/
theorem ofNat_ceilDiv_toNat {p : Params} (hp : p.Legal) {l : Nat} (hl : l ≤ p.capBits) :
    (BitVec.ofNat 4 (ceilDiv l 32)).toNat = ceilDiv l 32 := by
  have := capBits_le_of_legal hp
  rw [BitVec.toNat_ofNat]
  exact Nat.mod_eq_of_lt (by unfold ceilDiv; omega)

/-! ### The cleared session -/

theorem calibrationOk_of_cleared {s : State} (h : s.cal = .cleared) : CalibrationOk s := by
  simp [CalibrationOk, h, Calibration.cleared]

theorem frameOk_of_cleared {s : State} (h : s.frame = .cleared) : FrameOk s := by
  simp [FrameOk, h, HeldFrame.cleared]

theorem offsetsOk_of_cleared {s : State} (h : s.off = .cleared) : OffsetsOk s := by
  simp [OffsetsOk, h, Offsets.cleared]

theorem trackerOk_of_cleared {s : State} (h : s.trk = .cleared) : TrackerOk s := by
  simp [TrackerOk, h, Tracker.cleared, sext32, toSigned, mask]

/-! ### The invariant, operation by operation

A completion and the writes it comes with commute, so each command is taken as its writes to a state that is idle
already: `inv_finish` first, and then the lemma of its writes. -/

theorem inv_beginTurn {s : State} (h : Inv s) : Inv (beginTurn s) := h

/-- A command ends outside its transaction, so every tick of it is taken. -/
theorem inv_finish {s : State} (code : ErrCode) (h : Inv s) (hcap : s.capturing = false) :
    Inv (finish code s) := by
  obtain ⟨hparam, hbuf, hcfg, hsess, hcal, hframe, hoff, htrk, ⟨ht, hnt, hchain, hk, hma⟩, hcmd, -, -⟩ := h
  rw [hcap] at hk
  exact ⟨hparam, hbuf, hcfg, hsess, hcal, hframe, hoff, htrk, ⟨ht, hnt, hchain, hk, hma⟩, hcmd,
    by simp, by simp⟩

theorem inv_storeCrcResult {s : State} (l : Nat) (rcv : BitVec 6) (h : Inv s) :
    Inv (storeCrcResult l rcv s) := h

theorem inv_openSession {s : State} (h : Inv s) (hidle : s.fsm = .idle)
    (hlegal : legalConfig s.param s.cfg0 s.cfg1 = true) : Inv (openSession s) := by
  obtain ⟨hparam, hbuf, ⟨hres, -, -⟩, -, -, -, -, -, hseq, hcmd, -, -⟩ := h
  exact ⟨hparam, hbuf, ⟨hres, hres, fun _ => hlegal⟩, by simp, calibrationOk_of_cleared rfl, frameOk_of_cleared rfl,
    offsetsOk_of_cleared rfl, trackerOk_of_cleared rfl, hseq, hcmd, by simp [hidle], by simp [hidle]⟩

theorem inv_assemble {s : State} (h : Inv s) : Inv (assemble s) := by
  obtain ⟨hparam, hbuf, hrest⟩ := h
  exact ⟨hparam, assemble_buffersOk hbuf, hrest⟩

section
variable {s : State} (h : Inv s) (hinit : s.initDone = true)
include h hinit

theorem inv_latchOffsets : Inv (latchOffsets s) := by
  obtain ⟨hparam, hbuf, hcfg, -, hcal, hframe, -, htrk, hrest⟩ := h
  obtain ⟨hmt, hst, hheld⟩ := hframe
  exact ⟨hparam, hbuf, hcfg, by simp [hinit], hcal, ⟨hmt, hst, hheld⟩, ⟨hmt, hst, by simp⟩, htrk, hrest⟩

/-- The extractor masks each field to its width (R322). -/
theorem inv_decodeFrame_validateFrame (f : Nat) : Inv (decodeFrame f (validateFrame f s)) := by
  obtain ⟨hparam, hbuf, hcfg, -, hcal, -, hrest⟩ := h
  refine ⟨hparam, hbuf, hcfg, by simp [hinit], hcal, ⟨?_, ?_, by simp⟩, hrest⟩
  · exact (zext32_toNat_le _).trans_lt (mask_lt _ _)
  · exact (zext32_toNat_le _).trans_lt (mask_lt _ _)

theorem inv_receiveFrame : Inv (receiveFrame s) :=
  inv_decodeFrame_validateFrame (inv_assemble h) hinit _

theorem inv_countCrcFailure : Inv (countCrcFailure s) := by
  obtain ⟨hparam, hbuf, hcfg, -, hrest⟩ := h
  exact ⟨hparam, hbuf, hcfg, by simp [hinit], hrest⟩

theorem inv_trackerUpdate : Inv (trackerUpdate s) := by
  obtain ⟨hparam, hbuf, hcfg, -, hcal, hframe, hoff, -, hrest⟩ := h
  obtain ⟨hst, -, -⟩ := liveSession_bounds hcfg hinit
  have ⟨_, _, _, hspd⟩ := hparam
  have hpos : position s < 2 ^ (s.mtWidth + s.stWidth) := by
    have := wrapSub_lt s.mtWidth s.frame.mt.toNat s.off.mt.toNat
    have : rawAngle s < 2 ^ s.stWidth := wrapSub_lt _ _ _
    rw [Nat.pow_add]; unfold position; nlinarith
  refine ⟨hparam, hbuf, hcfg, by simp [hinit], hcal, hframe, hoff, ⟨?_, ?_, ?_, ?_, ?_, ?_⟩, hrest⟩
  · exact (zext32_toNat_le _).trans_lt (wrapSub_lt _ _ _)
  · exact (zext32_toNat_le _).trans_lt (mask_lt _ _)
  · exact (zext32_toNat_le _).trans_lt (mask_lt _ _)
  · exact (BitVec.toNat_ofNat _ _).trans_lt ((Nat.mod_le _ _).trans_lt hpos)
  · exact (sext32_mask_sext32 hst (wrapSub_lt _ _ _)).symm
  · exact (sext32_mask_sext32 hspd (patternOf_lt _ _)).symm

variable (hidle : s.fsm = .idle)
include hidle

theorem inv_markCalFailed : Inv (markCalFailed s) := by
  obtain ⟨hparam, hbuf, hcfg, -, -, hframe, hoff, htrk, hseq, hcmd, -, -⟩ := h
  exact ⟨hparam, hbuf, hcfg, by simp [hinit], by simp [CalibrationOk], hframe, hoff, htrk, hseq, hcmd, by simp [hidle],
    by simp [hidle]⟩

theorem inv_storeCalibration {d : Nat} (hfail : s.cal.fail = false) (hd : d < s.param.delayMax)
    (hfl : frameLength d s.mtWidth s.stWidth ≤ s.capBits) : Inv (storeCalibration d s) := by
  obtain ⟨hparam, hbuf, hcfg, -, -, hframe, hoff, htrk, hseq, hcmd, -, -⟩ := h
  have hcap : s.param.capBits ≤ 480 := capBits_le_of_legal hparam
  have ⟨_, ⟨_, hscan⟩, _⟩ := hparam
  have hflen : (BitVec.ofNat 16 (frameLength d s.mtWidth s.stWidth)).toNat = frameLength d s.mtWidth s.stWidth := by
    rw [BitVec.toNat_ofNat]; unfold State.capBits at hfl; omega
  have hdelay : (BitVec.ofNat 16 d).toNat = d := by
    rw [BitVec.toNat_ofNat]; omega
  have hcal : CalibrationOk (storeCalibration d s) := by
    refine ⟨by simp [hfail], fun _ => ⟨?_, ?_, ?_, ?_⟩⟩ <;>
      simp only [storeCalibration_cal, storeCalibration_param, storeCalibration_mtWidth, storeCalibration_stWidth,
        storeCalibration_capBits, hflen, hdelay]
    · exact hd
    · unfold frameLength; omega
    · exact hfl
    · exact ofNat_ceilDiv_toNat hparam hfl
  exact ⟨hparam, hbuf, hcfg, by simp [hinit], hcal, hframe, hoff, htrk, hseq, hcmd, by simp [hidle],
    by simp [hidle]⟩

end

/-! ### The invariant, in a running transaction -/

/-- A transaction begins with a clear chain and all its ticks ahead (R175). -/
theorem sequencerOk_start {s : State} {t : BitVec 16} {trial : BitVec 2} {f : Fsm} (hparam : s.param.Legal)
    (hma : s.ma = true) (hf : f = .calRun ∨ f = .frameRun) (hpos : 1 ≤ t.toNat) (hcap : t.toNat ≤ s.capBits) :
    SequencerOk { startTransaction t s with
      seq := { (startTransaction t s).seq with trial := trial }, fsm := f } := by
  refine ⟨hcap, ofNat_ceilDiv_toNat hparam hcap, ?_, ?_, hma⟩
  · show chainValue (List.replicate _ 0) < _
    rw [chainValue_replicate]; positivity
  · have hrun : (f == .calRun || f == .frameRun) = true := by rcases hf with rfl | rfl <;> rfl
    show if (f == .calRun || f == .frameRun) = true then (0 : BitVec 16) < t else _
    rw [if_pos hrun]; exact BitVec.lt_def.2 hpos

/-- A trial of CALIBRATE in a live session that is not fatal (R230). -/
theorem inv_startTrial {s : State} {trial : BitVec 2} (h : Inv s) (hinit : s.initDone = true)
    (hfail : s.cal.fail = false) (hcur : s.curCmd = encode .calibrate) (htrial : trial = 1 ∨ trial = 2) :
    Inv { startTransaction (BitVec.ofNat 16 s.calLen) s with
      seq := { (startTransaction (BitVec.ofNat 16 s.calLen) s).seq with trial := trial }, fsm := .calRun } := by
  obtain ⟨hparam, ⟨hraw, hcrc, -⟩, hcfg, -, hcal, hframe, hoff, htrk, ⟨-, -, -, -, hma⟩, hcmd, -, -⟩ := h
  obtain ⟨-, hleast, hmost⟩ := liveSession_bounds hcfg hinit
  have ⟨_, ⟨hscan, _⟩, _⟩ := hparam
  have hlen : (BitVec.ofNat 16 s.calLen).toNat = s.calLen := by
    simp [State.calLen, calLenField]
  refine ⟨hparam, ⟨hraw, hcrc, by simp⟩, hcfg, by simp [hinit], hcal, hframe, hoff, htrk, ?_, hcmd,
    fun _ => ⟨hinit, hfail, hlen, htrial, hcur⟩, by simp⟩
  refine sequencerOk_start hparam hma (.inl rfl) ?_ ?_ <;> rw [hlen]
  · exact hscan.trans hleast
  · exact hmost

/-- The transaction of a READ in a calibrated session (R260). -/
theorem inv_startFrame {s : State} (h : Inv s) (hinit : s.initDone = true) (hdone : s.cal.done = true)
    (hcur : s.curCmd = encode .read) : Inv { startTransaction s.cal.flen s with fsm := .frameRun } := by
  obtain ⟨hparam, ⟨hraw, hcrc, -⟩, hcfg, -, hcal, hframe, hoff, htrk, ⟨-, -, -, -, hma⟩, hcmd, -, -⟩ := h
  have ⟨_, hvalid⟩ := hcal
  obtain ⟨-, hflen, hcap, -⟩ := hvalid hdone
  exact ⟨hparam, ⟨hraw, hcrc, by simp⟩, hcfg, by simp [hinit], hcal, hframe, hoff, htrk,
    sequencerOk_start (trial := s.seq.trial) hparam hma (.inr rfl) (by omega) hcap, hcmd, by simp,
    fun _ => ⟨hinit, hdone, rfl, hcur⟩⟩

end Sys2Proof.Machine
end

