-- ==== Sys2Proof/Proofs/InvariantSteps.lean ====
section
/-! SUPPORT. The invariant at every event: a core turn, a host access and a reset edge, and so at every step. -/

namespace Sys2Proof.Machine

/-- One step of a running transaction, everything it does (R174, R176). -/
theorem runTransaction_running {s : State} (after : Fsm) (h : s.seq.k < s.seq.t) :
    runTransaction after s = { s with
      chain := shiftIn (sample s) s.chain
      seq := { s.seq with k := s.seq.k + 1 }
      encBits := s.encBits.tail
      ma := true
      fsm := if s.seq.k + 1 = s.seq.t then after else s.fsm } := by
  rw [runTransaction, tick_running h]
  dsimp only
  split <;> rfl

theorem toNat_succ_of_lt {k t : BitVec 16} (h : k < t) : (k + 1).toNat = k.toNat + 1 := by
  have := t.isLt
  rw [BitVec.lt_def] at h
  rw [BitVec.toNat_add]
  exact Nat.mod_eq_of_lt (by simp; omega)

/-- A tick takes one sample, and the FSM leaves the transaction exactly with the last (R174, R176). -/
theorem sequencerOk_runTransaction {s : State} {after : Fsm} (h : SequencerOk s) (hrun : s.capturing = true)
    (hafter : after ≠ .calRun ∧ after ≠ .frameRun) : SequencerOk (runTransaction after s) := by
  obtain ⟨ht, hnt, hchain, hk, -⟩ := h
  rw [if_pos hrun] at hk
  have hsucc := toNat_succ_of_lt hk
  rw [runTransaction_running after hk]
  refine ⟨ht, hnt, ?_, ?_, rfl⟩
  · show chainValue (shiftIn _ _) < 2 ^ (s.seq.k + 1).toNat
    rw [hsucc]
    exact chainValue_shiftIn_lt _ hchain
  · rw [BitVec.lt_def] at hk
    dsimp only [State.capturing] at hrun ⊢
    generalize s.seq.k + 1 = k' at hsucc ⊢
    by_cases hlast : k' = s.seq.t
    · simp [hlast, hafter]
    · have hne : k'.toNat ≠ s.seq.t.toNat := fun e => hlast (BitVec.eq_of_toNat_eq e)
      have hmore : k' < s.seq.t := by rw [BitVec.lt_def]; omega
      simpa [hlast, hmore] using hrun

/-- A transaction of CALIBRATE or of READ hands over to its own evaluation state (R230, R260). -/
theorem inv_runTransaction {s : State} {after : Fsm} (h : Inv s)
    (hf : s.fsm = .calRun ∧ after = .calEval ∨ s.fsm = .frameRun ∧ after = .frameProc) :
    Inv (runTransaction after s) := by
  obtain ⟨hparam, hbuf, hcfg, hsess, hcal, hframe, hoff, htrk, hseq, hcmd, hcaling, hrecv⟩ := h
  have hrun : s.capturing = true := by rcases hf with ⟨hf, -⟩ | ⟨hf, -⟩ <;> simp [State.capturing, hf]
  have hbuf' := runTransaction_buffersOk after hbuf
  have hseq' := sequencerOk_runTransaction hseq hrun (after := after)
    (by rcases hf with ⟨-, rfl⟩ | ⟨-, rfl⟩ <;> simp)
  obtain ⟨-, -, -, hk, -⟩ := hseq
  rw [if_pos hrun] at hk
  rw [runTransaction_running after hk] at hbuf' hseq' ⊢
  refine ⟨hparam, hbuf', hcfg, hsess, hcal, hframe, hoff, htrk, hseq', hcmd, fun hf' => ?_, fun hf' => ?_⟩ <;>
    dsimp only at hf'
  · rcases hf with ⟨hf, rfl⟩ | ⟨hf, rfl⟩
    · exact hcaling (.inl hf)
    · split at hf' <;> simp [hf] at hf'
  · rcases hf with ⟨hf, rfl⟩ | ⟨hf, rfl⟩
    · split at hf' <;> simp [hf] at hf'
    · exact hrecv (.inl hf)

/-! ### The invariant, in a core turn -/

theorem inv_coreTurn {s t : State} (h : Inv s) (hst : CoreTurn s t) : Inv t := by
  have hb : Inv (beginTurn s) := inv_beginTurn h
  have hidle {f : Fsm} (hf : s.fsm = f) (hstill : (f == .calRun || f == .frameRun) = false) (code : ErrCode) :
      Inv (finish code (beginTurn s)) := inv_finish code hb (by rw [← hf] at hstill; exact hstill)
  obtain ⟨-, -, -, -, -, -, -, -, -, -, hcaling, hrecv⟩ := h
  cases hst with
  | idle => exact hb
  | error code hf => exact hidle hf rfl code
  | nop hf => exact hidle hf rfl _
  | init hf _ hlegal => exact inv_openSession (hidle hf rfl .none) rfl hlegal
  | startTrial trial hwhy =>
    rcases hwhy with ⟨-, hdec, hinit, hfail, rfl⟩ | ⟨hf, -, rfl⟩
    · exact inv_startTrial hb hinit hfail (encode_of_decodeWord hdec).symm (.inl rfl)
    · obtain ⟨hinit, hfail, -, -, hcur⟩ := hcaling (.inr hf)
      exact inv_startTrial hb hinit hfail hcur (.inr rfl)
  | startFrame _ hdec hinit _ hdone => exact inv_startFrame hb hinit hdone (encode_of_decodeWord hdec).symm
  | latch hf _ hinit => exact inv_latchOffsets (hidle hf rfl .none) hinit
  | crcCheck l rcrc hf => exact inv_storeCrcResult l rcrc (hidle hf rfl .none)
  | decode nw hf _ hinit =>
    exact inv_decodeFrame_validateFrame (hidle hf rfl .none) hinit _
  | calTick hf => exact inv_runTransaction hb (.inl ⟨hf, rfl⟩)
  | frameTick hf => exact inv_runTransaction hb (.inr ⟨hf, rfl⟩)
  | calFail code hf =>
    obtain ⟨hinit, -⟩ := hcaling (.inr hf)
    exact inv_markCalFailed (hidle hf rfl code) hinit rfl
  | calDone d hf hscan hfl =>
    obtain ⟨hinit, hfail, -⟩ := hcaling (.inr hf)
    exact inv_storeCalibration (hidle hf rfl .none) hinit rfl hfail
      (scanDelay_eq_some.1 hscan).1 hfl
  | frameGood hf =>
    obtain ⟨hinit, -⟩ := hrecv (.inr hf)
    exact inv_trackerUpdate (inv_receiveFrame (hidle hf rfl .none) hinit) hinit
  | frameBad hf =>
    obtain ⟨hinit, -⟩ := hrecv (.inr hf)
    exact inv_countCrcFailure (inv_receiveFrame (hidle hf rfl .none) hinit) hinit

/-! ### The invariant, at a host access and at reset -/

/-- Acceptance stores the word and its opcode together, and ticks remain neither in IDLE nor in EXEC (R200). -/
theorem inv_acceptCmd {s : State} (w : Word) (h : Inv s) (hidle : s.fsm = .idle) : Inv (acceptCmd w s) := by
  obtain ⟨hparam, hbuf, hcfg, hsess, hcal, hframe, hoff, htrk, ⟨ht, hnt, hchain, hk, hma⟩, -, -, -⟩ := h
  have hstill : s.capturing = false := by simp [State.capturing, hidle]
  rw [hstill] at hk
  exact ⟨hparam, hbuf, hcfg, hsess, hcal, hframe, hoff, htrk, ⟨ht, hnt, hchain, hk, hma⟩, rfl, by simp, by simp⟩

theorem inv_writeReg {s : State} (r : WinReg) (v : Word) (h : Inv s) : Inv (writeReg r v s) := by
  have ⟨hparam, hbuf, hrest⟩ := h
  replace hbuf := writeReg_buffersOk r v hbuf
  cases r with
  | cfg0 =>
    obtain ⟨⟨-, hscfg, hlegal⟩, hrest⟩ := hrest
    have hres : (v &&& cfg0Writable) &&& ~~~cfg0Writable = 0 := by
      rw [BitVec.and_assoc, BitVec.and_not_self]; exact BitVec.and_zero
    exact ⟨hparam, hbuf, ⟨hres, hscfg, hlegal⟩, hrest⟩
  | cmd =>
    simp only [writeReg, writeCmd]
    split
    · exact inv_acceptCmd v h ‹_›
    · exact h
  | raw i =>
    simp only [writeReg] at hbuf ⊢
    split at hbuf <;> rename_i hbusy
    · rw [if_pos hbusy]; exact h
    · rw [if_neg hbusy]; exact ⟨hparam, hbuf, hrest⟩
  | crcIn i => exact ⟨hparam, hbuf, hrest⟩
  | _ => exact h

theorem inv_busAccess {s : State} (a : BusAccess) (h : Inv s) : Inv (busAccess a s) := by
  rcases busAccess_cases a s with ⟨r, e⟩ | e <;> rw [e]
  · exact h
  · exact inv_writeReg _ _ h

theorem inv_resetOf {p : Params} (hp : p.Legal) : Inv (State.resetOf p) := by
  refine ⟨hp, ?_, ?_, ?_, calibrationOk_of_cleared rfl, frameOk_of_cleared rfl, offsetsOk_of_cleared rfl,
    trackerOk_of_cleared rfl, ?_, rfl, ?_, ?_⟩
  · simp [BuffersOk, State.resetOf]
  · simp [ConfigOk, State.resetOf]
  · simp [NoSessionOk, State.resetOf]
  · have hchain : chainValue (State.resetOf p).chain < 2 ^ 0 := (chainValue_replicate p.nsMax).trans_lt Nat.one_pos
    exact ⟨Nat.zero_le _, by simp [State.resetOf, ceilDiv], hchain, rfl, rfl⟩
  · simp [State.resetOf]
  · simp [State.resetOf]

/-- Settles O58. -/
theorem invariantHoldsAtReset : Obligations.InvariantHoldsAtReset :=
  ⟨inv_resetOf (by decide), fun _ => inv_resetOf⟩

/-- Settles O59: one lemma for each way a core turn ends, one for a register write, and the base case for a reset
edge. -/
theorem everyStepKeepsTheInvariant : Obligations.EveryStepKeepsTheInvariant := by
  intro s t h hst
  rcases step_next_cases hst with ⟨s', hn, hturn⟩ | ⟨a, rest, -, rfl⟩ | ⟨p, rest, -, rfl⟩
  · have h' : Inv s' := by rw [hn.eq]; exact h
    exact inv_coreTurn h' hturn
  · exact inv_busAccess a h
  · exact inv_resetOf h.1

end Sys2Proof.Machine
end

