-- ==== Sys2Proof/Proofs/RegisterReads.lean ====
section
/-! SUPPORT. What the registers of the window read as (10_state.md R32 to R72), and where the buffers stand in it
(20_memory.md R101). -/

namespace Sys2Proof.Machine

/-! ### Offsets -/

theorem regAt_raw {nsMax i : Nat} (hmax : nsMax ≤ 15) (hi : i < nsMax) :
    regAt nsMax (0x0C0 + 4 * i) = .raw i := by
  have h4 : (0x0C0 + 4 * i - 0x0C0) / 4 = i := by omega
  rw [regAt, if_neg (by omega), if_neg (by omega), if_pos (by omega), h4, if_pos hi]

theorem regAt_crcIn {nsMax i : Nat} (hi : i < nsMax) : regAt nsMax (0x100 + 4 * i) = .crcIn i := by
  have h4 : (0x100 + 4 * i - 0x100) / 4 = i := by omega
  rw [regAt, if_neg (by omega), if_neg (by omega), if_neg (by omega), h4, if_pos hi]

/-- No register below the arrays is a buffer's (R101). -/
theorem scalarRegs_no_buffer (k i : Nat) :
    scalarRegs.getD k .unassigned ≠ .raw i ∧ scalarRegs.getD k .unassigned ≠ .crcIn i := by
  have hno : ∀ r ∈ scalarRegs, r ≠ .raw i ∧ r ≠ .crcIn i := by simp [scalarRegs]
  rw [List.getD_eq_getElem?_getD]
  cases hk : scalarRegs[k]? with
  | none => simp
  | some r => exact hno r (List.mem_of_getElem? hk)

/-- A buffer register at an offset is one the core has (R101, R103). -/
theorem regAt_buffer_lt {nsMax off i : Nat} (h : regAt nsMax off = .raw i ∨ regAt nsMax off = .crcIn i) :
    i < nsMax := by
  obtain ⟨hraw, hcrc⟩ := scalarRegs_no_buffer (off / 4) i
  unfold regAt at h
  split_ifs at h <;> simp_all

/-! ### STATUS -/

/-- STATUS shows BUSY in bit 0 (R37). -/
theorem statusWord_busy (s : State) : (statusWord s).getLsbD 0 = decide (s.fsm ≠ .idle) := by
  simp only [statusWord, BitVec.getLsbD_append]
  cases hf : s.fsm <;> simp [State.busy, hf]

/-- STATUS shows INIT_DONE in bit 1 (R38). -/
theorem statusWord_initDone (s : State) : (statusWord s).getLsbD 1 = s.initDone := by
  simp only [statusWord, BitVec.getLsbD_append]
  simp

/-- STATUS shows MODE in bit 4 (R41). -/
theorem statusWord_mode (s : State) : (statusWord s).getLsbD 4 = decide (s.off.mode = .calibrated) := by
  simp only [statusWord, BitVec.getLsbD_append]
  cases hmode : s.off.mode <;> simp [TrackerMode.bit]

/-- The other flags of STATUS (R39, R40, R42 to R45). -/
theorem statusWord_flags (s : State) :
    (statusWord s).getLsbD 2 = s.cal.done ∧ (statusWord s).getLsbD 3 = s.cal.fail ∧
      (statusWord s).getLsbD 5 = s.frame.held ∧ (statusWord s).getLsbD 6 = s.frame.crcOk ∧
      (statusWord s).getLsbD 7 = s.frame.errBit ∧ (statusWord s).getLsbD 8 = s.frame.warnBit := by
  simp only [statusWord, BitVec.getLsbD_append]
  simp

/-- The fields of STATUS (R46 to R48) and its reserved bits. -/
theorem statusWord_fields (s : State) :
    (statusWord s).extractLsb' 9 3 = 0 ∧ (statusWord s).extractLsb' 12 4 = s.err.code ∧
      (statusWord s).extractLsb' 16 4 = s.fsm.code ∧ (statusWord s).extractLsb' 20 4 = s.lastOp ∧
      (statusWord s).extractLsb' 24 8 = 0 := by
  simp (disch := decide) only [statusWord, BitVec.extractLsb'_append_eq_of_le,
    BitVec.extractLsb'_append_eq_of_add_le]
  simp

/-! ### The other packed registers -/

/-- The fields of PARAM (R32). -/
theorem paramWord_fields (p : Params) :
    (paramWord p).extractLsb' 0 4 = BitVec.ofNat 4 p.nsMax ∧
      (paramWord p).getLsbD 4 = decide (p.chainOrder = .lowFirst) ∧
      (paramWord p).extractLsb' 5 6 = BitVec.ofNat 6 p.spdW ∧ (paramWord p).extractLsb' 11 5 = 0 ∧
      (paramWord p).extractLsb' 16 16 = BitVec.ofNat 16 p.delayMax := by
  have horder : (paramWord p).getLsbD 4 = decide (p.chainOrder = .lowFirst) := by
    simp only [paramWord, BitVec.getLsbD_append]
    cases p.chainOrder <;> simp
  rw [horder]
  simp (disch := decide) only [paramWord, BitVec.extractLsb'_append_eq_of_le,
    BitVec.extractLsb'_append_eq_of_add_le]
  simp

/-- The fields of FRAME_LEN (R52). -/
theorem frameLenWord_fields (c : Calibration) :
    (frameLenWord c).extractLsb' 0 16 = c.flen ∧ (frameLenWord c).extractLsb' 16 4 = c.nsa ∧
      (frameLenWord c).extractLsb' 20 12 = 0 := by
  simp (disch := decide) only [frameLenWord, BitVec.extractLsb'_append_eq_of_le,
    BitVec.extractLsb'_append_eq_of_add_le]
  simp

/-- The fields of FRAME_CRC (R65). -/
theorem frameCrcWord_fields (f : HeldFrame) :
    (frameCrcWord f).extractLsb' 0 6 = f.rcvCrc ∧ (frameCrcWord f).extractLsb' 6 2 = 0 ∧
      (frameCrcWord f).extractLsb' 8 6 = f.calcCrc ∧ (frameCrcWord f).extractLsb' 14 18 = 0 := by
  simp (disch := decide) only [frameCrcWord, BitVec.extractLsb'_append_eq_of_le,
    BitVec.extractLsb'_append_eq_of_add_le]
  simp

/-- The fields of CRC_RES (R66). -/
theorem crcResWord_fields (r : CrcResult) :
    (crcResWord r).getLsbD 0 = r.ok ∧ (crcResWord r).extractLsb' 1 7 = 0 ∧
      (crcResWord r).extractLsb' 8 6 = r.calcCrc ∧ (crcResWord r).extractLsb' 14 2 = 0 ∧
      (crcResWord r).extractLsb' 16 6 = r.rcvCrc ∧ (crcResWord r).extractLsb' 22 10 = 0 := by
  have hok : (crcResWord r).getLsbD 0 = r.ok := by
    simp only [crcResWord, BitVec.getLsbD_append]
    simp
  rw [hok]
  simp (disch := decide) only [crcResWord, BitVec.extractLsb'_append_eq_of_le,
    BitVec.extractLsb'_append_eq_of_add_le]
  simp

/-- A 4-bit register reads its bits below 0s (R49, R50). -/
theorem getLsbD_setWidth_of_four (x : BitVec 4) {j : Nat} (hj : j < 32) :
    (x.setWidth 32).getLsbD j = (decide (j < 4) && x.getLsbD j) := by
  by_cases h4 : j < 4
  · simp [hj, h4]
  · simp [h4, BitVec.getLsbD_of_ge x j (by omega)]

/-! ### Reads -/

/-- A supported read answers the register and changes nothing else (R104, R107). -/
theorem busAccess_read {a : BusAccess} (s : State) (hre : a.re = true) (hwe : a.we = false) (hsize : a.size = .word)
    (halign : a.addr.toNat % 4 = 0) :
    busAccess a s = { s with lastResp := { rdata := some (readOffset a.addr.toNat s), err := false } } := by
  simp [busAccess, BusAccess.refusedByBus, hre, hwe, hsize, halign]

/-- Settles O51, register by register. -/
theorem readsReturnTheRegistersAndChangeNothing : Obligations.ReadsReturnTheRegistersAndChangeNothing := by
  refine ⟨fun a s => busAccess_read s, fun s hparam => ⟨?param, rfl, rfl, rfl, ?status, ?irqEn, ?irqStatus, ?calDelay,
    frameLenWord_fields s.cal, rfl, rfl, rfl, rfl, rfl, rfl, rfl, ?posLo, ?posHi, rfl, rfl, rfl,
    frameCrcWord_fields s.frame, crcResWord_fields s.crcRes, rfl, rfl, ?buffers, ?unassigned⟩⟩
  case param =>
    have hcap := capBits_le_of_legal hparam
    obtain ⟨⟨-, hns⟩, ⟨-, hdelay⟩, -, hspd⟩ := hparam
    obtain ⟨fns, forder, fspd, fres, fdelay⟩ := paramWord_fields s.param
    refine ⟨?_, forder, ?_, fres, ?_⟩
    · exact (congrArg BitVec.toNat fns).trans (Nat.mod_eq_of_lt (by omega))
    · exact (congrArg BitVec.toNat fspd).trans (Nat.mod_eq_of_lt (by omega))
    · exact (congrArg BitVec.toNat fdelay).trans (Nat.mod_eq_of_lt (by omega))
  case status =>
    obtain ⟨b2, b3, b5, b6, b7, b8⟩ := statusWord_flags s
    obtain ⟨f9, f12, f16, f20, f24⟩ := statusWord_fields s
    exact ⟨statusWord_busy s, statusWord_initDone s, b2, b3, statusWord_mode s, b5, b6, b7, b8, f9, f12, f16, f20,
      f24⟩
  case irqEn => exact fun j => getLsbD_setWidth_of_four s.irqEn
  case irqStatus => exact fun j => getLsbD_setWidth_of_four s.irqStatus
  case calDelay =>
    have := s.cal.delay.isLt
    exact (BitVec.toNat_setWidth 32 _).trans (Nat.mod_eq_of_lt (by omega))
  case posLo => exact BitVec.extractLsb'_toNat 0 32 s.trk.pos
  case posHi =>
    have := s.trk.pos.isLt
    refine (BitVec.extractLsb'_toNat 32 32 s.trk.pos).trans ?_
    rw [Nat.shiftRight_eq_div_pow]
    exact Nat.mod_eq_of_lt (by omega)
  case buffers =>
    intro i hi
    obtain ⟨⟨-, hns⟩, -⟩ := hparam
    rw [readOffset, readOffset, regAt_raw hns hi, regAt_crcIn hi]
    exact ⟨rfl, rfl⟩
  case unassigned =>
    intro off _ _ hreg
    rw [readOffset, hreg, readReg]

end Sys2Proof.Machine
end

