-- ==== Sys2Proof/Proofs/RegisterWrites.lean ====
section
/-! SUPPORT. What a host write to a register makes it read as (20_memory.md R104), how the buffers reach the commands
(30_encoding.md R145, R146), and the values after reset (10_state.md R78, 70_reset_and_hazards.md R450). -/

namespace Sys2Proof.Machine

/-! ### Writes -/

/-- A register write keeps the design parameters (R452). -/
@[simp] theorem writeReg_param (r : WinReg) (v : Word) (s : State) : (writeReg r v s).param = s.param := by
  obtain ⟨_, _, _, _, _, _, _, _, _, -, e⟩ := writeReg_changes r v s
  rw [e]

/-- The response of the bus is in no register. -/
@[simp] theorem readReg_lastResp (r : WinReg) (s : State) (resp : BusResponse) :
    readReg r { s with lastResp := resp } = readReg r s := by
  cases r <;> rfl

/-- Reading back the offset just written reads the register just written. -/
theorem readOffset_hostWrite {off : Nat} (v : Word) (s : State) (h : off < 0x200) (h4 : off % 4 = 0) :
    readOffset off (busAccess (hostWrite off v) s) =
      readReg (regAt s.param.nsMax off) (writeReg (regAt s.param.nsMax off) v s) := by
  rw [busAccess_hostWrite off v s h h4, readOffset, readReg_lastResp, writeReg_param]

theorem wordAt_set {ws : List Word} {i : Nat} (v : Word) (h : i < ws.length) : wordAt (ws.set i v) i = v := by
  simp [wordAt, List.getD_eq_getElem?_getD, h]

/-- IRQ_EN keeps the four low bits written (R49). -/
theorem extractLsb'_setWidth_four (v : Word) : (v.extractLsb' 0 4).setWidth 32 = v &&& 0xF := by
  apply BitVec.eq_of_getLsbD_eq
  intro j hj
  rw [getLsbD_setWidth_of_four _ hj, BitVec.getLsbD_and]
  interval_cases j <;> simp

/-- Ones clear pending bits; the bits above the four are 0 before and after (R50). -/
theorem ackIrq_setWidth (x : BitVec 4) (v : Word) :
    (x &&& ~~~v.extractLsb' 0 4).setWidth 32 = x.setWidth 32 &&& ~~~v := by
  apply BitVec.eq_of_getLsbD_eq
  intro j hj
  rw [getLsbD_setWidth_of_four _ hj, BitVec.getLsbD_and, BitVec.getLsbD_and, getLsbD_setWidth_of_four _ hj]
  interval_cases j <;> simp

/-- Settles O52, register by register. -/
theorem writeReplacesWritableBits : Obligations.WriteReplacesWritableBits := by
  rintro s off v ⟨hraw, hcrc, -⟩ hoff halign -
  rw [readOffset_hostWrite v s hoff halign]
  have hread : readOffset off s = readReg (regAt s.param.nsMax off) s := rfl
  rw [hread]
  cases hreg : regAt s.param.nsMax off with
  | irqEn => exact extractLsb'_setWidth_four v
  | irqStatus => exact ackIrq_setWidth s.irqStatus v
  | raw i =>
    have hi : i < s.raw.length := hraw ▸ regAt_buffer_lt (.inl hreg)
    by_cases hidle : s.fsm = .idle
    · simp [writeReg, readReg, State.busy, hidle, wordAt_set v hi]
    · simp [writeReg, readReg, State.busy, hidle]
  | crcIn i =>
    have hi : i < s.crcIn.length := hcrc ▸ regAt_buffer_lt (.inr hreg)
    exact wordAt_set v hi
  | _ => rfl

/-! ### The buffers -/

/-- Bit t of the CRC window is bit t mod 32 of CRC_IN[t div 32] (R146). -/
theorem crcInBits_getD (crcIn : List Word) {l t : Nat} (h : t < l) :
    (crcInBits crcIn l).getD t false = (wordAt crcIn (t / 32)).getLsbD (t % 32) := by
  simp [crcInBits, List.getD_eq_getElem?_getD, h]

/-- Settles O55. -/
theorem bufferWritesReachTheCommands : Obligations.BufferWritesReachTheCommands := by
  rintro s i v ⟨hraw, hcrc, -⟩ hi hmax hidle
  refine ⟨fun j hj => ?_, fun j hj => ?_⟩
  · have hword : wordAt (busAccess (hostWrite (0x0C0 + 4 * i) v) s).raw i = v := by
      rw [busAccess_hostWrite _ v s (by omega) (by omega), regAt_raw hmax hi]
      simp [writeReg, State.busy, hidle, wordAt_set v (hraw ▸ hi)]
    rw [frameWord_succ, hword, Nat.mul_comm, Nat.testBit_two_pow_mul_add _ v.isLt, if_pos hj]
    rfl
  · have hword : wordAt (busAccess (hostWrite (0x100 + 4 * i) v) s).crcIn i = v := by
      rw [busAccess_hostWrite _ v s (by omega) (by omega), regAt_crcIn hi]
      exact wordAt_set v (hcrc ▸ hi)
    have hdiv : (32 * i + j) / 32 = i := by omega
    have hmod : (32 * i + j) % 32 = j := by omega
    rw [crcInBits_getD _ (by omega), hdiv, hmod, hword]

/-! ### Reset -/

theorem wordAt_replicate (n i : Nat) : wordAt (List.replicate n 0) i = 0 := by
  by_cases h : i < n <;> simp [wordAt, h]

/-- A reset edge leaves the reset values but for the host's answer, the model's own lists and its counter, and no
register shows these (R450). -/
theorem readReg_resetEdge (r : WinReg) (presented : Option BusAccess) (s : State) :
    readReg r (resetEdge presented s) = readReg r (State.resetOf s.param) := by
  cases r <;> rfl

/-- Every register but PARAM reads 0 after reset (R78). -/
theorem readReg_resetOf {r : WinReg} (p : Params) (h : r ≠ .param) : readReg r (State.resetOf p) = 0 := by
  cases r with
  | param => exact absurd rfl h
  | cap i =>
    show capView p 0 (List.replicate p.nsMax 0) i = 0
    unfold capView
    cases p.chainOrder <;> simpa using wordAt_replicate p.nsMax i
  | raw i => exact wordAt_replicate p.nsMax i
  | crcIn i => exact wordAt_replicate p.nsMax i
  | status =>
    simp [readReg, statusWord, State.resetOf, State.busy, Fsm.code, ErrCode.code, TrackerMode.bit, HeldFrame.cleared,
      Offsets.cleared, Calibration.cleared]
  | frameLen => simp [readReg, frameLenWord, State.resetOf, Calibration.cleared]
  | posHi => simp [readReg, State.resetOf, Tracker.cleared]
  | frameCrc => simp [readReg, frameCrcWord, State.resetOf, HeldFrame.cleared]
  | crcRes => simp [readReg, crcResWord, State.resetOf]
  | _ => rfl

/-- PARAM is at offset 0 only (R101). -/
theorem regAt_ne_param {nsMax off : Nat} (h4 : off % 4 = 0) (h0 : off ≠ 0) : regAt nsMax off ≠ .param := by
  unfold regAt
  split_ifs with h
  · obtain ⟨k, rfl⟩ : ∃ k, off = 4 * k := ⟨off / 4, by omega⟩
    have : k < 32 := by omega
    have : k ≠ 0 := by omega
    interval_cases k <;> simp_all [scalarRegs]
  all_goals simp

theorem hasResetValues_resetOf (p : Params) : HasResetValues (State.resetOf p) :=
  ⟨fun _ _ h4 h0 => readReg_resetOf p (regAt_ne_param h4 h0), rfl, rfl, rfl, rfl, chainValue_replicate p.nsMax, rfl,
    by simp [irqOut, State.resetOf], rfl, rfl⟩

theorem hasResetValues_resetEdge (presented : Option BusAccess) (s : State) :
    HasResetValues (resetEdge presented s) := by
  obtain ⟨hread, hrest⟩ := hasResetValues_resetOf s.param
  exact ⟨fun off h h4 h0 => (readReg_resetEdge _ presented s).trans (hread off h h4 h0), hrest⟩

/-- In IDLE a CMD write is accepted (R200). -/
theorem busAccess_cmd_idle {s : State} (w : Word) (hidle : s.fsm = .idle) :
    busAccess (hostWrite 0x00C w) s = { acceptCmd w s with lastResp := { rdata := none, err := false } } := by
  rw [busAccess_hostWrite _ w s (by decide) (by decide)]
  have hreg : regAt s.param.nsMax 0x00C = .cmd := rfl
  rw [hreg, writeReg, writeCmd, if_pos hidle]

/-- Settles O56. -/
theorem resetLeavesTheStatedValues : Obligations.ResetLeavesTheStatedValues := by
  refine ⟨fun p => ⟨rfl, hasResetValues_resetOf p⟩, fun s presented => ?_⟩
  refine ⟨rfl, hasResetValues_resetEdge presented s, ?_, fun w => ?_⟩
  · rintro a rfl hre
    simp [resetEdge, resetResponse, hre]
  · rw [busAccess_cmd_idle w rfl]
    exact ⟨rfl, rfl⟩

end Sys2Proof.Machine
end

