-- ==== Sys2Proof/Proofs/ChangingEvents.lean ====
section
/-! SUPPORT. Which events change the offsets, INIT_DONE, CAL_FAIL, the tracker and the session configuration
(10_state.md R38, R40, R41, R55 to R67): one lemma for each says every way a step can leave it. -/

namespace Sys2Proof.Machine

/-! ### What a transaction step and a host access keep -/

/-- A value read from none of the fields `runTransaction_changes` names. -/
theorem runTransaction_keeps {α : Type} (get : State → α)
    (hget : ∀ (s : State) chain seq encBits ma fsm,
      get { s with chain := chain, seq := seq, encBits := encBits, ma := ma, fsm := fsm } = get s)
    (after : Fsm) (s : State) : get (runTransaction after s) = get s := by
  obtain ⟨_, _, _, _, _, -, e⟩ := runTransaction_changes after s
  rw [e, hget]

/-- A value read from none of the fields `busAccess_changes` names. -/
theorem busAccess_keeps {α : Type} (get : State → α)
    (hget : ∀ (s : State) cfg0 cfg1 irqEn irqStatus raw crcIn curCmd lastOp fsm lastResp,
      get { s with
        cfg0 := cfg0, cfg1 := cfg1, irqEn := irqEn, irqStatus := irqStatus, raw := raw, crcIn := crcIn
        curCmd := curCmd, lastOp := lastOp, fsm := fsm, lastResp := lastResp } = get s)
    (a : BusAccess) (s : State) : get (busAccess a s) = get s := by
  obtain ⟨_, _, _, _, _, _, _, _, _, _, -, e⟩ := busAccess_changes a s
  rw [e, hget]

section
variable (after : Fsm) (a : BusAccess) (s : State)

@[simp] theorem runTransaction_scfg0 : (runTransaction after s).scfg0 = s.scfg0 :=
  runTransaction_keeps State.scfg0 (by intros; rfl) after s
@[simp] theorem runTransaction_scfg1 : (runTransaction after s).scfg1 = s.scfg1 :=
  runTransaction_keeps State.scfg1 (by intros; rfl) after s
@[simp] theorem runTransaction_initDone : (runTransaction after s).initDone = s.initDone :=
  runTransaction_keeps State.initDone (by intros; rfl) after s
@[simp] theorem runTransaction_cal : (runTransaction after s).cal = s.cal :=
  runTransaction_keeps State.cal (by intros; rfl) after s
@[simp] theorem runTransaction_off : (runTransaction after s).off = s.off :=
  runTransaction_keeps State.off (by intros; rfl) after s
@[simp] theorem runTransaction_trk : (runTransaction after s).trk = s.trk :=
  runTransaction_keeps State.trk (by intros; rfl) after s
@[simp] theorem runTransaction_pubValid : (runTransaction after s).pubValid = s.pubValid :=
  runTransaction_keeps State.pubValid (by intros; rfl) after s

@[simp] theorem busAccess_scfg0 : (busAccess a s).scfg0 = s.scfg0 :=
  busAccess_keeps State.scfg0 (by intros; rfl) a s
@[simp] theorem busAccess_scfg1 : (busAccess a s).scfg1 = s.scfg1 :=
  busAccess_keeps State.scfg1 (by intros; rfl) a s
@[simp] theorem busAccess_initDone : (busAccess a s).initDone = s.initDone :=
  busAccess_keeps State.initDone (by intros; rfl) a s
@[simp] theorem busAccess_cal : (busAccess a s).cal = s.cal := busAccess_keeps State.cal (by intros; rfl) a s
@[simp] theorem busAccess_off : (busAccess a s).off = s.off := busAccess_keeps State.off (by intros; rfl) a s
@[simp] theorem busAccess_trk : (busAccess a s).trk = s.trk := busAccess_keeps State.trk (by intros; rfl) a s
@[simp] theorem busAccess_pubValid : (busAccess a s).pubValid = s.pubValid :=
  busAccess_keeps State.pubValid (by intros; rfl) a s

end

/-! ### Which event comes next -/

theorem CoreTurnNext.coreTurnIn {s s' : State} {f : Fsm} (hn : CoreTurnNext s s') (hf : s'.fsm = f) :
    CoreTurnIn f s :=
  ⟨⟨s', hn⟩, by rw [hn.eq] at hf; exact hf⟩

theorem CoreTurnNext.runsCommand {s s' : State} {i : Instr} (hn : CoreTurnNext s s') (hf : s'.fsm = .exec)
    (hdec : decodeWord s'.curCmd = .ok i) : RunsCommand i s :=
  ⟨hn.coreTurnIn hf, by rw [hn.eq] at hdec; exact hdec⟩

theorem not_coreTurnNext_of_access {s s' : State} {a : BusAccess} {rest : List HostEvent}
    (hx : s.inbox = .access a :: rest) : ¬ CoreTurnNext s s' := by
  rintro (⟨hx', -⟩ | ⟨_, hx', -⟩) <;> simp [hx] at hx'

theorem not_coreTurnNext_of_resetEdge {s s' : State} {p : Option BusAccess} {rest : List HostEvent}
    (hx : s.inbox = .resetEdge p :: rest) : ¬ CoreTurnNext s s' := by
  rintro (⟨hx', -⟩ | ⟨_, hx', -⟩) <;> simp [hx] at hx'

/-! ### One lemma per value -/

section
variable {s t : State} (h : step s = .next t)
include h

/-- The offsets: kept, latched, or cleared. -/
theorem step_off_cases :
    t.off = s.off ∨ (RunsCommand .latchOffset s ∧ t.off.mode = .calibrated) ∨
      ((RunsCommand .init s ∨ ResetNext s) ∧ t.off = .cleared) := by
  rcases step_next_cases h with ⟨s', hn, hturn⟩ | ⟨a, rest, -, rfl⟩ | ⟨p, rest, hx, rfl⟩
  · have hs : s'.off = s.off := by rw [hn.eq]
    cases hturn with
    | init hf hdec => exact .inr (.inr ⟨.inl (hn.runsCommand hf hdec), rfl⟩)
    | latch hf hdec => exact .inr (.inl ⟨hn.runsCommand hf hdec, rfl⟩)
    | _ => exact .inl (by simpa using hs)
  · exact .inl (by simp)
  · exact .inr (.inr ⟨.inr ⟨p, rest, hx⟩, rfl⟩)

/-- INIT_DONE: kept, set by an INIT that completes with NONE, or cleared by a reset edge. -/
theorem step_initDone_cases :
    t.initDone = s.initDone ∨ (RunsCommand .init s ∧ t.initDone = true ∧ t.err = .none) ∨
      (ResetNext s ∧ t.initDone = false) := by
  rcases step_next_cases h with ⟨s', hn, hturn⟩ | ⟨a, rest, -, rfl⟩ | ⟨p, rest, hx, rfl⟩
  · have hs : s'.initDone = s.initDone := by rw [hn.eq]
    cases hturn with
    | init hf hdec => exact .inr (.inl ⟨hn.runsCommand hf hdec, rfl, rfl⟩)
    | _ => exact .inl (by simpa using hs)
  · exact .inl (by simp)
  · exact .inr (.inr ⟨⟨p, rest, hx⟩, rfl⟩)

/-- CAL_FAIL: kept, set by a CAL_EVAL that fails, or cleared. -/
theorem step_calFail_cases :
    t.cal.fail = s.cal.fail ∨
      (CoreTurnIn .calEval s ∧ t.cal.fail = true ∧ (t.err = .noStartPattern ∨ t.err = .frameTooLong)) ∨
      ((RunsCommand .init s ∨ ResetNext s) ∧ t.cal.fail = false) := by
  rcases step_next_cases h with ⟨s', hn, hturn⟩ | ⟨a, rest, -, rfl⟩ | ⟨p, rest, hx, rfl⟩
  · have hs : s'.cal.fail = s.cal.fail := by rw [hn.eq]
    cases hturn with
    | init hf hdec => exact .inr (.inr ⟨.inl (hn.runsCommand hf hdec), rfl⟩)
    | calFail code hf hcode => exact .inr (.inl ⟨hn.coreTurnIn hf, rfl, hcode⟩)
    | _ => exact .inl (by simpa using hs)
  · exact .inl (by simp)
  · exact .inr (.inr ⟨.inr ⟨p, rest, hx⟩, rfl⟩)

/-- The session configuration: kept, or the event is one that may change it. -/
theorem step_scfg_cases :
    (t.scfg0 = s.scfg0 ∧ t.scfg1 = s.scfg1) ∨ RunsCommand .init s ∨ ResetNext s := by
  rcases step_next_cases h with ⟨s', hn, hturn⟩ | ⟨a, rest, -, rfl⟩ | ⟨p, rest, hx, rfl⟩
  · have hs : s'.scfg0 = s.scfg0 ∧ s'.scfg1 = s.scfg1 := by rw [hn.eq]; exact ⟨rfl, rfl⟩
    cases hturn with
    | init hf hdec => exact .inr (.inl (hn.runsCommand hf hdec))
    | _ => exact .inl (by simpa using hs)
  · exact .inl (by simp)
  · exact .inr (.inr ⟨p, rest, hx⟩)

/-- The tracker: kept, updated by a step that pulses pub_valid, or cleared. -/
theorem step_trk_cases :
    t.trk = s.trk ∨ t.pubValid = true ∨ ((RunsCommand .init s ∨ ResetNext s) ∧ t.trk = .cleared) := by
  rcases step_next_cases h with ⟨s', hn, hturn⟩ | ⟨a, rest, -, rfl⟩ | ⟨p, rest, hx, rfl⟩
  · have hs : s'.trk = s.trk := by rw [hn.eq]
    cases hturn with
    | init hf hdec => exact .inr (.inr ⟨.inl (hn.runsCommand hf hdec), rfl⟩)
    | frameGood => exact .inr (.inl rfl)
    | _ => exact .inl (by simpa using hs)
  · exact .inl (by simp)
  · exact .inr (.inr ⟨.inr ⟨p, rest, hx⟩, rfl⟩)

end

/-- A core turn pulses pub_valid exactly when it ends the frame processing of a frame whose CRC matched. -/
theorem CoreTurn.pubValid_iff {s t : State} (h : CoreTurn s t) :
    t.pubValid = true ↔ s.fsm = .frameProc ∧ t.frame.crcOk = true := by
  cases h with
  | startTrial _ hwhy => rcases hwhy with ⟨hf, -⟩ | ⟨hf, -⟩ <;> simp [hf]
  | frameGood hf hok => simp [hf, hok]
  | frameBad hf hbad => simp [hf, hbad]
  | _ => simp [*]

theorem step_pubValid_iff {s t : State} (h : step s = .next t) :
    t.pubValid = true ↔ CoreTurnIn .frameProc s ∧ t.frame.crcOk = true := by
  rcases step_next_cases h with ⟨s', hn, hturn⟩ | ⟨a, rest, hx, rfl⟩ | ⟨p, rest, hx, rfl⟩
  · rw [hturn.pubValid_iff]
    exact and_congr_left fun _ => ⟨hn.coreTurnIn, fun hf => by rw [hn.eq]; exact hf.2⟩
  · have : ¬ CoreTurnIn .frameProc s := fun ⟨⟨_, hn⟩, _⟩ => not_coreTurnNext_of_access hx hn
    simp [this]
  · have : ¬ CoreTurnIn .frameProc s := fun ⟨⟨_, hn⟩, _⟩ => not_coreTurnNext_of_resetEdge hx hn
    simp [this, resetEdge, State.resetOf]

/-! ### The EXEC step of a command -/

/-- In EXEC a core turn is the decoded command's meaning (R201). -/
theorem coreTurn_exec {s : State} {i : Instr} (hf : s.fsm = .exec) (hdec : decodeWord s.curCmd = .ok i) :
    coreTurn s = exec i (beginTurn s) := by
  simp [coreTurn, execTurn, hf, hdec]

/-- In a fatal session neither CALIBRATE nor READ starts a transaction (R402). -/
theorem exec_of_sessionFatal {s : State} {i : Instr} (hi : i = .calibrate ∨ i = .read) (hinit : s.initDone = true)
    (hfail : s.cal.fail = true) : exec i s = .next (finish .sessionFatal s) := by
  rcases hi with rfl | rfl
  · simp [exec, execCalibrate, hinit, hfail, raiseError_eq]
  · simp [exec, execRead, hinit, hfail, raiseError_eq]

/-- An INIT that ends with NONE has opened a session (R206, R207). -/
theorem trk_of_init {s t : State} (h : step s = .next t) (hrun : RunsCommand .init s) (herr : t.err = .none) :
    t.trk = .cleared := by
  obtain ⟨⟨⟨s', hn⟩, hf⟩, hdec⟩ := hrun
  rw [step_of_coreTurnNext hn, coreTurn_exec (by rw [hn.eq]; exact hf) (by rw [hn.eq]; exact hdec)] at h
  simp only [exec, execInit] at h
  split at h <;> cases h
  · rfl
  · simp at herr

/-! ### The statements -/

/-- Settles O40, from the three ways a step leaves the offsets. -/
theorem modeChangesOnlyByLatchInitReset : Obligations.ModeChangesOnlyByLatchInitReset := by
  refine ⟨fun _ => rfl, statusWord_mode, fun s t h => ?_⟩
  rcases step_off_cases h with hoff | ⟨hrun, hmode⟩ | ⟨hrun, hoff⟩
  · rw [hoff]
    exact ⟨fun hold hnew => by simp [hold] at hnew, fun hold hnew => by simp [hold] at hnew⟩
  · exact ⟨fun _ _ => hrun, fun _ hnew => by simp [hmode] at hnew⟩
  · exact ⟨fun _ hnew => by simp [hoff, Offsets.cleared] at hnew, fun _ _ => hrun⟩

/-- Settles O41, from the three ways a step leaves INIT_DONE. -/
theorem initDoneChangesOnlyByInitReset : Obligations.InitDoneChangesOnlyByInitReset := by
  refine ⟨fun _ => rfl, statusWord_initDone, fun s t h => ?_⟩
  rcases step_initDone_cases h with hkept | ⟨hrun, hset, herr⟩ | ⟨hreset, hclear⟩
  · rw [hkept]
    exact ⟨fun hold hnew => by simp [hold] at hnew, fun hold hnew => by simp [hold] at hnew⟩
  · exact ⟨fun _ _ => ⟨hrun, herr⟩, fun _ hnew => by simp [hset] at hnew⟩
  · exact ⟨fun _ hnew => by simp [hclear] at hnew, fun _ _ => hreset⟩

/-- Settles O42, from the three ways a step leaves CAL_FAIL and the EXEC step of a fatal session. -/
theorem calFailLastsUntilInitOrReset : Obligations.CalFailLastsUntilInitOrReset := by
  intro s t h
  have hblocks : ∀ i, i = .calibrate ∨ i = .read → s.cal.fail = true → s.initDone = true → RunsCommand i s →
      t.err = .sessionFatal ∧ t.fsm = .idle ∧ t.chain = s.chain := by
    rintro i hi hfail hinit ⟨⟨⟨s', hn⟩, hf⟩, hdec⟩
    have e := hn.eq
    rw [step_of_coreTurnNext hn, coreTurn_exec (by rw [e]; exact hf) (by rw [e]; exact hdec),
      exec_of_sessionFatal hi (by rw [e]; exact hinit) (by rw [e]; exact hfail)] at h
    cases h
    exact ⟨rfl, rfl, by rw [e]; rfl⟩
  refine ⟨fun hold hnew => ?_, fun hold hnew => ?_, fun hfail hinit hrun => ?_⟩
  · rcases step_calFail_cases h with hkept | ⟨hrun, -, herr⟩ | ⟨-, hclear⟩
    · simp [hkept, hold] at hnew
    · exact ⟨hrun, herr⟩
    · simp [hclear] at hnew
  · rcases step_calFail_cases h with hkept | ⟨-, hset, -⟩ | ⟨hrun, -⟩
    · simp [hkept, hold] at hnew
    · simp [hset] at hnew
    · exact hrun
  · rcases hrun with hrun | hrun
    · exact hblocks _ (.inl rfl) hfail hinit hrun
    · exact hblocks _ (.inr rfl) hfail hinit hrun

/-- Settles O43, from the three ways a step leaves the offsets. -/
theorem offsetsChangeOnlyByLatchInitReset : Obligations.OffsetsChangeOnlyByLatchInitReset := by
  intro s t h hne
  rcases step_off_cases h with hkept | ⟨hrun, -⟩ | ⟨hrun, -⟩
  · exact absurd hkept hne
  · exact .inl hrun
  · exact .inr hrun

/-- Settles O44, from the three ways a step leaves the tracker and the one step that pulses pub_valid. -/
theorem trackerAndPublishPortFollowGoodFrames : Obligations.TrackerAndPublishPortFollowGoodFrames := by
  refine ⟨fun s => ⟨rfl, rfl⟩, fun s t h => ⟨fun hne => ?_, step_pubValid_iff h, fun hrun herr => ?_⟩⟩
  · rcases step_trk_cases h with hkept | hpulse | ⟨hrun, -⟩
    · simp [pubElec, pubSpeed, hkept] at hne
    · exact .inl ((step_pubValid_iff h).1 hpulse)
    · exact .inr hrun
  · simp [pubElec, pubSpeed, trk_of_init h hrun herr, Tracker.cleared]

/-- Settles O60. -/
theorem accessesAndIdleTurnsAreSteps : Obligations.AccessesAndIdleTurnsAreSteps := by
  refine ⟨fun s a rest hx => ?_, fun s s' hn hf => ?_⟩
  · simp [step, nextEvent, hx, accessTurn]
  · have hcycles : stepCycles s' = 1 := by rw [hn.eq]; simp [stepCycles, State.capturing, hf]
    rw [step_of_coreTurnNext hn, coreTurn_idle (by rw [hn.eq]; exact hf), beginTurn, hcycles, hn.eq]

end Sys2Proof.Machine
end

