-- ==== Sys2Proof/Proofs/ConfigurationEffect.lean ====
section
/-! SUPPORT. CFG0 and CFG1 are read by an INIT and by the host alone (10_state.md R67, 70_reset_and_hazards.md R462):
every other operation of the core commutes with changing what they hold. One commuting lemma per operation, in the order
of the model's definitions; a step is put together from them. -/

namespace Sys2Proof.Machine

/-- `s` with CFG0 and CFG1 holding `c0` and `c1`. -/
def withConfig (c0 c1 : Word) (s : State) : State := { s with cfg0 := c0, cfg1 := c1 }

/-- The same for the state an outcome goes on with. -/
def outcomeWithConfig (c0 c1 : Word) : StepOutcome → StepOutcome
  | .next t => .next (withConfig c0 c1 t)
  | .fault r => .fault r
  | .refused r => .refused r

section
variable (c0 c1 : Word) (s : State)

@[simp] theorem outcomeWithConfig_next : outcomeWithConfig c0 c1 (.next s) = .next (withConfig c0 c1 s) := rfl

/-! ### A running transaction and the evaluation states -/

theorem tick_withConfig : tick (withConfig c0 c1 s) = withConfig c0 c1 (tick s) := by
  simp only [tick, apply_ite (withConfig c0 c1)]
  rfl

theorem runTransaction_withConfig (after : Fsm) :
    runTransaction after (withConfig c0 c1 s) = withConfig c0 c1 (runTransaction after s) := by
  simp only [runTransaction, tick_withConfig, apply_ite (withConfig c0 c1)]
  rfl

theorem calEvalStep_withConfig : calEvalStep (withConfig c0 c1 s) = withConfig c0 c1 (calEvalStep s) := by
  have hscan : scanDelay (withConfig c0 c1 s).param.delayMax (withConfig c0 c1 s).calLen (withConfig c0 c1 s).chain =
      scanDelay s.param.delayMax s.calLen s.chain := rfl
  unfold calEvalStep
  rw [hscan]
  cases scanDelay s.param.delayMax s.calLen s.chain with
  | none => simp only [apply_ite (withConfig c0 c1)]; rfl
  | some d => simp only [apply_ite (withConfig c0 c1)]; rfl

/-- Assembly, validation and decoding read the chain, RAW and the session's own configuration. -/
theorem receiveFrame_withConfig : receiveFrame (withConfig c0 c1 s) = withConfig c0 c1 (receiveFrame s) := rfl

theorem frameProcStep_withConfig : frameProcStep (withConfig c0 c1 s) = withConfig c0 c1 (frameProcStep s) := by
  have hframe := congrArg (·.frame.crcOk) (receiveFrame_withConfig c0 c1 s)
  cases hok : (receiveFrame s).frame.crcOk with
  | false => rw [frameProcStep_bad hok, frameProcStep_bad (hframe.trans hok), receiveFrame_withConfig]; rfl
  | true => rw [frameProcStep_good hok, frameProcStep_good (hframe.trans hok), receiveFrame_withConfig]; rfl

/-! ### The commands -/

theorem exec_withConfig {i : Instr} (hi : i ≠ .init) :
    exec i (withConfig c0 c1 s) = outcomeWithConfig c0 c1 (exec i s) := by
  cases i with
  | nop => rfl
  | init => exact absurd rfl hi
  | calibrate => simp only [exec, execCalibrate, apply_ite (outcomeWithConfig c0 c1)]; rfl
  | read => simp only [exec, execRead, apply_ite (outcomeWithConfig c0 c1)]; rfl
  | latchOffset => simp only [exec, execLatchOffset, apply_ite (outcomeWithConfig c0 c1)]; rfl
  | crcCheck l rcrc => simp only [exec, execCrcCheck, apply_ite (outcomeWithConfig c0 c1)]; rfl
  | decode nw => simp only [exec, execDecode, apply_ite (outcomeWithConfig c0 c1)]; rfl

/-! ### A step -/

theorem execTurn_withConfig (hinit : decodeWord s.curCmd ≠ .ok .init) :
    execTurn (withConfig c0 c1 s) = outcomeWithConfig c0 c1 (execTurn s) := by
  have hcur : (withConfig c0 c1 s).curCmd = s.curCmd := rfl
  unfold execTurn
  rw [hcur]
  cases hdec : decodeWord s.curCmd with
  | ok i => exact exec_withConfig c0 c1 s (by rintro rfl; exact hinit hdec)
  | error e => rfl

/-- A core turn that is no INIT does not read CFG0 and CFG1 (R462). -/
theorem coreTurn_withConfig (hinit : ¬ (s.fsm = .exec ∧ decodeWord s.curCmd = .ok .init)) :
    coreTurn (withConfig c0 c1 s) = outcomeWithConfig c0 c1 (coreTurn s) := by
  have hfsm : (withConfig c0 c1 s).fsm = s.fsm := rfl
  have hbegin : beginTurn (withConfig c0 c1 s) = withConfig c0 c1 (beginTurn s) := rfl
  unfold coreTurn
  rw [hfsm, hbegin]
  cases hf : s.fsm with
  | idle => rfl
  | exec => exact execTurn_withConfig c0 c1 (beginTurn s) fun hdec => hinit ⟨hf, hdec⟩
  | calRun => exact congrArg _ (runTransaction_withConfig c0 c1 (beginTurn s) .calEval)
  | calEval => exact congrArg _ (calEvalStep_withConfig c0 c1 (beginTurn s))
  | frameRun => exact congrArg _ (runTransaction_withConfig c0 c1 (beginTurn s) .frameProc)
  | frameProc => exact congrArg _ (frameProcStep_withConfig c0 c1 (beginTurn s))

theorem CoreTurnNext.withConfig {s s' : State} (hn : CoreTurnNext s s') :
    CoreTurnNext (withConfig c0 c1 s) (withConfig c0 c1 s') := by
  obtain ⟨hx, rfl⟩ | ⟨rest, hx, rfl⟩ := hn
  · exact .inl ⟨hx, rfl⟩
  · exact .inr ⟨rest, hx, rfl⟩

/-! ### A host access -/

/-- A register write leaves CFG0 and CFG1 as written or as they were, and does not look at them. -/
theorem writeReg_withConfig (r : WinReg) (v : Word) :
    ∃ c0' c1', writeReg r v (withConfig c0 c1 s) = withConfig c0' c1' (writeReg r v s) := by
  cases r with
  | cfg0 => exact ⟨v &&& cfg0Writable, c1, rfl⟩
  | cfg1 => exact ⟨c0, v, rfl⟩
  | cmd => exact ⟨c0, c1, by simp only [writeReg, writeCmd, apply_ite (withConfig c0 c1)]; rfl⟩
  | raw i => exact ⟨c0, c1, by simp only [writeReg, apply_ite (withConfig c0 c1)]; rfl⟩
  | _ => exact ⟨c0, c1, rfl⟩

/-- A host access answers with what it reads, and with the same bus_err whatever CFG0 and CFG1 hold. -/
theorem busAccess_withConfig (a : BusAccess) :
    ∃ c0' c1' rd, busAccess a (withConfig c0 c1 s) =
      { withConfig c0' c1' (busAccess a s) with lastResp := { rdata := rd, err := (busAccess a s).lastResp.err } } := by
  unfold busAccess
  split
  · exact ⟨c0, c1, _, rfl⟩
  · split
    · obtain ⟨c0', c1', e⟩ := writeReg_withConfig c0 c1 s (regAt s.param.nsMax a.addr.toNat) a.wdata
      refine ⟨c0', c1', none, ?_⟩
      have hparam : (withConfig c0 c1 s).param = s.param := rfl
      rw [hparam, e]
      rfl
    · split <;> exact ⟨c0, c1, _, rfl⟩

end

/-- Settles O45: every core turn but an INIT commutes with changing CFG0 and CFG1. -/
theorem configurationTakesEffectOnlyAtInit : Obligations.ConfigurationTakesEffectOnlyAtInit := by
  intro s t h
  refine ⟨fun hne => ?scfg, fun c0 c1 => ⟨?turn, ?reset, ?access⟩⟩
  case scfg =>
    rcases step_scfg_cases h with ⟨h0, h1⟩ | hrun
    · simp [h0, h1] at hne
    · exact hrun
  case turn =>
    rintro ⟨s', hn⟩ hinit
    calc step (withConfig c0 c1 s) = coreTurn (withConfig c0 c1 s') := step_of_coreTurnNext (hn.withConfig c0 c1)
      _ = outcomeWithConfig c0 c1 (coreTurn s') :=
        coreTurn_withConfig c0 c1 s' fun ⟨hf, hdec⟩ => hinit (hn.runsCommand hf hdec)
      _ = .next (withConfig c0 c1 t) := by rw [← step_of_coreTurnNext hn, h, outcomeWithConfig_next]
  case reset =>
    rintro ⟨p, rest, hx⟩
    simp only [step, nextEvent, hx] at h ⊢
    exact h
  case access =>
    intro a rest hx
    simp only [step, nextEvent, hx, accessTurn] at h ⊢
    cases h
    obtain ⟨c0', c1', rd, e⟩ := busAccess_withConfig c0 c1 { s with inbox := rest, pubValid := false } a
    exact ⟨c0', c1', rd, congrArg _ e⟩

end Sys2Proof.Machine
end

