-- ==== Sys2Proof/Proofs/RegisterWindow.lean ====
section
/-! SUPPORT. Where each register stands in the window (20_memory.md R101, R103), what a write to one register leaves of
the others (R104, R107, R108), and what the bus refuses (R105, 60_exceptions.md R432). -/

namespace Sys2Proof.Machine

/-! ### The map -/

theorem regAt_cap {nsMax i : Nat} (hmax : nsMax ≤ 15) (hi : i < nsMax) : regAt nsMax (0x080 + 4 * i) = .cap i := by
  have h4 : (0x080 + 4 * i - 0x080) / 4 = i := by omega
  rw [regAt, if_neg (by omega), if_pos (by omega), h4, if_pos hi]

/-- The slots of the three arrays from NS_MAX up are unassigned (R101, R103). -/
theorem regAt_slot_unassigned {nsMax i : Nat} (hi : nsMax ≤ i) (h16 : i < 16) :
    regAt nsMax (0x080 + 4 * i) = .unassigned ∧ regAt nsMax (0x0C0 + 4 * i) = .unassigned ∧
      regAt nsMax (0x100 + 4 * i) = .unassigned := by
  refine ⟨?cap, ?raw, ?crcIn⟩
  case cap => rw [regAt, if_neg (by omega), if_pos (by omega), if_neg (by omega)]
  case raw => rw [regAt, if_neg (by omega), if_neg (by omega), if_pos (by omega), if_neg (by omega)]
  case crcIn => rw [regAt, if_neg (by omega), if_neg (by omega), if_neg (by omega), if_neg (by omega)]

/-- The gap between the scalar registers and the arrays (R101, R103). -/
theorem regAt_gap {nsMax off : Nat} (h : 0x064 ≤ off) (hlt : off < 0x080) : regAt nsMax off = .unassigned := by
  have hlen : scalarRegs.length ≤ off / 4 := by
    have : scalarRegs.length = 25 := rfl
    omega
  rw [regAt, if_pos hlt, List.getD_eq_default _ _ hlen]

/-- Above the last array the window is empty in every legal instance (R101, R103). -/
theorem regAt_top {nsMax off : Nat} (hmax : nsMax ≤ 15) (h : 0x140 ≤ off) : regAt nsMax off = .unassigned := by
  rw [regAt, if_neg (by omega), if_neg (by omega), if_neg (by omega), if_neg (by omega)]

/-- Settles O48: the scalar registers by evaluation, the arrays and the gaps by one lemma each. -/
theorem registerMapIsR101 : Obligations.RegisterMapIsR101 := by
  intro nsMax hmax
  refine ⟨rfl, rfl, rfl, rfl, rfl, rfl, rfl, rfl, rfl, rfl, rfl, rfl, rfl, rfl, rfl, rfl, rfl, rfl, rfl, rfl, rfl, rfl,
    rfl, rfl, rfl, ?arrays, ?gap, ?slots, ?top⟩
  case arrays => exact fun i hi => ⟨regAt_cap hmax hi, regAt_raw hmax hi, regAt_crcIn hi⟩
  case gap => exact fun off => regAt_gap
  case slots => exact fun i => regAt_slot_unassigned
  case top => exact fun off h _ => regAt_top hmax h

/-! ### One offset for each register -/

/-- The offset of an assigned register, as R101 lists it. -/
def offsetOf : WinReg → Nat
  | .cap i => 0x080 + 4 * i
  | .raw i => 0x0C0 + 4 * i
  | .crcIn i => 0x100 + 4 * i
  | r => 4 * scalarRegs.idxOf r

theorem offsetOf_scalarRegs : ∀ k < scalarRegs.length, offsetOf (scalarRegs.getD k .unassigned) = 4 * k := by
  decide

/-- `offsetOf` undoes the map at every aligned offset R101 assigns. -/
theorem offsetOf_regAt {nsMax off : Nat} (h4 : off % 4 = 0) (hr : regAt nsMax off ≠ .unassigned) :
    offsetOf (regAt nsMax off) = off := by
  unfold regAt at hr ⊢
  split_ifs at hr ⊢ with hscalar hcap hslot hraw hslot hslot
  · have hk : off / 4 < scalarRegs.length := by
      by_contra hk
      exact hr (List.getD_eq_default _ _ (by omega))
    rw [offsetOf_scalarRegs _ hk]
    omega
  · rw [offsetOf]; omega
  · exact absurd rfl hr
  · rw [offsetOf]; omega
  · exact absurd rfl hr
  · rw [offsetOf]; omega
  · exact absurd rfl hr

/-- Two aligned offsets show the same register only where R101 assigns none (R101, R103). -/
theorem regAt_inj {nsMax off off' : Nat} (h4 : off % 4 = 0) (h4' : off' % 4 = 0)
    (h : regAt nsMax off = regAt nsMax off') (hr : regAt nsMax off ≠ .unassigned) : off = off' :=
  calc off = offsetOf (regAt nsMax off) := (offsetOf_regAt h4 hr).symm
    _ = offsetOf (regAt nsMax off') := congrArg offsetOf h
    _ = off' := offsetOf_regAt h4' (h ▸ hr)

/-! ### What a write leaves of the other registers -/

theorem wordAt_set_ne {ws : List Word} {i j : Nat} (v : Word) (h : i ≠ j) : wordAt (ws.set i v) j = wordAt ws j := by
  simp [wordAt, List.getD_eq_getElem?_getD, h]

section
variable (s : State) {r : WinReg}

theorem readReg_cfg0 (v : Word) (h : r ≠ .cfg0) : readReg r { s with cfg0 := v } = readReg r s := by
  cases r with
  | cfg0 => exact absurd rfl h
  | _ => rfl

theorem readReg_cfg1 (v : Word) (h : r ≠ .cfg1) : readReg r { s with cfg1 := v } = readReg r s := by
  cases r with
  | cfg1 => exact absurd rfl h
  | _ => rfl

theorem readReg_irqEn (x : BitVec 4) (h : r ≠ .irqEn) : readReg r { s with irqEn := x } = readReg r s := by
  cases r with
  | irqEn => exact absurd rfl h
  | _ => rfl

theorem readReg_irqStatus (x : BitVec 4) (h : r ≠ .irqStatus) :
    readReg r { s with irqStatus := x } = readReg r s := by
  cases r with
  | irqStatus => exact absurd rfl h
  | _ => rfl

theorem readReg_raw_set {i : Nat} (v : Word) (h : r ≠ .raw i) :
    readReg r { s with raw := s.raw.set i v } = readReg r s := by
  cases r with
  | raw j => exact wordAt_set_ne v fun hij => h (hij ▸ rfl)
  | _ => rfl

theorem readReg_crcIn_set {i : Nat} (v : Word) (h : r ≠ .crcIn i) :
    readReg r { s with crcIn := s.crcIn.set i v } = readReg r s := by
  cases r with
  | crcIn j => exact wordAt_set_ne v fun hij => h (hij ▸ rfl)
  | _ => rfl

end

/-- A write to a register but CMD is not seen in any other register (R104, R108). -/
theorem readReg_writeReg_of_ne {r r' : WinReg} (v : Word) (s : State) (hcmd : r ≠ .cmd) (h : r' ≠ r) :
    readReg r' (writeReg r v s) = readReg r' s := by
  cases r with
  | cmd => exact absurd rfl hcmd
  | cfg0 => exact readReg_cfg0 s _ h
  | cfg1 => exact readReg_cfg1 s _ h
  | irqEn => exact readReg_irqEn s _ h
  | irqStatus => exact readReg_irqStatus s _ h
  | raw i =>
    rw [writeReg]
    split
    · rfl
    · exact readReg_raw_set s v h
  | crcIn i => exact readReg_crcIn_set s v h
  | _ => rfl

/-- All a register write but CMD's may change: the four writable registers and the two buffers (R103, R108). -/
theorem writeReg_frame {r : WinReg} (v : Word) (s : State) (hcmd : r ≠ .cmd) :
    writeReg r v s = { s with
      cfg0 := (writeReg r v s).cfg0, cfg1 := (writeReg r v s).cfg1, irqEn := (writeReg r v s).irqEn
      irqStatus := (writeReg r v s).irqStatus, raw := (writeReg r v s).raw, crcIn := (writeReg r v s).crcIn } := by
  cases r with
  | cmd => exact absurd rfl hcmd
  | raw i =>
    rw [writeReg]
    split <;> rfl
  | _ => rfl

/-- Settles O53: a register has one offset, and a write is seen in its own register only. -/
theorem writeLeavesOtherOffsets : Obligations.WriteLeavesOtherOffsets := by
  rintro s t off v hoff halign hcmd rfl
  have hreg : regAt s.param.nsMax off ≠ .cmd := fun h =>
    hcmd (regAt_inj (off' := 0x00C) halign rfl h (by simp [h]))
  rw [busAccess_hostWrite off v s hoff halign]
  refine ⟨fun off' _ halign' hne => ?reads, ?frame⟩
  case reads =>
    rw [readOffset, readReg_lastResp, writeReg_param, readOffset]
    by_cases hsame : regAt s.param.nsMax off' = regAt s.param.nsMax off
    · have hun : regAt s.param.nsMax off' = .unassigned := by
        by_contra hr
        exact hne (regAt_inj halign' halign hsame hr)
      rw [hun, readReg, readReg]
    · exact readReg_writeReg_of_ne v s hreg hsame
  case frame => exact congrArg (fun u : State => { u with lastResp := ⟨none, false⟩ }) (writeReg_frame v s hreg)

/-! ### What the bus refuses -/

/-- The bus refuses both strobes at once, and an access of a size or an alignment the window does not support
(R105, R432). -/
theorem refusedByBus_iff (a : BusAccess) :
    a.refusedByBus = true ↔
      (a.we = true ∧ a.re = true) ∨ ((a.we = true ∨ a.re = true) ∧ (a.size ≠ .word ∨ a.addr.toNat % 4 ≠ 0)) := by
  simp [BusAccess.refusedByBus]

/-- A refused access is answered and nothing else (R105). -/
theorem busAccess_refused {a : BusAccess} (s : State) (h : a.refusedByBus = true) :
    busAccess a s = { s with lastResp := refusedResponse a } := if_pos h

/-- Settles O50. -/
theorem unsupportedAccessIsRefused : Obligations.UnsupportedAccessIsRefused := by
  intro a s hstrobe hbad
  have hrefused : a.refusedByBus = true := by
    rw [refusedByBus_iff]
    rcases hbad with hboth | hbad
    · exact .inl hboth
    · exact .inr ⟨hstrobe, hbad⟩
  exact busAccess_refused s hrefused

end Sys2Proof.Machine
end

