-- ==== Sys2Proof/Proofs/CommandEncoding.lean ====
section
/-! SUPPORT. The command word both ways (30_encoding.md R130 to R139): the fields of an encoded command, what the
decoder accepts and rejects in terms of the fields, and the opcode table. -/

namespace Sys2Proof.Machine

/-! ### The fields of an encoded word -/

section
variable (op nw : BitVec 4) (rcrc : BitVec 6) (bitLen : BitVec 16)

@[simp] theorem opField_enc : opField (enc op nw rcrc bitLen) = op := by
  simp (disch := decide) only [opField, enc, BitVec.extractLsb'_append_eq_of_add_le]
  simp

@[simp] theorem nwField_enc : nwField (enc op nw rcrc bitLen) = nw := by
  simp (disch := decide) only [nwField, enc, BitVec.extractLsb'_append_eq_of_le,
    BitVec.extractLsb'_append_eq_of_add_le]
  simp

@[simp] theorem rcrcField_enc : rcrcField (enc op nw rcrc bitLen) = rcrc := by
  simp (disch := decide) only [rcrcField, enc, BitVec.extractLsb'_append_eq_of_le,
    BitVec.extractLsb'_append_eq_of_add_le]
  simp

@[simp] theorem rsvField_enc : rsvField (enc op nw rcrc bitLen) = 0 := by
  simp (disch := decide) only [rsvField, enc, BitVec.extractLsb'_append_eq_of_le,
    BitVec.extractLsb'_append_eq_of_add_le]
  simp

@[simp] theorem bitLenField_enc : bitLenField (enc op nw rcrc bitLen) = bitLen := by
  simp (disch := decide) only [bitLenField, enc, BitVec.extractLsb'_append_eq_of_le]
  simp

end

/-- The opcode and the operands of a well-formed command are in its word (R130, R131). -/
theorem byOpcode_encode {i : Instr} (h : i.WellFormed) : byOpcode (encode i) = some i := by
  cases i with
  | crcCheck bitLen rcrc => simpa [byOpcode, encode] using h
  | decode nw => simpa [byOpcode, encode] using h
  | _ => simp [byOpcode, encode]

theorem rsvField_encode (i : Instr) : rsvField (encode i) = 0 := by
  cases i <;> exact rsvField_enc _ _ _ _

theorem unusedFieldsZero_encode (i : Instr) : unusedFieldsZero i (encode i) = true := by
  cases i <;> simp [unusedFieldsZero, encode]

/-! ### Acceptance -/

/-- The decoder accepts a word as a command exactly when its fields say so (R138). -/
theorem decodeWord_eq_ok_iff {w : Word} {i : Instr} :
    decodeWord w = .ok i ↔ byOpcode w = some i ∧ rsvField w = 0 ∧ unusedFieldsZero i w = true := by
  refine ⟨decodeWord_eq_ok, fun ⟨hop, hrsv, hzero⟩ => ?_⟩
  rw [decodeWord, hop]
  simp [hrsv, hzero]

/-- Settles O1: the three checks of the decoder, one lemma each. -/
theorem decodeOfEncodeIsIdentity : Obligations.DecodeOfEncodeIsIdentity := fun i h =>
  decodeWord_eq_ok_iff.2 ⟨byOpcode_encode h, rsvField_encode i, unusedFieldsZero_encode i⟩

/-- An operand read from its field fits it (R139). -/
theorem wellFormed_of_byOpcode {w : Word} {i : Instr} (h : byOpcode w = some i) : i.WellFormed := by
  unfold byOpcode at h
  split at h <;> cases h
  case h_6 => exact (bitLenField w).isLt
  case h_7 => exact (nwField w).isLt
  all_goals trivial

/-- Settles O2. -/
theorem encodeOfDecodeIsIdentity : Obligations.EncodeOfDecodeIsIdentity := by
  intro w i h
  obtain ⟨hop, -⟩ := decodeWord_eq_ok h
  exact ⟨wellFormed_of_byOpcode hop, encode_of_decodeWord h⟩

/-- Settles O5: the decodings are round trips of the encodings. -/
theorem workedEncodingsDecode : Obligations.WorkedEncodingsDecode := by
  have henc : encode (.crcCheck 30 0x3D) = 0x001E3D05 ∧ encode (.crcCheck 0 0x15) = 0x00001505 ∧
      encode (.decode 2) = 0x00000026 := by decide
  obtain ⟨h30, h0, h2⟩ := henc
  have hdec {i : Instr} {w : Word} (hw : encode i = w) (hi : i.WellFormed) : decodeWord w = .ok i :=
    hw ▸ decodeOfEncodeIsIdentity i hi
  exact ⟨rfl, rfl, rfl, rfl, rfl, h30, h0, h2, hdec rfl trivial, hdec rfl trivial, hdec rfl trivial, hdec rfl trivial,
    hdec rfl trivial, hdec h30 (by decide), hdec h0 (by decide), hdec h2 (by decide), by decide, by decide, by decide⟩

/-! ### Rejection -/

/-- The decoder rejects a word whose opcode stands for no command, and one of a command's opcode with a bit set that
must be 0 (R132, R136, R137). -/
theorem decodeWord_rejects_iff (w : Word) :
    (∃ e, decodeWord w = .error e) ↔
      byOpcode w = none ∨ rsvField w ≠ 0 ∨ ∃ i, byOpcode w = some i ∧ unusedFieldsZero i w = false := by
  unfold decodeWord
  cases hop : byOpcode w with
  | none => simp
  | some i =>
    by_cases hrsv : rsvField w = 0#2
    · cases hzero : unusedFieldsZero i w <;> simp [hrsv, hzero]
    · simp [hrsv]

/-- The illegal fields, in the words of the decoder: the opcode says which fields must be 0 (R131, R136). -/
theorem illegalFields_iff (w : Word) :
    IllegalFields w ↔
      byOpcode w = none ∨ rsvField w ≠ 0 ∨ ∃ i, byOpcode w = some i ∧ unusedFieldsZero i w = false := by
  change 7 ≤ (opField w).toNat ∨ rsvField w ≠ 0 ∨
    ((opField w).toNat ≤ 4 ∧ (nwField w ≠ 0 ∨ rcrcField w ≠ 0 ∨ bitLenField w ≠ 0)) ∨
    ((opField w).toNat = 5 ∧ nwField w ≠ 0) ∨
    ((opField w).toNat = 6 ∧ (rcrcField w ≠ 0 ∨ bitLenField w ≠ 0)) ↔ _
  unfold byOpcode
  split
  case h_8 =>
    simp only [imp_false] at *
    have hreserved : 7 ≤ (opField w).toNat := by omega
    simp [hreserved]
  all_goals
    rename_i hop
    simp [hop, unusedFieldsZero, imp_iff_not_or, or_assoc]

/-- Settles O3. -/
theorem decoderRejectsExactlyIllegalFields : Obligations.DecoderRejectsExactlyIllegalFields := fun w =>
  (decodeWord_rejects_iff w).trans (illegalFields_iff w).symm

/-! ### The opcode table -/

theorem row_mem_opcodeTable (i : Instr) : i.row ∈ opcodeTable := by
  cases i <;> simp [Instr.row, opcodeTable]

/-- The word of a command lies in its row of the opcode table. -/
theorem encode_and_mask (i : Instr) : encode i &&& i.row.mask = i.row.bits :=
  match i with
  | .nop => Laws.EncodedRow.nop
  | .init => Laws.EncodedRow.init
  | .calibrate => Laws.EncodedRow.calibrate
  | .read => Laws.EncodedRow.read
  | .latchOffset => Laws.EncodedRow.latchOffset
  | .crcCheck bitLen rcrc => Laws.EncodedRow.crcCheck bitLen rcrc
  | .decode nw => Laws.EncodedRow.decode nw

/-- A word under a mask, field by field (R130). -/
theorem and_fields (w mask : Word) :
    opField (w &&& mask) = opField w &&& opField mask ∧ nwField (w &&& mask) = nwField w &&& nwField mask ∧
      rcrcField (w &&& mask) = rcrcField w &&& rcrcField mask ∧
      rsvField (w &&& mask) = rsvField w &&& rsvField mask ∧
      bitLenField (w &&& mask) = bitLenField w &&& bitLenField mask := by
  simp only [opField, nwField, rcrcField, rsvField, bitLenField, BitVec.extractLsb'_and, and_self]

/-- A word of the CRC_CHECK row has its opcode and 0 in NW and RSV (R305). -/
theorem fields_of_crcCheck_row {w : Word} (h : w &&& 0x0000C0FF = 0x00000005) :
    opField w = 5 ∧ nwField w = 0 ∧ rsvField w = 0 := by
  obtain ⟨hop, hnw, -, hrsv, -⟩ := and_fields w 0x0000C0FF
  rw [h] at hop hnw hrsv
  exact ⟨BitVec.and_allOnes.symm.trans hop.symm, BitVec.and_allOnes.symm.trans hnw.symm,
    BitVec.and_allOnes.symm.trans hrsv.symm⟩

/-- A word of the DECODE row has its opcode and 0 in RCRC, RSV and BITLEN (R325). -/
theorem fields_of_decode_row {w : Word} (h : w &&& 0xFFFFFF0F = 0x00000006) :
    opField w = 6 ∧ rcrcField w = 0 ∧ rsvField w = 0 ∧ bitLenField w = 0 := by
  obtain ⟨hop, -, hrcrc, hrsv, hlen⟩ := and_fields w 0xFFFFFF0F
  rw [h] at hop hrcrc hrsv hlen
  refine ⟨BitVec.and_allOnes.symm.trans hop.symm, BitVec.and_allOnes.symm.trans hrcrc.symm,
    BitVec.and_allOnes.symm.trans hrsv.symm, BitVec.and_allOnes.symm.trans hlen.symm⟩

/-- A row whose mask covers the whole word holds one word only. -/
theorem eq_of_and_full_mask {w bits : Word} (h : w &&& 0xFFFFFFFF = bits) : w = bits :=
  BitVec.and_allOnes.symm.trans h

/-- Every word of a row decodes to a command of the row (R131, R136). -/
theorem decodeWord_of_row {w : Word} {row : OpcodeRow} (hrow : row ∈ opcodeTable) (h : w &&& row.mask = row.bits) :
    ∃ i, decodeWord w = .ok i ∧ i.row = row := by
  simp only [opcodeTable, List.mem_cons, List.not_mem_nil, or_false] at hrow
  rcases hrow with rfl | rfl | rfl | rfl | rfl | rfl | rfl <;> dsimp only at h
  · exact ⟨.nop, eq_of_and_full_mask h ▸ by decide, rfl⟩
  · exact ⟨.init, eq_of_and_full_mask h ▸ by decide, rfl⟩
  · exact ⟨.calibrate, eq_of_and_full_mask h ▸ by decide, rfl⟩
  · exact ⟨.read, eq_of_and_full_mask h ▸ by decide, rfl⟩
  · exact ⟨.latchOffset, eq_of_and_full_mask h ▸ by decide, rfl⟩
  · obtain ⟨hop, hnw, hrsv⟩ := fields_of_crcCheck_row h
    have hcmd : byOpcode w = some (.crcCheck (bitLenField w).toNat (rcrcField w)) := by simp [byOpcode, hop]
    exact ⟨_, decodeWord_eq_ok_iff.2 ⟨hcmd, hrsv, by simp [unusedFieldsZero, hnw]⟩, rfl⟩
  · obtain ⟨hop, hrcrc, hrsv, hlen⟩ := fields_of_decode_row h
    have hcmd : byOpcode w = some (.decode (nwField w).toNat) := by simp [byOpcode, hop]
    exact ⟨_, decodeWord_eq_ok_iff.2 ⟨hcmd, hrsv, by simp [unusedFieldsZero, hrcrc, hlen]⟩, rfl⟩

/-- Settles O4: an accepted word is its command's own, and that word lies in the command's row. -/
theorem decoderAcceptsExactlyTheOpcodeTable : Obligations.DecoderAcceptsExactlyTheOpcodeTable := fun _ =>
  ⟨fun i h => ⟨row_mem_opcodeTable i, encode_of_decodeWord h ▸ encode_and_mask i⟩, fun _ => decodeWord_of_row⟩

/-! ### An illegal word -/

/-- In EXEC a core turn on a word the decoder rejects is the error completion with ILLEGAL_CMD (R137, R211). -/
theorem coreTurn_illegal {s : State} (hf : s.fsm = .exec) (h : IllegalFields s.curCmd) :
    coreTurn s = .next (finish .illegalCmd (beginTurn s)) := by
  obtain ⟨e, hdec⟩ := (decoderRejectsExactlyIllegalFields s.curCmd).2 h
  simp [coreTurn, execTurn, hf, hdec, illegalWord, raiseError_eq]

/-- Settles O9: an accepted CMD write, then the core turn on an illegal word. -/
theorem illegalWordCompletesWithoutEffect : Obligations.IllegalWordCompletesWithoutEffect := by
  intro s w rest hidle hill hx
  have haccess := accessesAndIdleTurnsAreSteps.1 s _ _ hx
  rw [busAccess_cmd_idle (s := { s with inbox := _, pubValid := false }) w hidle] at haccess
  have hturn := coreTurn_illegal (s := { acceptCmd w s with
    lastResp := { rdata := none, err := false }, pubValid := false, inbox := rest }) rfl hill
  refine ⟨_, _, haccess, rfl, rfl, (step_of_coreTurnNext (.inr ⟨rest, rfl, rfl⟩)).trans hturn, ?_⟩
  rw [hidle]
  rfl

end Sys2Proof.Machine
end

