-- ==== Sys2Proof/Proofs/FrameFields.lean ====
section
/-! SUPPORT. From the chain to the fields of a frame: the frame word (30_encoding.md R143 to R145), assembly
(43_receive.md R263, R264), the fields and the verdict (44_crc.md R295, 45_decode.md R321), the tracker registers
(46_tracker.md R351 to R357), and everything FRAME_PROC does. -/

namespace Sys2Proof.Machine

/-! ### The frame word -/

theorem frameWord_lt (nw : Nat) (raw : List Word) : frameWord nw raw < 2 ^ (32 * nw) := by
  induction nw with
  | zero => simp [frameWord]
  | succ n ih =>
    have hw := (wordAt raw n).isLt
    rw [frameWord_succ, Nat.mul_succ, Nat.pow_add]
    nlinarith

/-- Bit j of F is bit j mod 32 of the RAW word j div 32 from the last (R145). -/
theorem testBit_frameWord {nw j : Nat} (raw : List Word) (h : j < 32 * nw) :
    (frameWord nw raw).testBit j = (wordAt raw (nw - 1 - j / 32)).getLsbD (j % 32) := by
  induction nw generalizing j with
  | zero => omega
  | succ n ih =>
    rw [frameWord_succ, Nat.mul_comm, Nat.testBit_two_pow_mul_add _ (wordAt raw n).isLt]
    split
    · next hj =>
      have hdiv : n + 1 - 1 - j / 32 = n := by omega
      rw [hdiv, Nat.mod_eq_of_lt hj]
      rfl
    · next hj =>
      have hdiv : n - 1 - (j - 32) / 32 = n + 1 - 1 - j / 32 := by omega
      have hmod : (j - 32) % 32 = j % 32 := by omega
      rw [ih (by omega), hdiv, hmod]

/-- Settles O25. -/
theorem frameWordIsRawMsbFirst : Obligations.FrameWordIsRawMsbFirst := fun nw raw =>
  ⟨frameWord_lt nw raw, fun _ => testBit_frameWord raw⟩

/-- What assembly writes to each RAW register (R263). -/
theorem wordAt_assemble {s : State} {i : Nat} (h : i < s.param.nsMax) :
    wordAt (assemble s).raw i =
      if i < s.cal.nsa.toNat then wordAt s.chain (s.cal.nsa.toNat - 1 - i) else 0 := by
  simp [wordAt, List.getD_eq_getElem?_getD, h]

/-- The frame word assembly makes is the low end of the chain (R263, R264). -/
theorem testBit_frameWord_assemble {s : State} {j : Nat} (hns : s.cal.nsa.toNat ≤ s.param.nsMax)
    (h : j < 32 * s.cal.nsa.toNat) :
    (frameWord s.cal.nsa.toNat (assemble s).raw).testBit j = chainBit s.chain j := by
  have hlast : s.cal.nsa.toNat - 1 - (s.cal.nsa.toNat - 1 - j / 32) = j / 32 := by omega
  rw [testBit_frameWord _ h, wordAt_assemble (by omega), if_pos (by omega), hlast, chainBit]

/-! ### The fields -/

section
variable {k y : Nat} (x : Nat)

theorem pack_shiftRight (h : y < 2 ^ k) : (x * 2 ^ k + y) >>> k = x := by
  rw [Nat.shiftRight_eq_div_pow, Nat.mul_comm, Nat.mul_add_div (by positivity), Nat.div_eq_of_lt h, Nat.add_zero]

theorem mask_pack (h : y < 2 ^ k) : mask k (x * 2 ^ k + y) = y := by
  rw [mask, Nat.mul_comm, Nat.mul_add_mod, Nat.mod_eq_of_lt h]

end

theorem pack_bit (x : Nat) (b : Bool) : (x * 2 + b.toNat) >>> 1 = x ∧ (x * 2 + b.toNat).testBit 0 = b := by
  cases b <;> simp [Nat.shiftRight_eq_div_pow]; omega

/-- Settles O28: each shift of the extractor drops the field taken last. -/
theorem decoderRecoversPackedFields : Obligations.DecoderRecoversPackedFields := by
  intro s above mt st crc e w _ _ hmt hst hcrc f
  obtain ⟨hwarn, hw⟩ := pack_bit (((above * 2 ^ s.mtWidth + mt) * 2 ^ s.stWidth + st) * 2 + e.toNat) w
  obtain ⟨herr, he⟩ := pack_bit ((above * 2 ^ s.mtWidth + mt) * 2 ^ s.stWidth + st) e
  have hcheck : f >>> 6 = _ := pack_shiftRight _ hcrc
  simp only [decodeFrame_frame, hcheck, hwarn, hw, herr, he, pack_shiftRight _ hst, mask_pack _ hst,
    mask_pack _ hmt, zext32, and_self]

theorem getLsbD_zext32_mask (w v : Nat) {i : Nat} (h : i < 32) :
    (zext32 (mask w v)).getLsbD i = (decide (i < w) && v.testBit i) := by
  rw [zext32, mask, BitVec.getLsbD_ofNat, Nat.testBit_mod_two_pow]
  simp [h]

/-- Validation and decoding leave the fields, the check values and the verdict of the frame word (R295, R321). -/
theorem holdsFrame_decodeFrame (f : Nat) (s : State) :
    HoldsFrame s.mtWidth s.stWidth f (decodeFrame f (validateFrame f s)).frame := by
  refine ⟨rfl, ?warn, ?err, ?st, ?mt, ?rcv, rfl, rfl⟩
  case warn => simp [Nat.testBit_shiftRight]
  case err => simp [Nat.testBit_shiftRight]
  case st =>
    intro i hi
    have hplace : 8 + i = 6 + (1 + (1 + i)) := by omega
    rw [decodeFrame_frame, getLsbD_zext32_mask _ _ hi, hplace]
    simp only [Nat.testBit_shiftRight]
    rfl
  case mt =>
    intro i hi
    have hplace : s.stWidth + 8 + i = 6 + (1 + (1 + (s.stWidth + i))) := by omega
    rw [decodeFrame_frame, getLsbD_zext32_mask _ _ hi, hplace]
    simp only [Nat.testBit_shiftRight]
    rfl
  case rcv =>
    intro i hi
    rw [decodeFrame_frame, validateFrame_frame, BitVec.getLsbD_ofNat]
    simp [hi]

/-! ### The tracker -/

theorem wrapSub_eq_emod (w a b : Nat) : (wrapSub w a b : Int) = ((a : Int) - b) % (2 ^ w : Nat) :=
  Int.toNat_of_nonneg (Int.emod_nonneg _ (by positivity))

/-- An update leaves the tracker registers of R351 to R357. -/
theorem tracksFrame_trackerUpdate (s : State) : TracksFrame s s.frame.mt s.frame.st (trackerUpdate s).trk := by
  refine ⟨rfl, rfl, ?_, rfl, rfl, rfl, rfl⟩
  rw [← wrapSub_eq_emod]
  rfl

/-! ### FRAME_PROC -/

theorem trackerUpdate_eq (s : State) :
    trackerUpdate s = { s with trk := (trackerUpdate s).trk, pubValid := true } := rfl

/-- Everything FRAME_PROC does: RAW, the held frame, and by its verdict the tracker or the failure count, with the
completion (R260, R266). -/
theorem frameProcStep_eq (s : State) :
    frameProcStep s = { s with
      raw := (assemble s).raw
      frame := (receiveFrame s).frame
      trk := if (receiveFrame s).frame.crcOk then (trackerUpdate (receiveFrame s)).trk else s.trk
      crcErrCnt := if (receiveFrame s).frame.crcOk then s.crcErrCnt else s.crcErrCnt + 1
      err := .none
      irqStatus := s.irqStatus ||| (if (receiveFrame s).frame.crcOk then 0b0001 else 0b0101)
      fsm := .idle
      pubValid := (receiveFrame s).frame.crcOk || s.pubValid } := by
  cases hok : (receiveFrame s).frame.crcOk with
  | true =>
    rw [frameProcStep_good hok, trackerUpdate_eq]
    simp only [if_true, Bool.true_or]
    rfl
  | false =>
    have hirq : s.irqStatus ||| irqCrcFail ||| irqOfCompletion .none = s.irqStatus ||| 0b0101 :=
      BitVec.or_assoc _ _ _
    rw [frameProcStep_bad hok, countCrcFailure, finish]
    simp only [receiveFrame_irqStatus, hirq, reduceCtorEq, if_false, Bool.false_or]
    rfl

end Sys2Proof.Machine
end

