-- ==== Sys2Proof/Proofs/ReadRun.lean ====
section
/-! SUPPORT. A whole transaction (40_sequencer.md R174 to R179) and a whole READ (43_receive.md R260 to R268) as runs of
the machine, and the places of the wire format (30_encoding.md R140) in the capture. -/

namespace Sys2Proof.Machine

/-! ### The chain after many samples -/

/-- The chain after the samples of a transaction, first first (R174). -/
def shiftAll (samples : List Bool) (ws : List Word) : List Word :=
  samples.foldl (fun ws b => shiftIn b ws) ws

@[simp] theorem shiftAll_nil (ws : List Word) : shiftAll [] ws = ws := rfl

@[simp] theorem shiftAll_cons (b : Bool) (bits : List Bool) (ws : List Word) :
    shiftAll (b :: bits) ws = shiftAll bits (shiftIn b ws) := rfl

@[simp] theorem shiftAll_length (samples : List Bool) (ws : List Word) :
    (shiftAll samples ws).length = ws.length := by
  induction samples generalizing ws with
  | nil => rfl
  | cons b bits ih => rw [shiftAll_cons, ih, shiftIn_length]

/-- The samples stand at the low end, the last at bit 0, and what was there before stands above them (R174). -/
theorem chainBit_shiftAll (samples : List Bool) (ws : List Word) {j : Nat} (h : j < 32 * ws.length) :
    chainBit (shiftAll samples ws) j =
      if j < samples.length then samples.getD (samples.length - 1 - j) false
      else chainBit ws (j - samples.length) := by
  induction samples generalizing ws with
  | nil => simp
  | cons b bits ih =>
    rw [shiftAll_cons, ih _ (by simpa using h), List.length_cons]
    rcases Nat.lt_trichotomy j bits.length with hlt | rfl | hgt
    · have hplace : bits.length + 1 - 1 - j = bits.length - 1 - j + 1 := by omega
      rw [if_pos hlt, if_pos (by omega), hplace, List.getD_cons_succ]
    · simp [chainBit_shiftIn_zero b ws (by omega)]
    · have hplace : j - bits.length = j - (bits.length + 1) + 1 := by omega
      rw [if_neg (by omega), if_neg (by omega), hplace, chainBit_shiftIn_succ b ws _ (by omega)]

/-- From a clear chain, sample k of T stands at bit T-1-k and 0 above (R177). -/
theorem chainBit_shiftAll_clear {samples : List Bool} {ns : Nat} (hfit : samples.length ≤ 32 * ns) (j : Nat) :
    chainBit (shiftAll samples (List.replicate ns 0)) j =
      (decide (j < samples.length) && samples.getD (samples.length - 1 - j) false) := by
  by_cases hj : j < 32 * ns
  · rw [chainBit_shiftAll _ _ (by simpa using hj), chainBit_replicate]
    by_cases hlt : j < samples.length <;> simp [hlt]
  · rw [chainBit_of_le _ _ (by simpa using hj)]
    simp; omega

/-! ### A running transaction -/

/-- A transaction's FSM state, and the one that judges its capture (R230, R260). -/
def HandsOver (run judge : Fsm) : Prop :=
  run = .calRun ∧ judge = .calEval ∨ run = .frameRun ∧ judge = .frameProc

theorem coreTurn_handsOver {s : State} {judge : Fsm} (h : HandsOver s.fsm judge) :
    coreTurn s = .next (runTransaction judge (beginTurn s)) ∧ stepCycles s = tickCycles s.baudDiv := by
  rcases h with ⟨hf, rfl⟩ | ⟨hf, rfl⟩ <;>
    simp [coreTurn, hf, calRunStep, frameRunStep, stepCycles, State.capturing]

/-- With no event pending, one step of a transaction takes the next sample (R171, R174, R176). -/
theorem step_transaction {s : State} {judge : Fsm} {b : Bool} {bits : List Bool} (hx : s.inbox = [])
    (hf : HandsOver s.fsm judge) (hk : s.seq.k < s.seq.t) (he : s.encBits = b :: bits) :
    step s = .next { s with
      chain := shiftIn b s.chain
      seq := { s.seq with k := s.seq.k + 1 }
      encBits := bits
      ma := true
      fsm := if s.seq.k + 1 = s.seq.t then judge else s.fsm
      clk := s.clk + tickCycles s.baudDiv
      pubValid := false } := by
  obtain ⟨hturn, hcycles⟩ := coreTurn_handsOver hf
  have hsample : sample (beginTurn s) = b := by simp [sample, he]
  rw [step_of_coreTurnNext (.inl ⟨hx, rfl⟩), hturn, runTransaction_running judge (s := beginTurn s) hk, hsample]
  simp only [he, List.tail_cons, beginTurn, hcycles]

/-- A transaction with its samples still to come, run to its end (R176, R177, R179). -/
theorem run_transaction {s : State} {judge : Fsm} {samples rest : List Bool} (hx : s.inbox = [])
    (hf : HandsOver s.fsm judge) (hne : samples ≠ []) (he : s.encBits = samples ++ rest)
    (hk : s.seq.k.toNat + samples.length = s.seq.t.toNat) :
    core.run samples.length s = .next { s with
      chain := shiftAll samples s.chain
      seq := { s.seq with k := s.seq.t }
      encBits := rest
      ma := true
      fsm := judge
      clk := s.clk + samples.length * tickCycles s.baudDiv
      pubValid := false } := by
  induction samples generalizing s with
  | nil => exact absurd rfl hne
  | cons b bits ih =>
    rw [List.length_cons] at hk ⊢
    have hlt : s.seq.k < s.seq.t := by rw [BitVec.lt_def]; omega
    have hsucc := toNat_succ_of_lt hlt
    have hstep := step_transaction (bits := bits ++ rest) hx hf hlt he
    by_cases hlast : bits = []
    · subst hlast
      have hdone : s.seq.k + 1 = s.seq.t := BitVec.eq_of_toNat_eq (hsucc.trans hk)
      rw [hdone, if_pos rfl] at hstep
      rw [run_succ _ hstep]
      simp [Host.Core.run]
    · have hpos := List.length_pos_iff.2 hlast
      have hmore : s.seq.k + 1 ≠ s.seq.t := fun e => by rw [← e, hsucc] at hk; omega
      have hclk : s.clk + tickCycles s.baudDiv + bits.length * tickCycles s.baudDiv =
          s.clk + (bits.length + 1) * tickCycles s.baudDiv := by ring
      rw [if_neg hmore] at hstep
      rw [run_succ _ hstep, ← hclk]
      exact ih hx hf hlast rfl (by dsimp only; omega)

/-- CAP shows the samples the chain holds, in either order (R68, R178). -/
theorem capShows_of_chain {samples : List Bool} {s : State} (hns : s.param.nsMax ≤ 15) (hcap : s.capturing = false)
    (hnt : s.seq.nt.toNat = (samples.length + 31) / 32)
    (hchain : ∀ j, chainBit s.chain j =
      (decide (j < samples.length) && samples.getD (samples.length - 1 - j) false)) : CapShows samples s := by
  intro i hi b hb word
  have hview : capView s.param s.seq.nt.toNat s.chain i = wordAt s.chain word := by
    dsimp only [word, capView]
    rw [hnt]
    cases s.param.chainOrder with
    | highFirst => rfl
    | lowFirst => exact (apply_ite (wordAt s.chain) _ _ _).symm
  have hread : readOffset (0x080 + 4 * i) s = wordAt s.chain word := by
    rw [readOffset, regAt_cap hns hi, readReg, hcap, if_neg Bool.false_ne_true, hview]
  have hdiv : (32 * word + b) / 32 = word := by omega
  have hmod : (32 * word + b) % 32 = b := by omega
  rw [hread, ← hchain, chainBit, hdiv, hmod]

/-! ### The wire format -/

/-- The fields of a frame word whose bits are the samples of a transaction, the last at bit 0, are the samples at their
places of the wire format, after `d` padding bits (R140, R177). -/
theorem wireFormat_of_holdsFrame {samples : List Bool} {d n m f : Nat} {fr : HeldFrame}
    (hlen : samples.length = d + n + m + 11)
    (hbits : ∀ j < samples.length, f.testBit j = samples.getD (samples.length - 1 - j) false)
    (h : HoldsFrame n m f fr) :
    (∀ i < 32, fr.mt.getLsbD i = (decide (i < n) && samples.getD (d + n + 2 - i) false)) ∧
      (∀ i < 32, fr.st.getLsbD i = (decide (i < m) && samples.getD (d + n + m + 2 - i) false)) ∧
      fr.errBit = samples.getD (d + n + m + 3) false ∧ fr.warnBit = samples.getD (d + n + m + 4) false ∧
      (∀ i < 6, fr.rcvCrc.getLsbD i = samples.getD (d + n + m + 10 - i) false) ∧
      fr.calcCrc = crc6Reg ((samples.drop (d + 3)).take (n + m + 2)) ^^^ 0x3F := by
  obtain ⟨-, hwarn, herr, hst, hmt, hrcv, hcalc, -⟩ := h
  have hplace {j k : Nat} (hjk : j + k = d + n + m + 10) : f.testBit j = samples.getD k false := by
    have hk : samples.length - 1 - j = k := by omega
    rw [hbits j (by omega), hk]
  have hpayload : (List.range (n + m + 2)).map (fun t => f.testBit (n + m + 7 - t)) =
      (samples.drop (d + 3)).take (n + m + 2) := by
    refine List.ext_getElem (by simp; omega) fun t ht ht' => ?_
    simp only [List.length_map, List.length_range] at ht
    have hin : d + 3 + t < samples.length := by omega
    simp [hplace (j := n + m + 7 - t) (k := d + 3 + t) (by omega), hin]
  refine ⟨fun i hi => ?mt, fun i hi => ?st, ?err, ?warn, fun i hi => ?rcv, ?computed⟩
  case mt =>
    rw [hmt i hi]
    by_cases hin : i < n
    · exact congrArg (decide (i < n) && ·) (hplace (by omega))
    · simp [hin]
  case st =>
    rw [hst i hi]
    by_cases hin : i < m
    · exact congrArg (decide (i < m) && ·) (hplace (by omega))
    · simp [hin]
  case err => exact herr.trans (hplace (by omega))
  case warn => exact hwarn.trans (hplace (by omega))
  case rcv => exact (hrcv i hi).trans (hplace (by omega))
  case computed => rw [hcalc, hpayload]; exact BitVec.xor_allOnes.symm

/-! ### READ -/

/-- A READ about to process the frame it captured from `samples`, with ENC's samples `rest` to come (R260). -/
def readCapture (s : State) (samples rest : List Bool) : State :=
  { s with
    chain := shiftAll samples (List.replicate s.param.nsMax 0)
    seq := { t := s.cal.flen, k := s.cal.flen, nt := BitVec.ofNat 4 (ceilDiv s.cal.flen.toNat 32),
             trial := s.seq.trial }
    encBits := rest
    ma := true
    fsm := .frameProc
    clk := s.clk + 1 + samples.length * tickCycles s.baudDiv
    pubValid := false }

section
variable {s : State} {samples rest : List Bool} (hx : s.inbox = []) (hf : s.fsm = .exec)
  (hcmd : s.curCmd = encode .read) (hinit : s.initDone = true) (hfail : s.cal.fail = false)
  (hdone : s.cal.done = true)
include hx hf hcmd hinit hfail hdone

/-- READ in a calibrated session starts its transaction (R260). -/
theorem step_read :
    step s = .next { startTransaction s.cal.flen { s with clk := s.clk + 1, pubValid := false } with
      fsm := .frameRun } := by
  have hdec : decodeWord s.curCmd = .ok .read := hcmd ▸ decodeOfEncodeIsIdentity .read trivial
  have hcycles : stepCycles s = 1 := by simp [stepCycles, State.capturing, hf]
  rw [step_of_coreTurnNext (.inl ⟨hx, rfl⟩), coreTurn_exec hf hdec, beginTurn, hcycles]
  simp [exec, execRead, hinit, hfail, hdone]

variable (he : s.encBits = samples ++ rest) (hlen : samples.length = s.cal.flen.toNat) (hne : samples ≠ [])
include he hlen hne

theorem run_readCapture : core.run (samples.length + 1) s = .next (readCapture s samples rest) := by
  rw [run_succ _ (step_read hx hf hcmd hinit hfail hdone)]
  exact run_transaction hx (.inr ⟨rfl, rfl⟩) hne he (by simpa using hlen)

/-- READ runs its transaction and processes the captured frame (R260). -/
theorem run_read :
    core.run (s.cal.flen.toNat + 2) s = .next (frameProcStep (beginTurn (readCapture s samples rest))) := by
  have hcapture := run_readCapture hx hf hcmd hinit hfail hdone he hlen hne
  have hproc : step (readCapture s samples rest) = .next (frameProcStep (beginTurn (readCapture s samples rest))) :=
    step_of_coreTurnNext (s := readCapture s samples rest) (.inl ⟨hx, rfl⟩)
  rw [← hlen]
  exact (run_add (samples.length + 1) 1 hcapture).trans (run_succ 0 hproc)

end

/-- The clk cycles of a whole READ (R470). -/
theorem beginTurn_readCapture_clk (s : State) {samples : List Bool} (rest : List Bool)
    (hlen : samples.length = s.cal.flen.toNat) :
    (beginTurn (readCapture s samples rest)).clk =
      s.clk + (1 + 2 * (s.baudDiv + 1) * s.cal.flen.toNat + 1) := by
  rw [← hlen]
  calc (beginTurn (readCapture s samples rest)).clk
    _ = s.clk + 1 + samples.length * (2 * (s.baudDiv + 1)) + 1 := rfl
    _ = s.clk + (1 + 2 * (s.baudDiv + 1) * samples.length + 1) := by ring

/-- The bits of the frame word of a READ are its samples, the last at bit 0 (R177, R264). -/
theorem testBit_frameWord_readCapture {s : State} {samples : List Bool} (rest : List Bool)
    (hns : s.cal.nsa.toNat ≤ s.param.nsMax) (hnsa : s.cal.nsa.toNat = ceilDiv samples.length 32) {j : Nat}
    (hj : j < samples.length) :
    (frameWord s.cal.nsa.toNat (assemble (readCapture s samples rest)).raw).testBit j =
      samples.getD (samples.length - 1 - j) false := by
  have hfit : samples.length ≤ 32 * s.cal.nsa.toNat := by rw [hnsa, ceilDiv]; omega
  have hassemble := testBit_frameWord_assemble (s := readCapture s samples rest) (j := j) hns (hj.trans_le hfit)
  rw [show s.cal.nsa = (readCapture s samples rest).cal.nsa from rfl, hassemble]
  exact (chainBit_shiftAll_clear (by omega) j).trans (by simp [hj])

/-- In a calibrated session a READ is allowed, and its frame has the length of R236 and fits the chain and RAW. -/
theorem calibrated_facts {s : State} (hinv : Inv s) (hdone : s.cal.done = true) :
    s.cal.fail = false ∧ s.cal.flen.toNat = s.cal.delay.toNat + s.mtWidth + s.stWidth + 11 ∧
      s.cal.flen.toNat ≤ 32 * s.param.nsMax ∧ s.cal.nsa.toNat = ceilDiv s.cal.flen.toNat 32 ∧
      s.cal.nsa.toNat ≤ s.param.nsMax := by
  obtain ⟨-, -, -, -, ⟨hfatal, hvalid⟩, -⟩ := hinv
  obtain ⟨-, hflen, hcap, hnsa⟩ := hvalid hdone
  have hfail : s.cal.fail = false := by
    by_contra hfail
    simp [hfatal (by simpa using hfail)] at hdone
  have hfit : s.cal.flen.toNat ≤ 32 * s.param.nsMax := hcap
  exact ⟨hfail, hflen, hfit, hnsa, by rw [hnsa, ceilDiv]; omega⟩

/-- Settles O32: the run of a READ, then what FRAME_PROC makes of its capture. -/
theorem readDecodesTheWireFrame : Obligations.ReadDecodesTheWireFrame := by
  intro s samples rest hinv hx hf hcmd hinit hdone he hlen d n m bit
  obtain ⟨hfail, hflen, hfit, hnsa, hns⟩ := calibrated_facts hinv hdone
  obtain ⟨hparam, -⟩ := hinv
  have hne : samples ≠ [] := List.length_pos_iff.1 (by omega)
  have hnt : (BitVec.ofNat 4 (ceilDiv s.cal.flen.toNat 32)).toNat = (s.cal.flen.toNat + 31) / 32 :=
    ofNat_ceilDiv_toNat hparam hfit
  have hproc := frameProcStep_eq (beginTurn (readCapture s samples rest))
  have hholds : HoldsFrame n m _ (receiveFrame (beginTurn (readCapture s samples rest))).frame :=
    holdsFrame_decodeFrame _ _
  obtain ⟨hmt, hst, herr, hwarn, hrcv, hcalc⟩ := wireFormat_of_holdsFrame (d := d) (by omega)
    (fun j hj => testBit_frameWord_readCapture rest hns (hlen ▸ hnsa) hj) hholds
  obtain ⟨hheld, -, -, -, -, -, -, hok⟩ := hholds
  refine ⟨_, run_read hx hf hcmd hinit hfail hdone he hlen hne, ?_⟩
  rw [hproc]
  generalize hfr : (receiveFrame (beginTurn (readCapture s samples rest))).frame = fr at *
  refine ⟨hmt, hst, herr, hwarn, hrcv, hcalc, hok, hheld, ?cap, rfl, rfl, rfl, hnt, rfl, ?good, ?bad, ?frame⟩
  case cap =>
    obtain ⟨⟨-, hnsMax⟩, -⟩ := hparam
    exact capShows_of_chain hnsMax rfl (hlen ▸ hnt) (chainBit_shiftAll_clear (hlen ▸ hfit))
  case good =>
    intro hgood
    have htrk := tracksFrame_trackerUpdate (receiveFrame (beginTurn (readCapture s samples rest)))
    rw [hfr] at htrk
    dsimp only at hgood ⊢
    rw [hgood]
    exact ⟨htrk, rfl⟩
  case bad =>
    intro hbad
    dsimp only at hbad ⊢
    rw [hbad]
    exact ⟨rfl, rfl⟩
  case frame =>
    have hpub : (fr.crcOk || (beginTurn (readCapture s samples rest)).pubValid) = fr.crcOk := Bool.or_false _
    rw [beginTurn_readCapture_clk s rest hlen, hpub]
    rfl

end Sys2Proof.Machine
end

