-- ==== Sys2Proof/Proofs/Transactions.lean ====
section
/-! SUPPORT. One step and a whole transaction of the sequencer, whichever command runs it (40_sequencer.md R171 to
R179), and the numbering of the CAP registers (R178). -/

namespace Sys2Proof.Machine

/-! ### A running transaction -/

/-- CAL_RUN hands over to CAL_EVAL, and FRAME_RUN to FRAME_PROC (R230, R260). -/
theorem handsOver_of_running {f : Fsm} (h : f = .calRun ∨ f = .frameRun) :
    HandsOver f (if f = .calRun then .calEval else .frameProc) := by
  rcases h with rfl | rfl
  · exact .inl ⟨rfl, rfl⟩
  · exact .inr ⟨rfl, rfl⟩

/-- A core turn of a running transaction, everything it does (R171, R174, R176). -/
theorem coreTurn_running {s : State} {judge : Fsm} (hf : HandsOver s.fsm judge) (hk : s.seq.k < s.seq.t) :
    coreTurn s = .next { s with
      chain := shiftIn (s.encBits.headD (Config.sloLine (s.clk + tickCycles s.baudDiv))) s.chain
      seq := { s.seq with k := s.seq.k + 1 }
      encBits := s.encBits.tail
      ma := true
      fsm := if s.seq.k + 1 = s.seq.t then judge else s.fsm
      clk := s.clk + tickCycles s.baudDiv
      pubValid := false } := by
  obtain ⟨hturn, hcycles⟩ := coreTurn_handsOver hf
  rw [hturn, runTransaction_running judge (s := beginTurn s) hk]
  simp only [beginTurn, hcycles, sample]

/-- Settles O20: taking the core's turn off the list of events leaves the transaction as it was. -/
theorem runningTransactionTakesOneSample : Obligations.RunningTransactionTakesOneSample := by
  intro s s' hn hf hk
  rw [step_of_coreTurnNext hn, hn.eq]
  exact coreTurn_running (s := { s with inbox := s'.inbox }) (handsOver_of_running hf) hk

/-- Settles O21: the run of a transaction, and the samples in a chain that was clear. -/
theorem transactionCapturesEverySample : Obligations.TransactionCapturesEverySample := by
  intro s samples rest hx hf hk hchain hlen hpos hfit he
  have hne : samples ≠ [] := List.length_pos_iff.1 (by omega)
  have hrun := run_transaction hx (handsOver_of_running hf) hne he (by simpa [hk] using hlen)
  rw [hlen, hchain] at hrun
  refine ⟨_, hrun, by simp, fun j => ?_⟩
  rw [← hlen]
  exact chainBit_shiftAll_clear (hlen ▸ hfit) j

/-! ### The CAP registers -/

/-- Outside a transaction a CAP register shows the chain word its number stands for (R68, R178). -/
theorem readReg_cap {s : State} (i : Nat) (h : s.capturing = false) :
    readReg (.cap i) s = capView s.param s.seq.nt.toNat s.chain i := by
  simp [readReg, h]

theorem capturing_eq_false_iff {s : State} : s.capturing = false ↔ s.fsm ≠ .calRun ∧ s.fsm ≠ .frameRun := by
  simp [State.capturing]

/-- Settles O27: the words of the chain, seen through R178's numbering and through assembly. -/
theorem assemblyUndoesTheNumbering : Obligations.AssemblyUndoesTheNumbering := by
  refine ⟨fun s i hcal hframe hmax hi => ?cap, fun s j hcap hnt hns hj => ?raw⟩
  case cap =>
    rw [readOffset, regAt_cap hmax hi, readReg_cap i (capturing_eq_false_iff.2 ⟨hcal, hframe⟩), capView]
    cases s.param.chainOrder <;> rfl
  case raw =>
    have hraw : (assemble s).raw.getD j 0 = wordAt s.chain (s.cal.nsa.toNat - 1 - j) :=
      (wordAt_assemble (hj.trans_le hns)).trans (if_pos hj)
    rw [hraw, readReg_cap _ hcap, readReg_cap _ hcap, capView, capView, hnt]
    cases s.param.chainOrder with
    | highFirst => rfl
    | lowFirst => exact (if_pos hj).symm

end Sys2Proof.Machine
end

