-- ==== Sys2Proof/Proofs/CalibrateRun.lean ====
section
/-! SUPPORT. A whole CALIBRATE as a run of the machine: the trial its EXEC step or a CAL_EVAL step starts, what the scan
finds in the capture (42_calibrate.md R230 to R242), and the completion. -/

namespace Sys2Proof.Machine

/-! ### A trial -/

/-- The state in which the trial number `trial` of a CALIBRATE begins, after the step at `s` that starts it (R230). -/
def startTrial (trial : BitVec 2) (s : State) : State :=
  { startTransaction (BitVec.ofNat 16 s.calLen) (beginTurn s) with
    seq := { (startTransaction (BitVec.ofNat 16 s.calLen) (beginTurn s)).seq with trial := trial }
    fsm := .calRun }

/-- The state in which that trial is judged, captured from `samples`, with ENC's samples `rest` to come (R230). -/
def trialCapture (trial : BitVec 2) (s : State) (samples rest : List Bool) : State :=
  { s with
    chain := shiftAll samples (List.replicate s.param.nsMax 0)
    seq := { t := BitVec.ofNat 16 s.calLen, k := BitVec.ofNat 16 s.calLen,
             nt := BitVec.ofNat 4 (ceilDiv s.calLen 32), trial := trial }
    encBits := rest
    ma := true
    fsm := .calEval
    clk := s.clk + 1 + samples.length * tickCycles s.baudDiv
    pubValid := false }

/-- CAL_LEN fits the 16 bits of seq.T (R34, R73). -/
theorem ofNat_calLen_toNat (s : State) : (BitVec.ofNat 16 s.calLen).toNat = s.calLen := by
  simp [State.calLen, calLenField]

/-- A live session's trials take at least one tick and fit the chain (R8, R205). -/
theorem calLen_bounds {s : State} (hinv : Inv s) (hinit : s.initDone = true) :
    1 ≤ s.calLen ∧ s.param.delayMax ≤ s.calLen ∧ s.calLen ≤ 32 * s.param.nsMax := by
  obtain ⟨⟨-, ⟨hscan, -⟩, -⟩, -, hcfg, -⟩ := hinv
  obtain ⟨-, hleast, hmost⟩ := liveSession_bounds hcfg hinit
  exact ⟨hscan.trans hleast, hleast, hmost⟩

/-- A trial, from the step that starts it to the step that judges it (R176, R230). -/
theorem run_trial {s : State} {trial : BitVec 2} {samples rest : List Bool} (hx : s.inbox = [])
    (hcap : s.capturing = false) (hstart : step s = .next (startTrial trial s)) (he : s.encBits = samples ++ rest)
    (hlen : samples.length = s.calLen) (hpos : 1 ≤ s.calLen) :
    core.run (s.calLen + 1) s = .next (trialCapture trial s samples rest) := by
  have hcycles : stepCycles s = 1 := by simp [stepCycles, hcap]
  have hne : samples ≠ [] := List.length_pos_iff.1 (by omega)
  have hticks : (0 : BitVec 16).toNat + samples.length = (BitVec.ofNat 16 s.calLen).toNat := by
    rw [ofNat_calLen_toNat, hlen]; exact Nat.zero_add _
  have hrun := run_transaction (s := startTrial trial s) hx (.inl ⟨rfl, rfl⟩) hne he hticks
  rw [run_succ _ hstart, ← hlen, hrun, trialCapture]
  simp only [startTrial, startTransaction, beginTurn, hcycles, ofNat_calLen_toNat]
  rfl

/-- The clk cycles of a trial up to its judgement, the step that starts it included (R470). -/
theorem trialCapture_clk {s : State} {samples : List Bool} (trial : BitVec 2) (rest : List Bool)
    (hlen : samples.length = s.calLen) :
    (trialCapture trial s samples rest).clk = s.clk + (1 + 2 * (s.baudDiv + 1) * s.calLen) := by
  rw [← hlen]
  calc (trialCapture trial s samples rest).clk
    _ = s.clk + 1 + samples.length * (2 * (s.baudDiv + 1)) := rfl
    _ = s.clk + (1 + 2 * (s.baudDiv + 1) * samples.length) := by ring

/-- In the capture of a trial, sample i stands where the scan looks for it (R177, R233). -/
theorem chainBit_capture {samples : List Bool} {ns i : Nat} (hfit : samples.length ≤ 32 * ns)
    (hi : i < samples.length) :
    chainBit (shiftAll samples (List.replicate ns 0)) (samples.length - 1 - i) = samples.getD i false := by
  have hin : samples.length - 1 - i < samples.length := by omega
  have hplace : samples.length - 1 - (samples.length - 1 - i) = i := by omega
  rw [chainBit_shiftAll_clear hfit, hplace, decide_eq_true hin, Bool.true_and]

/-! ### The judgement of a trial -/

section
variable {s : State} (hx : s.inbox = []) (hf : s.fsm = .calEval)
include hx hf

/-- The scan finds a delay whose frame fits the chain (R230, R235, R236). -/
theorem step_calEval_found {d : Nat} (hscan : scanDelay s.param.delayMax s.calLen s.chain = some d)
    (hfit : frameLength d s.mtWidth s.stWidth ≤ s.capBits) :
    step s = .next (finish .none (storeCalibration d (beginTurn s))) := by
  rw [step_of_coreTurnNext (.inl ⟨hx, rfl⟩)]
  simp [coreTurn, hf, calEvalStep, hscan, Nat.not_lt.2 hfit]

variable (hscan : scanDelay s.param.delayMax s.calLen s.chain = none)
include hscan

/-- The scan of the first trial finds nothing (R230, R234). -/
theorem step_calEval_again (htrial : s.seq.trial = 1) : step s = .next (startTrial 2 s) := by
  rw [step_of_coreTurnNext (.inl ⟨hx, rfl⟩)]
  simp [coreTurn, hf, calEvalStep, hscan, htrial, startTrial]

/-- The scan of the second trial finds nothing (R230, R237). -/
theorem step_calEval_failed (htrial : s.seq.trial ≠ 1) :
    step s = .next (finish .noStartPattern (markCalFailed (beginTurn s))) := by
  rw [step_of_coreTurnNext (.inl ⟨hx, rfl⟩)]
  simp only [coreTurn, hf, calEvalStep, beginTurn_param, beginTurn_calLen, beginTurn_chain, hscan]
  exact congrArg _ (if_neg htrial)

end

section
variable {samples : List Bool} {delayMax ns : Nat} (hmax : delayMax ≤ samples.length)
  (hfit : samples.length ≤ 32 * ns)
include hmax hfit

/-- The scan of a capture answers the first 0 the encoder drove (R233). -/
theorem scanDelay_capture_eq_some {d : Nat} (hd : d < delayMax) (hones : ∀ i < d, samples.getD i false = true)
    (hzero : samples.getD d true = false) :
    scanDelay delayMax samples.length (shiftAll samples (List.replicate ns 0)) = some d := by
  have hin : d < samples.length := hd.trans_le hmax
  have hzero' : samples.getD d false = false := by simpa [hin] using hzero
  refine scanDelay_eq_some.2 ⟨hd, ?_, fun i hi => ?_⟩
  · rw [chainBit_capture hfit hin, hzero']
  · rw [chainBit_capture hfit (hi.trans hin), hones i hi]

/-- The scan of a capture whose first DELAY_MAX samples are 1 finds nothing (R233). -/
theorem scanDelay_capture_eq_none (hones : ∀ i < delayMax, samples.getD i false = true) :
    scanDelay delayMax samples.length (shiftAll samples (List.replicate ns 0)) = none :=
  scanDelay_eq_none.2 fun i hi => (chainBit_capture hfit (hi.trans_le hmax)).trans (hones i hi)

end

/-! ### CALIBRATE -/

section
variable {s : State} (hx : s.inbox = []) (hf : s.fsm = .exec) (hcmd : s.curCmd = encode .calibrate)
  (hinit : s.initDone = true) (hfail : s.cal.fail = false)
include hx hf hcmd hinit hfail

/-- CALIBRATE in a live session that is not fatal starts its first trial (R230). -/
theorem step_calibrate : step s = .next (startTrial 1 s) := by
  have hdec : decodeWord s.curCmd = .ok .calibrate := hcmd ▸ decodeOfEncodeIsIdentity .calibrate trivial
  rw [step_of_coreTurnNext (.inl ⟨hx, rfl⟩), coreTurn_exec hf hdec]
  simp [exec, execCalibrate, hinit, hfail, startTrial]

/-- CALIBRATE up to the judgement of its first trial (R230). -/
theorem run_firstTrial {samples rest : List Bool} (he : s.encBits = samples ++ rest)
    (hlen : samples.length = s.calLen) (hpos : 1 ≤ s.calLen) :
    core.run (s.calLen + 1) s = .next (trialCapture 1 s samples rest) :=
  run_trial hx (by simp [State.capturing, hf]) (step_calibrate hx hf hcmd hinit hfail) he hlen hpos

end

/-- A frame that fits the chain has a delay, a length and a number of words that fit their registers (R51, R52). -/
theorem storeCalibration_cal_toNat {s : State} {d : Nat} (hparam : s.param.Legal)
    (hfit : frameLength d s.mtWidth s.stWidth ≤ 32 * s.param.nsMax) :
    (storeCalibration d s).cal.delay.toNat = d ∧
      (storeCalibration d s).cal.flen.toNat = d + s.mtWidth + s.stWidth + 11 ∧
      (storeCalibration d s).cal.nsa.toNat = (d + s.mtWidth + s.stWidth + 11 + 31) / 32 := by
  have hcap : s.param.capBits ≤ 480 := capBits_le_of_legal hparam
  have hsum : frameLength d s.mtWidth s.stWidth = d + s.mtWidth + s.stWidth + 11 := by unfold frameLength; omega
  have hnsa := ofNat_ceilDiv_toNat hparam hfit
  rw [hsum] at hfit hnsa
  unfold Params.capBits at hcap
  simp only [storeCalibration_cal, hsum]
  refine ⟨?_, ?_, hnsa⟩ <;> rw [BitVec.toNat_ofNat] <;> omega

/-- Settles O23: the first trial, and its judgement. -/
theorem calibrateDiscoversTheDelay : Obligations.CalibrateDiscoversTheDelay := by
  intro s d samples rest hinv hx hf hcmd hinit hfail he hlen hd hones hzero hfl
  obtain ⟨hpos, hmax, hfit⟩ := calLen_bounds hinv hinit
  obtain ⟨hparam, -⟩ := hinv
  have ⟨⟨_, hnsMax⟩, _⟩ := hparam
  have hnt : (BitVec.ofNat 4 (ceilDiv s.calLen 32)).toNat = (s.calLen + 31) / 32 := ofNat_ceilDiv_toNat hparam hfit
  have hframe : frameLength d s.mtWidth s.stWidth ≤ 32 * s.param.nsMax := by unfold frameLength; omega
  have hscan : scanDelay s.param.delayMax s.calLen (trialCapture 1 s samples rest).chain = some d :=
    hlen ▸ scanDelay_capture_eq_some (hlen ▸ hmax) (hlen ▸ hfit) hd hones hzero
  have hjudge : step (trialCapture 1 s samples rest) =
      .next (finish .none (storeCalibration d (beginTurn (trialCapture 1 s samples rest)))) :=
    step_calEval_found (s := trialCapture 1 s samples rest) hx rfl hscan hframe
  have hrun := run_firstTrial hx hf hcmd hinit hfail he hlen hpos
  obtain ⟨hdelay, hflen, hnsa⟩ :=
    storeCalibration_cal_toNat (s := beginTurn (trialCapture 1 s samples rest)) hparam hframe
  have hclk : (beginTurn (trialCapture 1 s samples rest)).clk = s.clk + (1 + 2 * (s.baudDiv + 1) * s.calLen + 1) :=
    congrArg (· + 1) (trialCapture_clk 1 rest hlen)
  refine ⟨_, (run_add (s.calLen + 1) 1 hrun).trans (run_succ 0 hjudge), hdelay, hflen, hnsa, rfl, hfail,
    capShows_of_chain hnsMax rfl (hlen ▸ hnt) (chainBit_shiftAll_clear (hlen ▸ hfit)), ofNat_calLen_toNat s, rfl,
    hnt, rfl, ?_⟩
  rw [← hclk]
  rfl

/-- The capture of the second trial of a CALIBRATE whose first trial took the samples `first` (R234). -/
def secondCapture (s : State) (first second rest : List Bool) : State :=
  trialCapture 2 (trialCapture 1 s first (second ++ rest)) second rest

/-- A first trial without a 0 in the scan's window is followed by a second one (R230, R234). -/
theorem run_secondTrial {s : State} {first second : List Bool} (rest : List Bool) (hx : s.inbox = [])
    (hlen : second.length = s.calLen) (hpos : 1 ≤ s.calLen)
    (hscan : scanDelay s.param.delayMax s.calLen (trialCapture 1 s first (second ++ rest)).chain = none) :
    core.run (s.calLen + 1) (trialCapture 1 s first (second ++ rest)) = .next (secondCapture s first second rest) := by
  have hagain : step (trialCapture 1 s first (second ++ rest)) =
      .next (startTrial 2 (trialCapture 1 s first (second ++ rest))) :=
    step_calEval_again (s := trialCapture 1 s first (second ++ rest)) hx rfl hscan rfl
  exact run_trial hx rfl hagain rfl hlen hpos

/-- The clk cycles of a CALIBRATE of two trials (R470). -/
theorem beginTurn_secondCapture_clk {s : State} {first second : List Bool} (rest : List Bool)
    (hlen₁ : first.length = s.calLen) (hlen₂ : second.length = s.calLen) :
    (beginTurn (secondCapture s first second rest)).clk =
      s.clk + (1 + 2 * (2 * (s.baudDiv + 1) * s.calLen + 1)) := by
  have hfirst := trialCapture_clk 1 (second ++ rest) hlen₁
  have hsecond := trialCapture_clk 2 rest (s := trialCapture 1 s first (second ++ rest)) hlen₂
  calc (beginTurn (secondCapture s first second rest)).clk
    _ = s.clk + (1 + 2 * (s.baudDiv + 1) * s.calLen) + (1 + 2 * (s.baudDiv + 1) * s.calLen) + 1 := by
      rw [← hfirst]; exact congrArg (· + 1) hsecond
    _ = s.clk + (1 + 2 * (2 * (s.baudDiv + 1) * s.calLen + 1)) := by ring

/-- Settles O24: two trials, and the judgement of the second. -/
theorem noStartPatternFailsAfterTwoTrials : Obligations.NoStartPatternFailsAfterTwoTrials := by
  intro s first second rest hinv hx hf hcmd hinit hfail he hlen₁ hlen₂ hones₁ hones₂
  obtain ⟨hpos, hmax, hfit⟩ := calLen_bounds hinv hinit
  obtain ⟨hparam, -⟩ := hinv
  have ⟨⟨_, hnsMax⟩, _⟩ := hparam
  have hnt : (BitVec.ofNat 4 (ceilDiv s.calLen 32)).toNat = (s.calLen + 31) / 32 := ofNat_ceilDiv_toNat hparam hfit
  have hnone {samples : List Bool} (hlen : samples.length = s.calLen)
      (hones : ∀ i < s.param.delayMax, samples.getD i false = true) :
      scanDelay s.param.delayMax s.calLen (shiftAll samples (List.replicate s.param.nsMax 0)) = none :=
    hlen ▸ scanDelay_capture_eq_none (hlen ▸ hmax) (hlen ▸ hfit) hones
  have hrun₁ := run_firstTrial hx hf hcmd hinit hfail (he.trans (List.append_assoc _ _ _)) hlen₁ hpos
  have hrun₂ := run_secondTrial rest hx hlen₂ hpos (hnone hlen₁ hones₁)
  have hjudge : step (secondCapture s first second rest) =
      .next (finish .noStartPattern (markCalFailed (beginTurn (secondCapture s first second rest)))) :=
    step_calEval_failed (s := secondCapture s first second rest) hx rfl (hnone hlen₂ hones₂)
      (by decide : (2 : BitVec 2) ≠ 1)
  have hsteps : 1 + 2 * (s.calLen + 1) = s.calLen + 1 + (s.calLen + 1 + 1) := by ring
  rw [hsteps, run_add _ _ hrun₁, run_add _ _ hrun₂, run_succ 0 hjudge]
  refine ⟨_, rfl, capShows_of_chain hnsMax rfl (hlen₂ ▸ hnt) (chainBit_shiftAll_clear (hlen₂ ▸ hfit)),
    ofNat_calLen_toNat s, rfl, hnt, rfl, ?_⟩
  rw [← beginTurn_secondCapture_clk rest hlen₁ hlen₂]
  rfl

end Sys2Proof.Machine
end

/-! SUPPORT. The session commands NOP and INIT (41_session.md R204 to R210), the steps that accept a command word and run
it (R200, R201), and the interrupt events of every step (60_exceptions.md R410 to R415). -/

namespace Sys2Proof.Machine

/-! ### Completions -/

/-- `finish` with an error code is the error completion of R404. -/
theorem finish_eq_errorCompletion {code : ErrCode} (h : code ≠ .none) (s : State) :
    finish code s = ErrorCompletion code s := by
  rw [finish, ErrorCompletion, irqOfCompletion_error h]

theorem irqOfCompletion_done (code : ErrCode) : (irqOfCompletion code).getLsbD 0 = true := by
  cases code <;> rfl

theorem irqOfCompletion_err (code : ErrCode) : (irqOfCompletion code).getLsbD 1 = decide (code ≠ .none) := by
  cases code <;> rfl

theorem irqOfCompletion_crcFail (code : ErrCode) : (irqOfCompletion code).getLsbD 2 = false := by
  cases code <;> rfl

/-! ### NOP and INIT -/

/-- The configuration check of INIT is R205's list of inequalities on the fields of CFG0 and CFG1. -/
theorem legalConfig_eq_true_iff (s : State) : legalConfig s.param s.cfg0 s.cfg1 = true ↔ LegalPending s := by
  rw [legalConfig_iff]
  simp only [LegalPending, mtWidthField, stWidthField, polePairsField, calLenField, Params.capBits, and_assoc]

/-- INIT with a legal pending configuration opens the session (R207). -/
theorem exec_init_legal {s : State} (h : LegalPending s) :
    exec .init s = .next (finish .none (openSession s)) := by
  rw [exec, execInit, if_pos ((legalConfig_eq_true_iff s).2 h), complete_eq]

/-- INIT with any other pending configuration raises BAD_CONFIG (R206). -/
theorem exec_init_illegal {s : State} (h : ¬ LegalPending s) : exec .init s = .next (finish .badConfig s) := by
  rw [exec, execInit, if_neg (mt (legalConfig_eq_true_iff s).1 h), raiseError_eq]

/-- Settles O10: NOP is the bare completion. -/
theorem nopOnlyCompletes : Obligations.NopOnlyCompletes := complete_eq

/-- Settles O11: the completion of the writes that open a session. -/
theorem initOpensSession : Obligations.InitOpensSession := fun _ h => exec_init_legal h

/-- Settles O12: BAD_CONFIG is an error completion. -/
theorem initRejectsIllegalConfig : Obligations.InitRejectsIllegalConfig := fun s h => by
  rw [exec_init_illegal h, finish_eq_errorCompletion (by decide)]

/-! ### From a CMD write to the EXEC step -/

/-- An EXEC step takes one clk cycle (R470). -/
theorem beginTurn_of_exec {s : State} (hf : s.fsm = .exec) :
    beginTurn s = { s with clk := s.clk + 1, pubValid := false } := by
  have hcycles : stepCycles s = 1 := by simp [stepCycles, State.capturing, hf]
  rw [beginTurn, hcycles]

theorem decodeWord_of_decodeTableWord {nbits w : Nat} {i : Instr} (h : decodeTableWord nbits w = some i) :
    decodeWord (tableWord nbits w) = .ok i := by
  unfold decodeTableWord at h
  split at h
  · rename_i hdec
    rw [hdec, Option.some.inj h]
  · cases h

/-- Outside IDLE a CMD write is dropped with OVR (R200, R413). -/
theorem busAccess_cmd_busy {s : State} (w : Word) (hbusy : s.fsm ≠ .idle) :
    busAccess (hostWrite 0x00C w) s =
      { s with irqStatus := s.irqStatus ||| irqOvr, lastResp := { rdata := none, err := false } } := by
  rw [busAccess_hostWrite _ w s (by decide) (by decide)]
  have hreg : regAt s.param.nsMax 0x00C = .cmd := rfl
  rw [hreg, writeReg, writeCmd, if_neg hbusy]

/-- Settles O49, by the two branches of a CMD write. -/
theorem cmdWriteIsAcceptedOrDropped : Obligations.CmdWriteIsAcceptedOrDropped := by
  refine fun s w => ⟨fun hidle => ?_, busAccess_cmd_busy w⟩
  rw [busAccess_cmd_idle w hidle]
  exact ⟨rfl, rfl⟩

/-- Settles O6: taking the turn off the list of events leaves the FSM and CUR_CMD. -/
theorem stepRunsTheDecodedCommand : Obligations.StepRunsTheDecodedCommand := by
  intro s s' i hn hf hdec
  have hf' : s'.fsm = .exec := by rw [hn.eq]; exact hf
  have hdec' : decodeWord s'.curCmd = .ok i := by rw [hn.eq]; exact hdec
  rw [step_of_coreTurnNext hn, coreTurn_exec hf' hdec', beginTurn_of_exec hf']

/-- Settles O7: a placed word stands in CUR_CMD in EXEC, with the core's turn next. -/
theorem placedWordRunsNext : Obligations.PlacedWordRunsNext := fun s _ _ i h =>
  stepRunsTheDecodedCommand _ _ i (.inr ⟨s.inbox, rfl, rfl⟩) rfl (decodeWord_of_decodeTableWord h)

/-! ### The interrupt events of a step -/

@[simp] theorem runTransaction_irqStatus (after : Fsm) (s : State) :
    (runTransaction after s).irqStatus = s.irqStatus :=
  runTransaction_keeps State.irqStatus (by intros; rfl) after s

/-- A transaction step ends no command: it stays in its state or hands over (R176). -/
theorem runTransaction_fsm_ne_idle {after : Fsm} {s : State} (hafter : after ≠ .idle) (hs : s.fsm ≠ .idle) :
    (runTransaction after s).fsm ≠ .idle := by
  obtain ⟨_, _, _, _, _, rfl | rfl, e⟩ := runTransaction_changes after s <;> rw [e]
  · exact hafter
  · exact hs

/-- Everything a core turn does to IRQ_STATUS: nothing where no command ends, the events of the completion where one
does, and CRCFAIL beside DONE at a frame whose CRC failed (R202, R266). -/
theorem CoreTurn.irqStatus_cases {s t : State} (h : CoreTurn s t) :
    (t.irqStatus = s.irqStatus ∧ (s.fsm ≠ .idle → t.fsm ≠ .idle)) ∨
      t.irqStatus = s.irqStatus ||| irqOfCompletion t.err ∨
      (t.irqStatus = s.irqStatus ||| irqCrcFail ||| irqOfCompletion t.err ∧ t.err = .none) := by
  cases h with
  | idle => exact .inl ⟨rfl, id⟩
  | startTrial | startFrame => exact .inl ⟨rfl, fun _ => by simp⟩
  | calTick | frameTick => exact .inl ⟨by simp, fun hs => runTransaction_fsm_ne_idle (by decide) hs⟩
  | frameBad => exact .inr (.inr ⟨by simp, rfl⟩)
  | _ => exact .inr (.inl (by simp))

/-- A register write sets no event but OVR: IRQ_STATUS writes clear bits (R50), and a dropped CMD write sets bit 3
(R413). -/
theorem irqStatus_of_writeReg {r : WinReg} {v : Word} {s : State} {b : Nat} (hb : b < 3)
    (h : (writeReg r v s).irqStatus.getLsbD b = true) : s.irqStatus.getLsbD b = true := by
  cases r with
  | cmd =>
    have hovr : irqOvr.getLsbD b = false := by interval_cases b <;> rfl
    simp only [writeReg, writeCmd] at h
    split at h
    · exact h
    · simpa [hovr] using h
  | irqStatus =>
    simp only [writeReg, ackIrq_irqStatus, BitVec.getLsbD_and, Bool.and_eq_true] at h
    exact h.1
  | raw i =>
    simp only [writeReg] at h
    split at h <;> exact h
  | _ => exact h

theorem irqStatus_of_busAccess {a : BusAccess} {s : State} {b : Nat} (hb : b < 3)
    (h : (busAccess a s).irqStatus.getLsbD b = true) : s.irqStatus.getLsbD b = true := by
  rcases busAccess_cases a s with ⟨_, e⟩ | e <;> rw [e] at h
  · exact h
  · exact irqStatus_of_writeReg hb h

/-- A host access never ends the command in progress (R200). -/
theorem busAccess_fsm_ne_idle (a : BusAccess) {s : State} (h : s.fsm ≠ .idle) : (busAccess a s).fsm ≠ .idle := by
  obtain ⟨_, _, _, _, _, _, _, _, _, _, hkept, e⟩ := busAccess_changes a s
  rw [e]
  exact (hkept h).trans_ne h

/-- A core turn that ends a command sets DONE, and ERR when its code is not NONE (R202). -/
theorem CoreTurn.completion_events {s t : State} (h : CoreTurn s t) (hs : s.fsm ≠ .idle) (ht : t.fsm = .idle) :
    t.irqStatus.getLsbD 0 = true ∧ (t.err ≠ .none → t.irqStatus.getLsbD 1 = true) := by
  rcases h.irqStatus_cases with ⟨-, hgoes⟩ | e | ⟨e, -⟩
  · exact absurd ht (hgoes hs)
  all_goals
    rw [e]
    simp only [BitVec.getLsbD_or, irqOfCompletion_done, irqOfCompletion_err, Bool.or_true, true_and]
    exact fun herr => by simp [herr]

/-- A core turn that newly sets CRCFAIL ends with NONE, so it does not newly set ERR (R415). -/
theorem CoreTurn.err_of_crcFail {s t : State} (h : CoreTurn s t) (hold : s.irqStatus.getLsbD 2 = false)
    (hnew : t.irqStatus.getLsbD 2 = true) (herr : t.irqStatus.getLsbD 1 = true) : s.irqStatus.getLsbD 1 = true := by
  rcases h.irqStatus_cases with ⟨e, -⟩ | e | ⟨e, hnone⟩
  · rwa [e] at herr
  · rw [e, BitVec.getLsbD_or, hold, irqOfCompletion_crcFail] at hnew
    cases hnew
  · rw [e, hnone, BitVec.getLsbD_or, BitVec.getLsbD_or, irqOfCompletion_err] at herr
    simpa [irqCrcFail] using herr

/-- Settles O46: a core turn by the way it leaves IRQ_STATUS; a host access ends no command and sets neither event. -/
theorem everyCompletionSetsItsEvents : Obligations.EveryCompletionSetsItsEvents := by
  intro s t h hreset
  rcases step_next_cases h with ⟨s', hn, hturn⟩ | ⟨a, rest, -, rfl⟩ | ⟨p, rest, hx, -⟩
  · have hfsm : s'.fsm = s.fsm := by rw [hn.eq]
    have hirq : s'.irqStatus = s.irqStatus := by rw [hn.eq]
    rw [← hfsm, ← hirq]
    refine ⟨hturn.completion_events, fun ⟨herr, herr', hcrc, hcrc'⟩ => ?_⟩
    exact Bool.false_ne_true (herr.symm.trans (hturn.err_of_crcFail hcrc hcrc' herr'))
  · refine ⟨fun hs ht => absurd ht (busAccess_fsm_ne_idle a hs), fun ⟨herr, herr', _⟩ => ?_⟩
    have hset := irqStatus_of_busAccess (b := 1) (by decide) herr'
    exact Bool.false_ne_true (herr.symm.trans hset)
  · exact absurd ⟨p, rest, hx⟩ hreset

end Sys2Proof.Machine

/-! SUPPORT. The single steps of a CALIBRATE: its EXEC step (42_calibrate.md R230), and CAL_EVAL in every state with the
four ways it judges a trial (R233 to R237). -/

namespace Sys2Proof.Machine

/-! ### The start of a trial -/

/-- seq.T takes the CAL_LEN field of SCFG1 as it stands (R67, R73). -/
theorem ofNat_calLen (s : State) : BitVec.ofNat 16 s.calLen = s.scfg1.extractLsb' 16 16 := by
  rw [State.calLen, calLenField, BitVec.ofNat_toNat, BitVec.setWidth_eq]

/-- The transaction of a trial, in the fields of the state (R175, R231). -/
theorem startTransaction_ofNat_calLen (s : State) :
    startTransaction (BitVec.ofNat 16 s.calLen) s =
      { s with
        chain := List.replicate s.param.nsMax 0
        seq := { s.seq with
          t := s.scfg1.extractLsb' 16 16, k := 0, nt := BitVec.ofNat 4 ((s.calLen + 31) / 32) } } := by
  rw [startTransaction, ofNat_calLen_toNat, ofNat_calLen, ceilDiv, Nat.add_sub_assoc (by decide)]

/-- CALIBRATE past its preconditions starts its first trial (R230). -/
theorem exec_calibrate_live {s : State} (hinit : s.initDone = true) (hfail : s.cal.fail = false) :
    exec .calibrate s = .next { startTransaction (BitVec.ofNat 16 s.calLen) s with
      seq := { (startTransaction (BitVec.ofNat 16 s.calLen) s).seq with trial := 1 }
      fsm := .calRun } := by
  rw [exec, execCalibrate, if_neg (by simp [hinit]), if_neg (by simp [hfail])]

/-- Settles O13: the EXEC step starts the transaction of a trial and marks it the first. -/
theorem calibrateStartsFirstTrial : Obligations.CalibrateStartsFirstTrial := fun s hinit hfail => by
  rw [exec_calibrate_live hinit hfail, startTransaction_ofNat_calLen]
  rfl

/-! ### The judgement of a trial, in every state -/

section
variable {s : State} {d : Nat} (hscan : scanDelay s.param.delayMax s.calLen s.chain = some d)
include hscan

/-- A delay whose frame fits the chain is stored (R235, R236). -/
theorem calEvalStep_found (hfit : frameLength d s.mtWidth s.stWidth ≤ s.capBits) :
    calEvalStep s = finish .none (storeCalibration d s) := by
  simp only [calEvalStep, hscan]
  exact if_neg (Nat.not_lt.2 hfit)

/-- A delay whose frame does not fit the chain fails the calibration (R237). -/
theorem calEvalStep_tooLong (hlong : s.capBits < frameLength d s.mtWidth s.stWidth) :
    calEvalStep s = finish .frameTooLong (markCalFailed s) := by
  simp only [calEvalStep, hscan]
  exact if_pos hlong

end

section
variable {s : State} (hscan : scanDelay s.param.delayMax s.calLen s.chain = none)
include hscan

/-- A first trial without a start pattern is followed by a second one (R234). -/
theorem calEvalStep_again (htrial : s.seq.trial = 1) :
    calEvalStep s = { startTransaction (BitVec.ofNat 16 s.calLen) s with
      seq := { (startTransaction (BitVec.ofNat 16 s.calLen) s).seq with trial := 2 }
      fsm := .calRun } := by
  simp only [calEvalStep, hscan]
  exact if_pos htrial

/-- Any other trial without a start pattern fails the calibration (R234, R237). -/
theorem calEvalStep_noPattern (htrial : s.seq.trial ≠ 1) :
    calEvalStep s = finish .noStartPattern (markCalFailed s) := by
  simp only [calEvalStep, hscan]
  exact if_neg htrial

end

/-- The frame length of R236 with its fixed ticks added up. -/
theorem frameLength_eq (d n m : Nat) : frameLength d n m = d + n + m + 11 := by
  unfold frameLength
  omega

/-- The writes of a successful calibration, in the fields of the state (R235, R236). -/
theorem storeCalibration_eq (d : Nat) (s : State) :
    storeCalibration d s = { s with
      cal := { s.cal with
        delay := BitVec.ofNat 16 d
        flen := BitVec.ofNat 16 (d + s.mtWidth + s.stWidth + 11)
        nsa := BitVec.ofNat 4 ((d + s.mtWidth + s.stWidth + 11 + 31) / 32)
        done := true } } := by
  simp only [storeCalibration, frameLength_eq, ceilDiv]
  rfl

/-- In CAL_EVAL a core step judges the trial, in one clk cycle (R230, R470). -/
theorem step_calEval {s s' : State} (hn : CoreTurnNext s s') (hf : s.fsm = .calEval) :
    step s = .next (calEvalStep { s' with clk := s.clk + 1, pubValid := false }) := by
  rw [step_of_coreTurnNext hn, hn.eq]
  simp [coreTurn, beginTurn, stepCycles, State.capturing, hf]

/-- Settles O22: what the scan answers selects the outcome of CAL_EVAL. The pending events are no input of it. -/
theorem calEvalJudgesTheTrial : Obligations.CalEvalJudgesTheTrial := by
  intro s s' hn hf bit begun
  have hstep : step s = .next (calEvalStep begun) := step_calEval hn hf
  obtain ⟨events, rfl⟩ : ∃ events, s' = { s with inbox := events } := ⟨_, hn.eq⟩
  rw [hstep]
  constructor
  · intro d hd hones hzero fl
    have hscan : scanDelay begun.param.delayMax begun.calLen begun.chain = some d :=
      scanDelay_eq_some.2 ⟨hd, hzero, hones⟩
    have hlen : frameLength d begun.mtWidth begun.stWidth = fl := frameLength_eq d s.mtWidth s.stWidth
    refine ⟨fun hfit => ?_, fun hlong => ?_⟩
    · rw [calEvalStep_found hscan (hlen.trans_le hfit), storeCalibration_eq]
      rfl
    · rw [calEvalStep_tooLong hscan (hlong.trans_eq hlen.symm), finish_eq_errorCompletion (by decide)]
      rfl
  · intro hones
    have hscan : scanDelay begun.param.delayMax begun.calLen begun.chain = none := scanDelay_eq_none.2 hones
    refine ⟨fun hfirst => ?_, fun hsecond => ?_⟩
    · rw [calEvalStep_again hscan hfirst, startTransaction_ofNat_calLen]
      rfl
    · rw [calEvalStep_noPattern hscan hsecond, finish_eq_errorCompletion (by decide)]
      rfl

end Sys2Proof.Machine

/-! SUPPORT. READ, step by step (43_receive.md R260 to R268): its EXEC step, the frame word that assembly makes of the
chain, and the FRAME_PROC step with either verdict. -/

namespace Sys2Proof.Machine

/-! ### The start of the transaction -/

/-- READ past its preconditions starts the transaction of its frame (R260, R261). -/
theorem exec_read_calibrated {s : State} (hinit : s.initDone = true) (hfail : s.cal.fail = false)
    (hdone : s.cal.done = true) :
    exec .read s = .next { startTransaction s.cal.flen s with fsm := .frameRun } := by
  rw [exec, execRead, if_neg (by simp [hinit]), if_neg (by simp [hfail]), if_neg (by simp [hdone])]

/-- Settles O14: seq.NT rounds FLEN up to whole words. -/
theorem readStartsOneTransaction : Obligations.ReadStartsOneTransaction := fun s hinit hfail hdone => by
  have hwords : ceilDiv s.cal.flen.toNat 32 = (s.cal.flen.toNat + 31) / 32 := rfl
  rw [exec_read_calibrated hinit hfail hdone, startTransaction, hwords]

/-! ### Assembly -/

/-- F is the low NSA words of the chain (R263, R264). -/
theorem frameWord_assemble {s : State} (hns : s.cal.nsa.toNat ≤ s.param.nsMax) :
    frameWord s.cal.nsa.toNat (assemble s).raw = chainValue s.chain % 2 ^ (32 * s.cal.nsa.toNat) := by
  refine Nat.eq_of_testBit_eq fun j => ?_
  rw [Nat.testBit_mod_two_pow, testBit_chainValue]
  by_cases hj : j < 32 * s.cal.nsa.toNat
  · rw [testBit_frameWord_assemble hns hj, decide_eq_true hj, Bool.true_and]
  · have hlt : frameWord s.cal.nsa.toNat (assemble s).raw < 2 ^ j :=
      (frameWord_lt _ _).trans_le (Nat.pow_le_pow_right (by decide) (Nat.le_of_not_lt hj))
    rw [Nat.testBit_lt_two_pow hlt, decide_eq_false hj, Bool.false_and]

/-- RAW is 0 above the frame (R263). -/
theorem wordAt_assemble_above {s : State} {j : Nat} (hj : s.cal.nsa.toNat ≤ j) : wordAt (assemble s).raw j = 0 := by
  by_cases hin : j < s.param.nsMax
  · rw [wordAt_assemble hin, if_neg (Nat.not_lt.2 hj)]
  · exact List.getD_eq_default _ _ (by simpa using hin)

/-- Settles O26. -/
theorem assemblyMakesFrameOfChain : Obligations.AssemblyMakesFrameOfChain := fun _ _ hns =>
  ⟨by simp, frameWord_assemble hns, fun _ => wordAt_assemble_above⟩

/-! ### The verdict -/

section
variable {n m f : Nat} {fr : HeldFrame} (h : HoldsFrame n m f fr)
include h

/-- The received check value is the low end of the frame word (R143). -/
theorem HoldsFrame.rcvCrc_eq : fr.rcvCrc = BitVec.ofNat 6 f := by
  obtain ⟨-, -, -, -, -, hrcv, -, -⟩ := h
  refine BitVec.eq_of_getLsbD_eq fun i hi => ?_
  rw [hrcv i hi, BitVec.getLsbD_ofNat, decide_eq_true hi, Bool.true_and]

/-- The verdict compares the inverted CRC of the payload with the check field (R292, R295). -/
theorem HoldsFrame.crcOk_iff :
    fr.crcOk = true ↔
      crc6Reg ((List.range (n + m + 2)).map fun t => f.testBit (n + m + 7 - t)) ^^^ 0x3F = BitVec.ofNat 6 f := by
  have hrcv := h.rcvCrc_eq
  obtain ⟨-, -, -, -, -, -, hcalc, hok⟩ := h
  rw [hok, hcalc, hrcv, beq_iff_eq, ← BitVec.xor_allOnes]
  rfl

end

/-! ### FRAME_PROC -/

/-- FRAME_PROC holds the frame of the chain's low NSA words (R260, R264). -/
theorem holdsFrame_receiveFrame {s : State} (hns : s.cal.nsa.toNat ≤ s.param.nsMax) :
    HoldsFrame s.mtWidth s.stWidth (chainValue s.chain % 2 ^ (32 * s.cal.nsa.toNat)) (receiveFrame s).frame := by
  rw [← frameWord_assemble hns]
  exact holdsFrame_decodeFrame _ (assemble s)

/-- Reception changes no input of the tracker update but the fields of the frame (R260, R351). -/
theorem tracksFrame_receiveFrame (s : State) :
    TracksFrame s (receiveFrame s).frame.mt (receiveFrame s).frame.st (trackerUpdate (receiveFrame s)).trk := by
  simpa only [TracksFrame, receiveFrame_stWidth, receiveFrame_mtWidth, receiveFrame_polePairs, receiveFrame_param,
    receiveFrame_off, receiveFrame_trk] using tracksFrame_trackerUpdate (receiveFrame s)

/-- In FRAME_PROC a core step processes the captured frame, in one clk cycle (R260, R470). -/
theorem step_frameProc {s s' : State} (hn : CoreTurnNext s s') (hf : s.fsm = .frameProc) :
    step s = .next (frameProcStep { s' with clk := s.clk + 1, pubValid := false }) := by
  rw [step_of_coreTurnNext hn, hn.eq]
  simp [coreTurn, beginTurn, stepCycles, State.capturing, hf]

/-- A FRAME_PROC step, in the fields of the state: the held frame's own verdict selects the tracker update or the
failure count (R260, R266, R351, R359). -/
theorem step_frameProc_holdsFrame {s s' : State} (hn : CoreTurnNext s s') (hf : s.fsm = .frameProc)
    (hns : s.cal.nsa.toNat ≤ s.param.nsMax) :
    ∃ (fr : HeldFrame) (u : Tracker),
      HoldsFrame s.mtWidth s.stWidth (chainValue s.chain % 2 ^ (32 * s.cal.nsa.toNat)) fr ∧
      TracksFrame s fr.mt fr.st u ∧
      step s = .next { s' with
        raw := (assemble s).raw
        frame := fr
        trk := if fr.crcOk then u else s'.trk
        crcErrCnt := if fr.crcOk then s'.crcErrCnt else s.crcErrCnt + 1
        irqStatus := s.irqStatus ||| (if fr.crcOk then 0b0001 else 0b0101)
        err := .none
        fsm := .idle
        clk := s.clk + 1
        pubValid := fr.crcOk } := by
  have hstep := step_frameProc hn hf
  obtain ⟨events, rfl⟩ : ∃ events, s' = { s with inbox := events } := ⟨_, hn.eq⟩
  have hholds := holdsFrame_receiveFrame (s := { s with inbox := events, clk := s.clk + 1, pubValid := false }) hns
  have htracks := tracksFrame_receiveFrame { s with inbox := events, clk := s.clk + 1, pubValid := false }
  refine ⟨_, _, hholds, htracks, ?_⟩
  rw [hstep, frameProcStep_eq, Bool.or_false]
  rfl

/-- Settles O30: a negative verdict leaves the tracker and counts the failure. -/
theorem crcMismatchSkipsTheTracker : Obligations.CrcMismatchSkipsTheTracker := by
  rintro s s' hn hf - hns f rfl hcrc
  obtain ⟨fr, u, hholds, -, hstep⟩ := step_frameProc_holdsFrame hn hf hns
  have hbad : fr.crcOk = false := Bool.eq_false_iff.2 (mt hholds.crcOk_iff.1 hcrc)
  refine ⟨fr, hholds, hbad, ?_⟩
  rw [hstep, hbad]
  rfl

/-- Settles O31: a positive verdict updates the tracker from the frame now held. -/
theorem goodFrameUpdatesTheTracker : Obligations.GoodFrameUpdatesTheTracker := by
  rintro s s' hn hf - hns f rfl hcrc
  obtain ⟨fr, u, hholds, htracks, hstep⟩ := step_frameProc_holdsFrame hn hf hns
  have hgood : fr.crcOk = true := hholds.crcOk_iff.2 hcrc
  refine ⟨fr, u, hholds, hgood, htracks, ?_⟩
  rw [hstep, hgood]
  rfl

end Sys2Proof.Machine

/-! SUPPORT. The CRC-6 validator (44_crc.md R290 to R306): the register's equations, the flips it catches, its reading
as a polynomial remainder, the two forms of the CRC_IN window, CRC_CHECK, and what the verdict of a frame depends on. -/

namespace Sys2Proof.Machine

/-! ### The register -/

@[simp] theorem crc6Reg_nil : crc6Reg [] = 0 := rfl

theorem crc6Reg_append_singleton (bits : List Bool) (b : Bool) :
    crc6Reg (bits ++ [b]) = crcStep (crc6Reg bits) b := List.foldl_concat ..

/-- The six equations of R291: the feedback goes to bits 0 and 1, the other bits move up by one. -/
theorem crcStep_bits (c : BitVec 6) (b : Bool) :
    (crcStep c b).getLsbD 0 = (c.getLsbD 5 ^^ b) ∧
      (crcStep c b).getLsbD 1 = (c.getLsbD 0 ^^ (c.getLsbD 5 ^^ b)) ∧
      (crcStep c b).getLsbD 2 = c.getLsbD 1 ∧ (crcStep c b).getLsbD 3 = c.getLsbD 2 ∧
      (crcStep c b).getLsbD 4 = c.getLsbD 3 ∧ (crcStep c b).getLsbD 5 = c.getLsbD 4 := by
  have hmsb : c.msb = c.getLsbD 5 := BitVec.msb_eq_getLsbD_last c
  rw [crcStep, hmsb]
  cases c.getLsbD 5 ^^ b with
  | false => simp
  | true => simp

/-- Settles O33. -/
theorem crcRegisterFollowsLfsrEquations : Obligations.CrcRegisterFollowsLfsrEquations :=
  ⟨crc6Reg_nil, crc6Reg_append_singleton, crcStep_bits⟩

/-- A step loses nothing of the register: the feedback stands in bit 0, and each bit can be read back from it. -/
theorem crcStep_injective (b : Bool) : Function.Injective (crcStep · b) := by
  intro c d h
  have hbit (i : Nat) : (crcStep c b).getLsbD i = (crcStep d b).getLsbD i := congrArg (·.getLsbD i) h
  obtain ⟨hc0, hc1, hc2, hc3, hc4, hc5⟩ := crcStep_bits c b
  obtain ⟨hd0, hd1, hd2, hd3, hd4, hd5⟩ := crcStep_bits d b
  have hfb : (c.getLsbD 5 ^^ b) = (d.getLsbD 5 ^^ b) := by rw [← hc0, hbit, hd0]
  refine BitVec.eq_of_getLsbD_eq fun i hi => ?_
  interval_cases i
  · rw [← Bool.xor_left_inj (z := c.getLsbD 5 ^^ b)]
    rw [← hc1, hbit, hd1, hfb]
  · rw [← hc2, hbit, hd2]
  · rw [← hc3, hbit, hd3]
  · rw [← hc4, hbit, hd4]
  · rw [← hc5, hbit, hd5]
  · exact Bool.xor_left_inj.1 hfb

/-- A step shows its message bit in bit 0 of the register. -/
theorem crcStep_not_ne (c : BitVec 6) (b : Bool) : crcStep c (!b) ≠ crcStep c b := by
  intro h
  obtain ⟨hflip, -⟩ := crcStep_bits c (!b)
  obtain ⟨hsame, -⟩ := crcStep_bits c b
  rw [h, hsame] at hflip
  exact (Bool.eq_not_self b).1 (Bool.xor_right_inj.1 hflip)

/-- Registers that differ stay different under the same bits. -/
theorem foldl_crcStep_injective (bits : List Bool) : Function.Injective (bits.foldl crcStep) := by
  induction bits with
  | nil => exact Function.injective_id
  | cons b bits ih => exact ih.comp (crcStep_injective b)

/-- A flipped message bit changes the register: at its step, and then to the end. -/
theorem foldl_crcStep_flip_ne (bits : List Bool) (c : BitVec 6) {t : Nat} (ht : t < bits.length) :
    (bits.set t (!bits.getD t false)).foldl crcStep c ≠ bits.foldl crcStep c := by
  induction bits generalizing c t with
  | nil => exact absurd ht (Nat.not_lt_zero t)
  | cons b bits ih =>
    cases t with
    | zero => exact (foldl_crcStep_injective bits).ne (crcStep_not_ne c b)
    | succ t => exact ih (crcStep c b) (Nat.lt_of_succ_lt_succ ht)

theorem crc6Reg_replicate_false (l : Nat) : crc6Reg (List.replicate l false) = 0 := by
  induction l with
  | zero => rfl
  | succ l ih => rw [List.replicate_succ', crc6Reg_append_singleton, ih]; rfl

/-! ### Validation -/

/-- The check value is the register with all six bits inverted (R292). -/
theorem crc6_eq_xor (bits : List Bool) : crc6 bits = crc6Reg bits ^^^ 0x3F := BitVec.xor_allOnes.symm

theorem crc6_replicate_false (l : Nat) : crc6 (List.replicate l false) = 0x3F := by
  rw [crc6, crc6Reg_replicate_false]; rfl

@[simp] theorem validate_nil (rcv : BitVec 6) : validate [] rcv = true := rfl

theorem validate_of_ne_nil {bits : List Bool} (h : bits ≠ []) (rcv : BitVec 6) :
    validate bits rcv = (crc6 bits == rcv) := if_neg (mt List.eq_nil_of_length_eq_zero h)

/-- The verdict of CRC_CHECK, with its short cut for no bits (R294, R306). -/
theorem validate_eq (bits : List Bool) (rcv : BitVec 6) :
    validate bits rcv = (decide (bits.length = 0) || crc6 bits == rcv) := by
  cases bits with
  | nil => rfl
  | cons b bits => exact validate_of_ne_nil (List.cons_ne_nil b bits) rcv

/-- Settles O36. -/
theorem emptyMessageAlwaysValidates : Obligations.EmptyMessageAlwaysValidates := fun rcv bits =>
  ⟨validate_nil rcv, fun h => by rw [validate_of_ne_nil h, crc6_eq_xor, beq_iff_eq]⟩

/-- A message with a flipped bit does not validate with the check value of the message (R297). -/
theorem validate_flip_message {bits : List Bool} {t : Nat} (ht : t < bits.length) :
    validate (bits.set t (!bits.getD t false)) (crc6 bits) = false := by
  have hne : bits.set t (!bits.getD t false) ≠ [] := by
    rw [← List.length_pos_iff, List.length_set]; omega
  rw [validate_of_ne_nil hne, beq_eq_false_iff_ne]
  exact fun h => foldl_crcStep_flip_ne bits 0 ht (BitVec.not_inj.1 h)

/-- A message does not validate with its check value when a bit of it is flipped (R297). -/
theorem validate_flip_check {bits : List Bool} (h : bits ≠ []) {k : Nat} (hk : k < 6) :
    validate bits (crc6 bits ^^^ BitVec.twoPow 6 k) = false := by
  rw [validate_of_ne_nil h, beq_eq_false_iff_ne]
  intro heq
  have hbit := congrArg (·.getLsbD k) heq
  simp [hk] at hbit

/-- The payload of the zero frame word is zeros (R144). -/
theorem payloadBits_zero (n m : Nat) : payloadBits n m 0 = List.replicate (n + m + 2) false := by
  simp [payloadBits, List.map_const']

/-- The zero frame word has check value 0x3F and check field 0 (R297). -/
theorem validateFrame_zero_crcOk (s : State) : (validateFrame 0 s).frame.crcOk = false := by
  rw [validateFrame_frame, payloadBits_zero, crc6_replicate_false]; rfl

/-- Settles O35: steps are injective in the register, so a difference once made is never lost. -/
theorem crcCatchesEverySingleBitFlip : Obligations.CrcCatchesEverySingleBitFlip :=
  ⟨fun bits h => ⟨by rw [validate_of_ne_nil h, beq_self_eq_true], fun _ => validate_flip_message,
    fun _ => validate_flip_check h⟩, crc6_replicate_false, validateFrame_zero_crcOk⟩

/-! ### The polynomial remainder -/

section
open Polynomial

/-- G(x) of R290. -/
noncomputable def crcGenerator : (ZMod 2)[X] := X ^ 6 + X + 1

/-- A bit as a coefficient. -/
noncomputable def bitPoly (b : Bool) : (ZMod 2)[X] := if b then 1 else 0

/-- The register with bit i the coefficient of x^i (R293). -/
noncomputable def registerPoly (c : BitVec 6) : (ZMod 2)[X] :=
  ∑ i ∈ Finset.range 6, if c.getLsbD i then X ^ i else 0

/-- B(x): the message with its oldest bit the highest coefficient (R293). -/
noncomputable def messagePoly (bits : List Bool) : (ZMod 2)[X] :=
  ∑ t ∈ Finset.range bits.length, if bits.getD t false then X ^ (bits.length - 1 - t) else 0

/-- XOR is addition over GF(2). -/
theorem bitPoly_xor (a b : Bool) : bitPoly (a ^^ b) = bitPoly a + bitPoly b := by
  cases a <;> cases b <;> simp [bitPoly, CharTwo.add_self_eq_zero]

theorem ite_pow_eq_bitPoly_mul (b : Bool) (n : Nat) :
    (if b then X ^ n else 0 : (ZMod 2)[X]) = bitPoly b * X ^ n := by
  cases b <;> simp [bitPoly]

theorem registerPoly_eq (c : BitVec 6) :
    registerPoly c = bitPoly (c.getLsbD 0) + bitPoly (c.getLsbD 1) * X + bitPoly (c.getLsbD 2) * X ^ 2 +
      bitPoly (c.getLsbD 3) * X ^ 3 + bitPoly (c.getLsbD 4) * X ^ 4 + bitPoly (c.getLsbD 5) * X ^ 5 := by
  simp only [registerPoly, ite_pow_eq_bitPoly_mul, Finset.sum_range_succ, Finset.sum_range_zero, pow_zero, pow_one,
    mul_one, zero_add]

/-- A step multiplies by x, adds b·x^6 and takes off the generator when the feedback is 1. -/
theorem registerPoly_crcStep (c : BitVec 6) (b : Bool) :
    registerPoly (crcStep c b) + crcGenerator * bitPoly (c.getLsbD 5 ^^ b) =
      X * registerPoly c + bitPoly b * X ^ 6 := by
  obtain ⟨h0, h1, h2, h3, h4, h5⟩ := crcStep_bits c b
  rw [registerPoly_eq, registerPoly_eq, h0, h1, h2, h3, h4, h5, crcGenerator]
  simp only [bitPoly_xor]
  have htwo : (2 : (ZMod 2)[X]) = 0 := CharTwo.two_eq_zero
  linear_combination (bitPoly (c.getLsbD 5) + bitPoly b) * (X + 1) * htwo

/-- One more bit multiplies the message by x and adds the bit. -/
theorem messagePoly_append_singleton (bits : List Bool) (b : Bool) :
    messagePoly (bits ++ [b]) = X * messagePoly bits + bitPoly b := by
  have hold : ∀ t ∈ Finset.range bits.length,
      (if (bits ++ [b]).getD t false then X ^ (bits.length - t) else 0 : (ZMod 2)[X]) =
        X * (if bits.getD t false then X ^ (bits.length - 1 - t) else 0) := by
    intro t ht
    have hlt := Finset.mem_range.1 ht
    have hexp : bits.length - t = bits.length - 1 - t + 1 := by omega
    rw [List.getD_append _ _ _ _ hlt, hexp, mul_ite, mul_zero, pow_succ']
  rw [messagePoly, List.length_append, List.length_singleton, Finset.sum_range_succ, Nat.add_sub_cancel,
    Finset.sum_congr rfl hold, ← Finset.mul_sum, List.getD_append_right _ _ _ _ le_rfl]
  simp [messagePoly, bitPoly]

/-- The register differs from B(x)·x^6 by a multiple of the generator. -/
theorem exists_registerPoly_add_mul (bits : List Bool) :
    ∃ q, registerPoly (crc6Reg bits) + crcGenerator * q = messagePoly bits * X ^ 6 := by
  induction bits using List.reverseRecOn with
  | nil => exact ⟨0, by simp [registerPoly, messagePoly]⟩
  | append_singleton bits b ih =>
    obtain ⟨q, hq⟩ := ih
    have hstep := registerPoly_crcStep (crc6Reg bits) b
    refine ⟨X * q + bitPoly ((crc6Reg bits).getLsbD 5 ^^ b), ?_⟩
    rw [crc6Reg_append_singleton, messagePoly_append_singleton]
    linear_combination hstep + X * hq

theorem crcGenerator_monic : crcGenerator.Monic := by
  unfold crcGenerator
  monicity!

theorem degree_crcGenerator : crcGenerator.degree = (6 : ℕ) := by
  unfold crcGenerator
  compute_degree!

theorem degree_registerPoly_lt (c : BitVec 6) : (registerPoly c).degree < crcGenerator.degree := by
  rw [degree_crcGenerator]
  refine (degree_sum_le _ _).trans_lt ((Finset.sup_lt_iff (by decide)).2 fun i hi => ?_)
  split
  · rw [degree_X_pow]; exact_mod_cast Finset.mem_range.1 hi
  · rw [degree_zero]; exact WithBot.bot_lt_coe 6

/-- Settles O34: the register is congruent to B(x)·x^6 and of degree below the generator's. -/
theorem crcIsPolynomialRemainder : Obligations.CrcIsPolynomialRemainder := fun bits => by
  obtain ⟨q, hq⟩ := exists_registerPoly_add_mul bits
  obtain ⟨-, hmod⟩ := div_modByMonic_unique _ _ crcGenerator_monic ⟨hq, degree_registerPoly_lt (crc6Reg bits)⟩
  exact hmod.symm

end

/-! ### The CRC_IN window -/

@[simp] theorem crcInBits_length (crcIn : List Word) (l : Nat) : (crcInBits crcIn l).length = l := by
  simp [crcInBits]

theorem getLsbD_bitrev32 (w : Word) {i : Nat} (h : i < 32) : (bitrev32 w).getLsbD i = w.getLsbD (31 - i) := by
  simp [bitrev32, h]

/-- Reversing a word, right-aligning its first r bits and emitting them from the top gives the bits from bit 0 up
(R300, R301). -/
theorem emitDown_bitrev32 (w : Word) {r : Nat} (h : r ≤ 32) :
    emitDown r (bitrev32 w >>> (32 - r)) = (List.range r).map w.getLsbD := by
  refine List.map_congr_left fun j hj => ?_
  have hlt := List.mem_range.1 hj
  have hplace : 31 - (32 - r + (r - 1 - j)) = j := by omega
  rw [BitVec.getLsbD_ushiftRight, getLsbD_bitrev32 _ (by omega), hplace]

/-- The bits after a whole number of words are those of the next word (R146). -/
theorem crcInBits_words_add (crcIn : List Word) (k : Nat) {r : Nat} (h : r ≤ 32) :
    crcInBits crcIn (32 * k + r) =
      crcInBits crcIn (32 * k) ++ (List.range r).map (wordAt crcIn k).getLsbD := by
  rw [crcInBits, List.range_add, List.map_append, List.map_map, crcInBits]
  congr 1
  refine List.map_congr_left fun j hj => ?_
  have hlt := List.mem_range.1 hj
  have hdiv : (32 * k + j) / 32 = k := by omega
  have hmod : (32 * k + j) % 32 = j := by omega
  rw [Function.comp_apply, hdiv, hmod]

/-- Full words, each reversed, are the bits of the window (R300). -/
theorem flatMap_emitDown_eq_crcInBits (crcIn : List Word) (k : Nat) :
    ((List.range k).flatMap fun i => emitDown 32 (bitrev32 (wordAt crcIn i))) = crcInBits crcIn (32 * k) := by
  induction k with
  | zero => rfl
  | succ k ih =>
    have hword := emitDown_bitrev32 (wordAt crcIn k) le_rfl
    rw [Nat.sub_self, BitVec.ushiftRight_zero] at hword
    rw [List.range_succ, List.flatMap_append, ih, List.flatMap_singleton, hword, Nat.mul_succ,
      crcInBits_words_add crcIn k le_rfl]

/-- Settles O37: the full words, then the right-aligned last one. -/
theorem crcWindowHasOneBitOrder : Obligations.CrcWindowHasOneBitOrder := fun crcIn l => by
  have hr : l % 32 ≤ 32 := (Nat.mod_lt l (by decide)).le
  have htail : (if l % 32 = 0 then [] else emitDown (l % 32) (bitrev32 (wordAt crcIn (l / 32)) >>> (32 - l % 32))) =
      (List.range (l % 32)).map (wordAt crcIn (l / 32)).getLsbD := by
    split
    · next h => rw [h]; rfl
    · exact emitDown_bitrev32 _ hr
  rw [crcInBitsByWords, flatMap_emitDown_eq_crcInBits, htail, ← crcInBits_words_add crcIn (l / 32) hr,
    Nat.div_add_mod]

/-! ### CRC_CHECK -/

/-- CRC_CHECK of at most CAP_BITS bits is the completion of its one write (R305). -/
theorem exec_crcCheck_fits {s : State} {l : Nat} (h : l ≤ s.capBits) (rcrc : BitVec 6) :
    exec (.crcCheck l rcrc) s = .next (finish .none (storeCrcResult l rcrc s)) := by
  rw [exec, execCrcCheck, if_neg (Nat.not_lt.2 h), complete_eq]

/-- What CRC_CHECK writes (R305, R306). -/
theorem storeCrcResult_eq (l : Nat) (rcrc : BitVec 6) (s : State) :
    storeCrcResult l rcrc s = { s with
      crcRes := { ok := decide (l = 0) || crc6 (crcInBits s.crcIn l) == rcrc
                  calcCrc := crc6 (crcInBits s.crcIn l), rcvCrc := rcrc } } := by
  rw [storeCrcResult, validate_eq, crcInBits_length]

/-- Settles O16. -/
theorem crcCheckStoresVerdict : Obligations.CrcCheckStoresVerdict := fun s l rcrc h => by
  rw [exec_crcCheck_fits h, storeCrcResult_eq, crc6_eq_xor]
  rfl

/-! ### The bits a frame's verdict and fields depend on -/

/-- A held frame is determined by its frame word and its widths. -/
theorem HoldsFrame.unique {n m f : Nat} {fr gr : HeldFrame} (h : HoldsFrame n m f fr) (h' : HoldsFrame n m f gr) :
    fr = gr := by
  have hrcv := h.rcvCrc_eq.trans h'.rcvCrc_eq.symm
  obtain ⟨hheld, hwarn, herr, hst, hmt, -, hcalc, hok⟩ := h
  obtain ⟨hheld', hwarn', herr', hst', hmt', -, hcalc', hok'⟩ := h'
  have hst_eq : fr.st = gr.st := BitVec.eq_of_getLsbD_eq fun i hi => (hst i hi).trans (hst' i hi).symm
  have hmt_eq : fr.mt = gr.mt := BitVec.eq_of_getLsbD_eq fun i hi => (hmt i hi).trans (hmt' i hi).symm
  have hcalc_eq := hcalc.trans hcalc'.symm
  have hok_eq : fr.crcOk = gr.crcOk := by rw [hok, hok', hcalc_eq, hrcv]
  cases fr
  cases gr
  exact (HeldFrame.mk.injEq ..).mpr ⟨hheld.trans hheld'.symm, hok_eq, herr.trans herr'.symm, hwarn.trans hwarn'.symm,
    hmt_eq, hst_eq, hrcv, hcalc_eq⟩

/-- The fields, the check values and the verdict read only F[N+M+7:0] (R296, R323). -/
theorem HoldsFrame.congr {n m f g : Nat} {fr : HeldFrame} (h : HoldsFrame n m f fr)
    (hfg : ∀ j < n + m + 8, f.testBit j = g.testBit j) : HoldsFrame n m g fr := by
  obtain ⟨hheld, hwarn, herr, hst, hmt, hrcv, hcalc, hok⟩ := h
  have hpayload : ((List.range (n + m + 2)).map fun t => f.testBit (n + m + 7 - t)) =
      (List.range (n + m + 2)).map fun t => g.testBit (n + m + 7 - t) :=
    List.map_congr_left fun t _ => hfg _ (by omega)
  refine ⟨hheld, hwarn.trans (hfg 6 (by omega)), herr.trans (hfg 7 (by omega)), fun i hi => ?st, fun i hi => ?mt,
    fun i hi => (hrcv i hi).trans (hfg i (by omega)), hpayload ▸ hcalc, hok⟩
  case st =>
    rw [hst i hi]
    by_cases him : i < m
    · rw [hfg _ (by omega)]
    · rw [decide_eq_false him, Bool.false_and, Bool.false_and]
  case mt =>
    rw [hmt i hi]
    by_cases hin : i < n
    · rw [hfg _ (by omega)]
    · rw [decide_eq_false hin, Bool.false_and, Bool.false_and]

/-- Validation and decoding write the held frame and nothing else (R295, R321). -/
theorem decodeFrame_validateFrame_eq (f : Nat) (s : State) :
    decodeFrame f (validateFrame f s) = { s with frame := (decodeFrame f (validateFrame f s)).frame } := rfl

/-- Settles O29: both words put the same frame, the one the bits below N+M+8 determine. -/
theorem upperFrameBitsNeverMatter : Obligations.UpperFrameBitsNeverMatter := by
  intro s f g hmod
  have hbits : ∀ j < s.mtWidth + s.stWidth + 8, f.testBit j = g.testBit j := fun j hj => by
    simpa [Nat.testBit_mod_two_pow, hj] using congrArg (Nat.testBit · j) hmod
  have hframe := ((holdsFrame_decodeFrame f s).congr hbits).unique (holdsFrame_decodeFrame g s)
  rw [decodeFrame_validateFrame_eq f, hframe, decodeFrame_validateFrame_eq g]

end Sys2Proof.Machine

/-! SUPPORT. DECODE as the completion of its one write, the held frame (45_decode.md R325). -/

namespace Sys2Proof.Machine

/-- DECODE past its preconditions validates and decodes the frame word of RAW, and completes (R325). -/
theorem exec_decode_fits {s : State} {nw : Nat} (hinit : s.initDone = true) (hpos : 1 ≤ nw)
    (hmax : nw ≤ s.param.nsMax) (hfit : s.mtWidth + s.stWidth + 8 ≤ 32 * nw) :
    exec (.decode nw) s =
      .next (finish .none (decodeFrame (frameWord nw s.raw) (validateFrame (frameWord nw s.raw) s))) := by
  have hlen : ¬ (nw = 0 ∨ nw > s.param.nsMax ∨ 32 * nw < s.mtWidth + s.stWidth + 8) := by omega
  rw [exec, execDecode, if_neg (by simp [hinit]), if_neg hlen, complete_eq]

/-- Settles O17: validation and decoding write the held frame alone, with the fields of RAW's frame word. -/
theorem decodeWritesHeldFrame : Obligations.DecodeWritesHeldFrame := fun s nw hinit hpos hmax hfit => by
  refine ⟨_, holdsFrame_decodeFrame (frameWord nw s.raw) s, ?_⟩
  rw [exec_decode_fits hinit hpos hmax hfit, decodeFrame_validateFrame_eq, finish, irqOfCompletion_none]

end Sys2Proof.Machine

/-! SUPPORT. The tracker (46_tracker.md R350 to R367): the signed reading of a phase error, what an update makes of a
frame at the latched position, and LATCH_OFFSET. -/

namespace Sys2Proof.Machine

/-! ### The phase error -/

/-- The sign bit of a W-bit pattern says whether the pattern is in the upper half of its range. -/
theorem testBit_sign_iff {w v : Nat} (hw : 1 ≤ w) (hv : v < 2 ^ w) : v.testBit (w - 1) = true ↔ 2 ^ (w - 1) ≤ v :=
  ⟨Nat.ge_two_pow_of_testBit, fun hle =>
    Nat.testBit_of_two_pow_le_and_two_pow_add_one_gt hle (by rwa [Nat.sub_add_cancel hw])⟩

/-- A W-bit pattern read as two's complement lies in [-2^(W-1), 2^(W-1) - 1] (R16). -/
theorem toSigned_bounds {w v : Nat} (hw : 1 ≤ w) (hv : v < 2 ^ w) :
    toSigned w v ≤ 2 ^ (w - 1) - 1 ∧ -(2 ^ (w - 1) : Int) ≤ toSigned w v := by
  have hhalf : 2 ^ w = 2 * 2 ^ (w - 1) := by rw [← pow_succ', Nat.sub_add_cancel hw]
  have hsign := testBit_sign_iff hw hv
  zify at hhalf hsign hv
  unfold toSigned
  split
  case isTrue hneg =>
    have := hsign.1 hneg
    push_cast
    omega
  case isFalse hpos =>
    have := mt hsign.2 hpos
    omega

/-- The signed reading of a wrapped difference is congruent to the exact difference (R16). -/
theorem dvd_toSigned_wrapSub (w a b : Nat) : (2 ^ w : Int) ∣ toSigned w (wrapSub w a b) - ((a : Int) - b) := by
  have hcongr : (a : Int) - b ≡ toSigned w (wrapSub w a b) [ZMOD (2 ^ w : Nat)] :=
    calc ((a : Int) - b) % (2 ^ w : Nat) = wrapSub w a b := (wrapSub_eq_emod w a b).symm
      _ = toSigned w (wrapSub w a b) % (2 ^ w : Nat) := (toSigned_emod (wrapSub_lt w a b)).symm
  exact_mod_cast hcongr.dvd

/-- Settles O38: range and congruence of the signed reading of a wrapped difference. -/
theorem phaseErrorIsShortestAngle : Obligations.PhaseErrorIsShortestAngle := fun m raw filt hm =>
  have ⟨hupper, hlower⟩ := toSigned_bounds hm (wrapSub_lt m raw filt)
  ⟨hupper, hlower, dvd_toSigned_wrapSub m raw filt⟩

/-! ### LATCH_OFFSET -/

/-- LATCH_OFFSET past its preconditions is the completion of its writes (R360, R361). -/
theorem exec_latchOffset_held {s : State} (hinit : s.initDone = true) (hheld : s.frame.held = true)
    (hok : s.frame.crcOk = true) : exec .latchOffset s = .next (finish .none (latchOffsets s)) := by
  rw [exec, execLatchOffset, if_neg (by simp [hinit]), if_neg (by simp [hheld, hok]), complete_eq]

/-- Settles O15: the completion of the copy of MT and ST into the offsets. -/
theorem latchOffsetCopiesHeldFrame : Obligations.LatchOffsetCopiesHeldFrame :=
  fun _ => exec_latchOffset_held

/-! ### A frame at the latched position -/

/-- FRAME_PROC with a positive verdict leaves the tracker registers of the frame it now holds (R260, R351). -/
theorem tracksFrame_frameProcStep {s : State} (hok : (frameProcStep s).frame.crcOk = true) :
    TracksFrame s (frameProcStep s).frame.mt (frameProcStep s).frame.st (frameProcStep s).trk := by
  rw [frameProcStep_eq] at hok
  rw [frameProcStep_good hok]
  simpa using tracksFrame_receiveFrame s

/-- A FRAME_PROC step with a positive verdict, with the offsets from before the step (R260, R351). -/
theorem tracksFrame_of_step_frameProc {s t : State} (hin : CoreTurnIn .frameProc s) (hstep : step s = .next t)
    (hok : t.frame.crcOk = true) : TracksFrame s t.frame.mt t.frame.st t.trk := by
  obtain ⟨⟨s', hn⟩, hf⟩ := hin
  obtain ⟨events, rfl⟩ : ∃ events, s' = { s with inbox := events } := ⟨_, hn.eq⟩
  obtain rfl := Host.Outcome.next.inj ((step_frameProc hn hf).symm.trans hstep)
  exact tracksFrame_frameProcStep hok

/-- At the position of the offsets both corrected fields are 0 (R352, R356). -/
theorem TracksFrame.zero_of_latched {s : State} {u : Tracker} (h : TracksFrame s s.off.mt s.off.st u) :
    u.rawAng = 0 ∧ u.pos = 0 := by
  obtain ⟨hraw, -, -, -, hpos, -, -⟩ := h
  simp only [Int.sub_self, Int.zero_emod, Int.toNat_zero, Nat.zero_mul, Nat.add_zero] at hraw hpos
  exact ⟨hraw, hpos⟩

/-- Settles O39: the later frame is tracked with the offsets that LATCH_OFFSET copied from the same position. -/
theorem offsetRoundTripIsZero : Obligations.OffsetRoundTripIsZero := by
  intro s u v w hinit hheld hok hlatch hoff hin hstep hgood hmt hst
  obtain rfl := Host.Outcome.next.inj ((exec_latchOffset_held hinit hheld hok).symm.trans hlatch)
  have htracks := tracksFrame_of_step_frameProc hin hstep hgood
  have hmt_off : w.frame.mt = v.off.mt := by rw [hmt, hoff, finish_off, latchOffsets_off]
  have hst_off : w.frame.st = v.off.st := by rw [hst, hoff, finish_off, latchOffsets_off]
  rw [hmt_off, hst_off] at htracks
  exact htracks.zero_of_latched

end Sys2Proof.Machine

/-! SUPPORT. The errors a command meets in its EXEC step (60_exceptions.md R404, R405), and that none of them, and no
event of the host, stops a run (R407). -/

namespace Sys2Proof.Machine

/-! ### The first error of a command -/

/-- A raise is the error completion of R404. -/
theorem raiseError_eq_errorCompletion {code : ErrCode} (h : code ≠ .none) (s : State) :
    raiseError code s = .next (ErrorCompletion code s) := by
  rw [raiseError_eq, finish_eq_errorCompletion h]

/-- The session comes first in the order of R405, in each command that needs one. -/
theorem exec_of_noSession {s : State} {i : Instr}
    (hi : i = .calibrate ∨ i = .read ∨ i = .latchOffset ∨ ∃ nw, i = .decode nw) (hinit : s.initDone = false) :
    exec i s = .next (ErrorCompletion .notInitialised s) := by
  have hraise : exec i s = raiseError .notInitialised s := by
    obtain rfl | rfl | rfl | ⟨nw, rfl⟩ := hi
    · rw [exec, execCalibrate, if_pos hinit]
    · rw [exec, execRead, if_pos hinit]
    · rw [exec, execLatchOffset, if_pos hinit]
    · rw [exec, execDecode, if_pos hinit]
  rw [hraise, raiseError_eq_errorCompletion (by decide)]

/-- A READ needs a calibration once the session is open and not fatal (R261, R405). -/
theorem exec_read_uncalibrated {s : State} (hinit : s.initDone = true) (hfail : s.cal.fail = false)
    (hdone : s.cal.done = false) : exec .read s = .next (ErrorCompletion .notCalibrated s) := by
  rw [exec, execRead, if_neg (by simp [hinit]), if_neg (by simp [hfail]), if_pos hdone,
    raiseError_eq_errorCompletion (by decide)]

/-- LATCH_OFFSET needs a held frame whose CRC matched (R361, R405). -/
theorem exec_latchOffset_noFrame {s : State} (hinit : s.initDone = true)
    (hframe : s.frame.held = false ∨ s.frame.crcOk = false) :
    exec .latchOffset s = .next (ErrorCompletion .noFrame s) := by
  rw [exec, execLatchOffset, if_neg (by simp [hinit]), if_pos hframe, raiseError_eq_errorCompletion (by decide)]

/-- CRC_CHECK takes at most CAP_BITS bits (R305). -/
theorem exec_crcCheck_tooLong {s : State} {l : Nat} (h : s.capBits < l) (rcrc : BitVec 6) :
    exec (.crcCheck l rcrc) s = .next (ErrorCompletion .badLen s) := by
  rw [exec, execCrcCheck, if_pos h, raiseError_eq_errorCompletion (by decide)]

/-- DECODE needs a frame of 1 to NS_MAX words that holds the fields of the session (R325, R405). -/
theorem exec_decode_badLen {s : State} {nw : Nat} (hinit : s.initDone = true)
    (hlen : nw = 0 ∨ s.param.nsMax < nw ∨ 32 * nw < s.mtWidth + s.stWidth + 8) :
    exec (.decode nw) s = .next (ErrorCompletion .badLen s) := by
  rw [exec, execDecode, if_neg (by simp [hinit]), if_pos hlen, raiseError_eq_errorCompletion (by decide)]

/-- In a fatal session CALIBRATE and READ are error completions (R402, R405). -/
theorem exec_of_sessionFatal_errorCompletion {s : State} {i : Instr} (hi : i = .calibrate ∨ i = .read)
    (hinit : s.initDone = true) (hfail : s.cal.fail = true) :
    exec i s = .next (ErrorCompletion .sessionFatal s) := by
  rw [exec_of_sessionFatal hi hinit hfail, finish_eq_errorCompletion (by decide)]

/-- Settles O18, one lemma for each error in the order of R405. -/
theorem commandsReportFirstError : Obligations.CommandsReportFirstError := by
  intro s l nw rcrc
  refine ⟨fun hinit => ⟨?_, ?_, ?_, ?_⟩, fun hinit hfail => ⟨?_, ?_⟩, exec_read_uncalibrated,
    exec_latchOffset_noFrame, fun hl => exec_crcCheck_tooLong hl rcrc, exec_decode_badLen⟩
  · exact exec_of_noSession (.inl rfl) hinit
  · exact exec_of_noSession (.inr (.inl rfl)) hinit
  · exact exec_of_noSession (.inr (.inr (.inl rfl))) hinit
  · exact exec_of_noSession (.inr (.inr (.inr ⟨nw, rfl⟩))) hinit
  · exact exec_of_sessionFatal_errorCompletion (.inl rfl) hinit hfail
  · exact exec_of_sessionFatal_errorCompletion (.inr rfl) hinit hfail

/-! ### Every step goes on -/

/-- A raise goes on, with the error reported (R404, R407). -/
theorem exists_raiseError (code : ErrCode) (s : State) : ∃ t, raiseError code s = .next t := ⟨_, raiseError_eq code s⟩

/-- A completion goes on (R202). -/
theorem exists_complete (s : State) : ∃ t, complete s = .next t := ⟨_, complete_eq s⟩

/-- A check of a precondition goes on when both of its branches do. -/
theorem exists_next_ite {c : Prop} [Decidable c] {a b : StepOutcome} (ha : ∃ t, a = .next t) (hb : ∃ t, b = .next t) :
    ∃ t, (if c then a else b) = .next t := by
  split
  · exact ha
  · exact hb

/-- Every command goes on: its checks lead to a raise, to a completion or to the start of a transaction (R407). -/
theorem exists_exec (i : Instr) (s : State) : ∃ t, exec i s = .next t := by
  cases i with
  | nop => exact exists_complete s
  | init => exact exists_next_ite (exists_complete _) (exists_raiseError _ s)
  | calibrate =>
    exact exists_next_ite (exists_raiseError _ s) (exists_next_ite (exists_raiseError _ s) ⟨_, rfl⟩)
  | read =>
    exact exists_next_ite (exists_raiseError _ s)
      (exists_next_ite (exists_raiseError _ s) (exists_next_ite (exists_raiseError _ s) ⟨_, rfl⟩))
  | latchOffset =>
    exact exists_next_ite (exists_raiseError _ s) (exists_next_ite (exists_raiseError _ s) (exists_complete _))
  | crcCheck l rcrc => exact exists_next_ite (exists_raiseError _ s) (exists_complete _)
  | decode nw =>
    exact exists_next_ite (exists_raiseError _ s) (exists_next_ite (exists_raiseError _ s) (exists_complete _))

/-- The EXEC step goes on, with an illegal word too (R137, R201, R407). -/
theorem exists_execTurn (s : State) : ∃ t, execTurn s = .next t := by
  unfold execTurn
  split
  next i _ => exact exists_exec i s
  next => exact exists_raiseError .illegalCmd s

/-- A core turn goes on in every FSM state (R70, R407). -/
theorem exists_coreTurn (s : State) : ∃ t, coreTurn s = .next t := by
  cases hf : s.fsm with
  | exec =>
    obtain ⟨t, ht⟩ := exists_execTurn (beginTurn s)
    exact ⟨t, by rw [coreTurn, hf, ht]⟩
  | _ => exact ⟨_, by rw [coreTurn, hf]⟩

/-- A step goes on, whatever the next event is (R407). -/
theorem exists_step (s : State) : ∃ t, step s = .next t := by
  obtain ⟨s', -, hstep⟩ | ⟨a, rest, -, hstep⟩ | ⟨p, rest, -, hstep⟩ := step_cases s
  · rw [hstep]
    exact exists_coreTurn s'
  · exact ⟨_, hstep⟩
  · exact ⟨_, hstep⟩

/-- Settles O8, by induction on the number of steps. -/
theorem noRunEverStops : Obligations.NoRunEverStops := by
  intro s k
  induction k generalizing s with
  | zero => exact ⟨s, rfl⟩
  | succ k ih =>
    obtain ⟨t, ht⟩ := exists_step s
    rw [run_succ k ht]
    exact ih t

end Sys2Proof.Machine

/-! SUPPORT. The `irq` line (60_exceptions.md R414), and a reset edge as a step (70_reset_and_hazards.md R450 to
R452). -/

namespace Sys2Proof.Machine

/-- A vector is not 0 exactly when one of its bits is set. -/
theorem ne_zero_iff_exists_getLsbD {w : Nat} (x : BitVec w) : x ≠ 0 ↔ ∃ i < w, x.getLsbD i = true := by
  rw [ne_eq, BitVec.eq_of_getLsbD_eq_iff]
  simp

/-- Settles O54: a pending and enabled source is a set bit of IRQ_STATUS AND IRQ_EN. -/
theorem irqLineIsEnabledPending : Obligations.IrqLineIsEnabledPending := by
  intro s
  rw [irqOut, bne_iff_ne, ne_zero_iff_exists_getLsbD]
  simp only [BitVec.getLsbD_and, Bool.and_eq_true]

/-- A reset edge that is the next event is the next step (R450). -/
theorem step_of_resetEdge {s : State} {presented : Option BusAccess} {rest : List HostEvent}
    (hx : s.inbox = .resetEdge presented :: rest) :
    step s = .next (resetEdge presented { s with inbox := rest }) := by
  simp [step, nextEvent, hx]

/-- An access presented with a reset edge can only be answered with 0 (R450). -/
theorem resetResponse_rdata {presented : Option BusAccess} {v : Word}
    (h : (resetResponse presented).rdata = some v) : v = 0 := by
  unfold resetResponse at h
  split at h
  · exact (Option.some.inj h).symm
  · cases h

/-- Settles O57: the step is the reset edge, which leaves the reset values from every state. -/
theorem resetEdgeEndsEverything : Obligations.ResetEdgeEndsEverything := fun _ presented _ hx =>
  ⟨_, step_of_resetEdge hx, rfl, hasResetValues_resetEdge presented _, fun _ => resetResponse_rdata, rfl, rfl⟩

end Sys2Proof.Machine
